-- ==== Sys2Proof/Word.lean ====
section
/-!
DEFINITION. The widths of the block's values (spec/00_scope.md R8 to R10): every register is one 32-bit word,
every time value 64 bits, every request and response word 40 bits.  Bit 0 is the least significant bit (R9) and
`+`, `-`, `*` of `BitVec` wrap modulo 2^N without a flag (R10).
-/

namespace Sys2Proof

/-- A register of the register block or of the block itself (`REG_WIDTH`, R8). -/
abbrev Word := BitVec 32

/-- One payload byte (R121). -/
abbrev Byte := BitVec 8

/-- A time value, nanoseconds or microseconds (`TIME_W`, R8, R171). -/
abbrev Time := BitVec 64

/-- A request word `op ++ arg` (R131) or a response word `status ++ value` (R132). -/
abbrev PortWord := BitVec 40

end Sys2Proof
end

