-- ==== Sys2Proof/Machine/Tags.lean ====
section
/-!
DEFINITION. The operation tags, bits 39:32 of a request word (30_encoding.md R130; decision D1).  The spec's D1
asks a model to keep them in one replaceable place: no meaning reads a tag; only Decode.lean does (R100).
-/

namespace Sys2Proof

/-- READ_STATUS (R130). -/
def tagReadStatus : Byte := 0x01
/-- READ_FRAME (R130). -/
def tagReadFrame : Byte := 0x02
/-- WRITE_TIMING (R130). -/
def tagWriteTiming : Byte := 0x03
/-- PULSE_RESET (R130). -/
def tagPulseReset : Byte := 0x04
/-- CAPTURE_BASE (R130). -/
def tagCaptureBase : Byte := 0x10
/-- TO_ABSOLUTE (R130). -/
def tagToAbsolute : Byte := 0x11
/-- DECODE (R130). -/
def tagDecode : Byte := 0x20
/-- RESOLVE (R130). -/
def tagResolve : Byte := 0x30
/-- SET_BIT_RATE (R130). -/
def tagSetBitRate : Byte := 0x31
/-- LOG_THROTTLED (R130). -/
def tagLogThrottled : Byte := 0x40
/-- CHECK_STATUS (R130). -/
def tagCheckStatus : Byte := 0x41
/-- START (R130). -/
def tagStart : Byte := 0x50
/-- TIMER_FIRE (R130). -/
def tagTimerFire : Byte := 0x51
/-- DRAIN (R130). -/
def tagDrain : Byte := 0x52
/-- STOP (R130). -/
def tagStop : Byte := 0x53

end Sys2Proof
end

