-- ==== Sys2Proof/Syntax.lean ====
section
/-!
DEFINITION. The operations of the block, one constructor per row of spec/opcode_table.json
(30_encoding.md R130, R131, R134).
-/

namespace Sys2Proof

/-- An operation of the block.  Format I operations carry no `arg` operand (their operands are block state or
values computed by their caller, R131), except RESOLVE, whose `arg` is the bit rate; format A carries the one
32-bit operand; format N carries `arg`, which must be 0 (R131): `WellFormed` says so. -/
inductive Instr where
  | readStatus                        -- READ_STATUS, R151
  | readFrame                         -- READ_FRAME, R153
  | writeTiming                       -- WRITE_TIMING, R155
  | pulseReset                        -- PULSE_RESET, R156
  | captureBase                       -- CAPTURE_BASE, R172
  | toAbsolute                        -- TO_ABSOLUTE, R173
  | decode                            -- DECODE, R181
  | resolve (bitrate : Word)          -- RESOLVE, R202
  | setBitRate (bitrate : Word)       -- SET_BIT_RATE, R204
  | logThrottled                      -- LOG_THROTTLED, R216
  | checkStatus                       -- CHECK_STATUS, R221
  | start (arg : Word)                -- START, R233
  | timerFire (arg : Word)            -- TIMER_FIRE, R236
  | drain (budget : Word)             -- DRAIN, R238
  | stop (arg : Word)                 -- STOP, R244
  deriving DecidableEq, Repr

end Sys2Proof
end

