-- ==== Sys2Proof/WellFormed.lean ====
section
/-!
DEFINITION. Which terms of `Instr` stand for a request word: the one check the encoding makes beyond its tag is
that a format N word has `arg` = 0 (30_encoding.md R131, R140).
-/

namespace Sys2Proof

/-- A format N operation carries `arg` = 0; every operand of the other formats is legal (R131, R141). -/
def wellFormed (i : Instr) : Bool :=
  match i with
  | .start arg => arg == 0
  | .timerFire arg => arg == 0
  | .stop arg => arg == 0
  | .readStatus => true
  | .readFrame => true
  | .writeTiming => true
  | .pulseReset => true
  | .captureBase => true
  | .toAbsolute => true
  | .decode => true
  | .resolve _ => true
  | .setBitRate _ => true
  | .logThrottled => true
  | .checkStatus => true
  | .drain _ => true

/-- An operation that some request word stands for (R131, R140). -/
abbrev WellFormed (i : Instr) : Prop := wellFormed i = true

end Sys2Proof
end

