-- ==== Sys2Proof/Decode.lean ====
section
/-!
DEFINITION. Reading a 40-bit request word as an operation, and writing an operation as a word
(30_encoding.md R130, R131, R134, R140).  The word is `op` in bits 39:32 and `arg` in bits 31:0; it is one word on
a port, so there is no byte order to fix (R61, R142).
-/

namespace Sys2Proof

/-- Why a word is no operation at all (R140, U13). -/
inductive DecodeError where
  | unassignedTag   -- `op` is none of the 15 tags
  | nonzeroArg      -- a format N tag with `arg` other than 0
  deriving DecidableEq, Repr

/-- `op`, bits 39:32 (R131). -/
def wordOp (w : PortWord) : Byte := w.extractLsb' 32 8

/-- `arg`, bits 31:0 (R131). -/
def wordArg (w : PortWord) : Word := w.extractLsb' 0 32

/-- The word with tag `op` and operand `arg` (R131). -/
def makeWord (op : Byte) (arg : Word) : PortWord := op ++ arg

/-- A format N operation: `arg` must be 0 (R131, R140). -/
def decodeN (i : Instr) (arg : Word) : Except DecodeError Instr :=
  if arg = 0 then .ok i else .error .nonzeroArg

/-- The operation a word stands for, whoever may issue it; total, refusing by name (R130, R131, R140).  `arg` of a
format I word other than RESOLVE is not looked at (opcode_table.json "arg_unused"; log 21). -/
def decode (w : PortWord) : Except DecodeError Instr :=
  let op := wordOp w
  let arg := wordArg w
  if op = tagReadStatus then .ok .readStatus
  else if op = tagReadFrame then .ok .readFrame
  else if op = tagWriteTiming then .ok .writeTiming
  else if op = tagPulseReset then .ok .pulseReset
  else if op = tagCaptureBase then .ok .captureBase
  else if op = tagToAbsolute then .ok .toAbsolute
  else if op = tagDecode then .ok .decode
  else if op = tagResolve then .ok (.resolve arg)
  else if op = tagSetBitRate then .ok (.setBitRate arg)
  else if op = tagLogThrottled then .ok .logThrottled
  else if op = tagCheckStatus then .ok .checkStatus
  else if op = tagStart then decodeN (.start arg) arg
  else if op = tagTimerFire then decodeN (.timerFire arg) arg
  else if op = tagDrain then .ok (.drain arg)
  else if op = tagStop then decodeN (.stop arg) arg
  else .error .unassignedTag

/-- The tag of an operation (R130). -/
def opTag (i : Instr) : Byte :=
  match i with
  | .readStatus => tagReadStatus
  | .readFrame => tagReadFrame
  | .writeTiming => tagWriteTiming
  | .pulseReset => tagPulseReset
  | .captureBase => tagCaptureBase
  | .toAbsolute => tagToAbsolute
  | .decode => tagDecode
  | .resolve _ => tagResolve
  | .setBitRate _ => tagSetBitRate
  | .logThrottled => tagLogThrottled
  | .checkStatus => tagCheckStatus
  | .start _ => tagStart
  | .timerFire _ => tagTimerFire
  | .drain _ => tagDrain
  | .stop _ => tagStop

/-- The `arg` of an operation's word; 0 where format I leaves it unused (R131). -/
def opArg (i : Instr) : Word :=
  match i with
  | .resolve bitrate => bitrate
  | .setBitRate bitrate => bitrate
  | .start arg => arg
  | .timerFire arg => arg
  | .drain budget => budget
  | .stop arg => arg
  | .readStatus => 0
  | .readFrame => 0
  | .writeTiming => 0
  | .pulseReset => 0
  | .captureBase => 0
  | .toAbsolute => 0
  | .decode => 0
  | .logThrottled => 0
  | .checkStatus => 0

/-- The request word of an operation (R131). -/
def encode (i : Instr) : PortWord := makeWord (opTag i) (opArg i)

/-- `up`, `on_interface_up()` (R146). -/
def requestUp : PortWord := encode (.start 0)

/-- `down`, `on_interface_down()` (R146). -/
def requestDown : PortWord := encode (.stop 0)

/-- `tick`; it appears in traces, never at the request port (R146). -/
def requestTick : PortWord := encode (.timerFire 0)

/-- `set_bit_rate b` (R145). -/
def requestSetBitRate (bitrate : Word) : PortWord := encode (.setBitRate bitrate)

/-- `drain b` (R145). -/
def requestDrain (budget : Word) : PortWord := encode (.drain budget)

/-- The line a request or the timer's event has in a trace (R145); internal operations have none of their own. -/
def requestLine (i : Instr) : Option String :=
  match i with
  | .setBitRate bitrate => some ("set_bit_rate " ++ toString bitrate.toNat)
  | .start _ => some "up"
  | .timerFire _ => some "tick"
  | .drain budget => some ("drain " ++ toString budget.toNat)
  | .stop _ => some "down"
  | .readStatus => none
  | .readFrame => none
  | .writeTiming => none
  | .pulseReset => none
  | .captureBase => none
  | .toAbsolute => none
  | .decode => none
  | .resolve _ => none
  | .logThrottled => none
  | .checkStatus => none

/-- The `mask` of an operation's row in opcode_table.json: the bits that tell it apart (R134). -/
def rowMask (i : Instr) : PortWord :=
  match i with
  | .start _ => 0xFFFFFFFFFF
  | .timerFire _ => 0xFFFFFFFFFF
  | .stop _ => 0xFFFFFFFFFF
  | .readStatus => 0xFF00000000
  | .readFrame => 0xFF00000000
  | .writeTiming => 0xFF00000000
  | .pulseReset => 0xFF00000000
  | .captureBase => 0xFF00000000
  | .toAbsolute => 0xFF00000000
  | .decode => 0xFF00000000
  | .resolve _ => 0xFF00000000
  | .setBitRate _ => 0xFF00000000
  | .logThrottled => 0xFF00000000
  | .checkStatus => 0xFF00000000
  | .drain _ => 0xFF00000000

/-- The word an instruction of `nbits` bits `w` is stored as: bits above `nbits` are 0, and an instruction has 40
bits (R142). -/
def tableWord (nbits w : Nat) : PortWord := BitVec.ofNat 40 (w % 2 ^ nbits)

/-- What the decoder reads from a row of spec/opcode_table.json, bits numbered as the table numbers them. -/
def decodeTableWord (nbits w : Nat) : Option Instr :=
  match decode (tableWord nbits w) with
  | .ok i => some i
  | .error _ => none

end Sys2Proof
end

