-- ==== Sys2Proof/Config.lean ====
section
/-!
DEFINITION. What the spec leaves open and gives no default for: the draws of the environment (00_scope.md R11
"draw", 93_implementation_defined.md U28) and the OPEN parameters without a default (00_scope.md R8).  Each is an
opaque constant without a body: every theorem holds for every value of it.  A draw is applied to `State.draws`, a
counter the step advances, so that two draws of one run are unrelated.
The types of the replaceable parameters (R8) stand here too, their defaults and constraints in
Machine/Layout.lean.
-/

namespace Sys2Proof

/-- What a register read answers when the environment fixes no answer (R16, R75, R79; log 2). -/
opaque Config.freeWord : Nat → Word

/-- A reading of `wall_clock_now` in nanoseconds (R171; log 3). -/
opaque Config.freeWall : Nat → Time

/-- A reading of `monotonic_now` in nanoseconds (R171; log 3). -/
opaque Config.freeMono : Nat → Time

/-- An answer `alloc_ok` of the environment (R240; log 4). -/
opaque Config.freeAlloc : Nat → Bool

/-- The microsecond counter after a reset pulse of the reference peripheral (R82, U18; log 5). -/
opaque Config.freeMicros : Nat → Time

/-- The number of words below the register block on the bus: `REG_BASE / 4` (R8, R63; log 9). -/
opaque Config.regBaseWords : Nat

/-- The bus address of register offset 0x00, a multiple of 4 (`REG_BASE`, R60, R63; log 9). -/
def Config.regBase : Nat := 4 * Config.regBaseWords

/-- Any 64-bit number; `Config.pollInterval` makes it positive (log 9). -/
opaque Config.pollIntervalSeed : Time

/-- `POLL_INTERVAL_NS`, any positive u64, the same at every arming (R8, R235, R331; log 9). -/
def Config.pollInterval : Time :=
  if Config.pollIntervalSeed = 0 then 1 else Config.pollIntervalSeed

/-- Any 16-bit number; `Config.fifoDepth` makes it positive (log 8). -/
opaque Config.fifoDepthSeed : BitVec 16

/-- `FIFO_DEPTH`, any value 1..65535 (R8; log 8). -/
def Config.fifoDepth : BitVec 16 :=
  if Config.fifoDepthSeed = 0 then 1 else Config.fifoDepthSeed

/-- Any six numbers: candidates for the write-side offsets, `WriteReg.offset` takes them when they are admissible
(log 28). -/
opaque Config.writeOffsetSeed : Nat → Nat

/-- The bit positions of the fields inside the registers (`LAYOUT`, R8, R102): the place of each field's lowest bit.
The widths are fixed (R102), so a position is a number that leaves the field room in 32 bits.  Fields of 32 bits
(`error_status` and the halves of the timestamp and of the data, R104, R107, R108, R112, R113) have one place only
and do not appear here. -/
structure Layout where
  bufferUsage    : Fin 17   -- 16 bits of buffer-status, R103
  missedCount    : Fin 2    -- 31 bits of missed-status, R105
  missedOverflow : Fin 32   -- 1 bit of missed-status, R105
  stuff          : Fin 32   -- 1 bit of frame-type, R106
  form           : Fin 32   -- 1 bit of frame-type, R106
  sample         : Fin 32   -- 1 bit of frame-type, R106
  crcErr         : Fin 32   -- 1 bit of frame-type, R106
  frameType      : Fin 25   -- 8 bits of frame-type, R106
  ident          : Fin 4    -- 29 bits of can-id, R109
  rtr            : Fin 32   -- 1 bit of can-id, R109
  eff            : Fin 32   -- 1 bit of can-id, R109
  err            : Fin 32   -- 1 bit of can-id, R109
  dlc            : Fin 29   -- 4 bits of dlc, R110
  crc            : Fin 18   -- 15 bits of crc, R111
  syncSeg        : Fin 25   -- 8 bits of sync-seg, R114
  propSeg        : Fin 25   -- 8 bits of prop-seg, R114
  phaseSeg1      : Fin 25   -- 8 bits of phase-seg1, R114
  phaseSeg2      : Fin 25   -- 8 bits of phase-seg2, R114
  prescaler      : Fin 25   -- 8 bits of prescaler, R114
  strobe         : Fin 32   -- 1 bit of reset-strobe, R114
  deriving DecidableEq, Repr, Inhabited

/-- One value for each of the four protocol-error kinds (R125). -/
structure PerKind (α : Type) where
  stuff : α
  form  : α
  ack   : α
  crc   : α
  deriving DecidableEq, Repr, Inhabited

/-- The parameters the spec gives a value and leaves open to replace (R8, U19, U25; log 28). -/
structure Params where
  layout       : Layout            -- `LAYOUT`
  payloadFill  : Byte              -- `PAYLOAD_FILL`
  errRecordAll : Bool              -- `ERR_RECORD_ALL`
  errPos       : PerKind (Fin 8)   -- `ERR_POS`, an index of the 8-byte error payload
  errVal       : PerKind Byte      -- `ERR_VAL`
  deriving DecidableEq, Repr, Inhabited

/-- Any parameters: `Config.params` of Machine/Layout.lean takes them when they are admissible (log 28). -/
opaque Config.paramsSeed : Params

end Sys2Proof
end

