-- ==== Sys2Proof/Machine/Layout.lean ====
section
/-!
DEFINITION. The replaceable parameters of 00_scope.md R8 (30_encoding.md R100, R102): what the spec requires of them,
the spec's own values, and the two operations on a field of a register word that everything else uses.  Log 28.
-/

namespace Sys2Proof

/-- The field of `width` bits at `position` of a register word; the other bits are masked away (R102). -/
def fieldAt (position width : Nat) (w : Word) : BitVec width := w.extractLsb' position width

/-- The register word with this field at `position` and 0 in every other bit (R102: reserved bits written 0). -/
def fieldWord {width : Nat} (position : Nat) (v : BitVec width) : Word := v.setWidth 32 <<< position

/-- No two of these fields, given as position and width, share a bit. -/
def disjointFields (fields : List (Nat × Nat)) : Bool :=
  decide (fields.Pairwise fun f g => f.1 + f.2 ≤ g.1 ∨ g.1 + g.2 ≤ f.1)

/-- A layout is admissible when the fields of one register share no bit; that each fits in 32 bits is in its type
(R102, R105, R106, R109). -/
def admissibleLayout (lay : Layout) : Bool :=
  disjointFields [(lay.missedCount, 31), (lay.missedOverflow, 1)]
    && disjointFields [(lay.stuff, 1), (lay.form, 1), (lay.sample, 1), (lay.crcErr, 1), (lay.frameType, 8)]
    && disjointFields [(lay.ident, 29), (lay.rtr, 1), (lay.eff, 1), (lay.err, 1)]

/-- The four values in the order of the kinds (R124). -/
def PerKind.toList {α : Type} (m : PerKind α) : List α := [m.stuff, m.form, m.ack, m.crc]

/-- Parameters are admissible when the layout is, "`ERR_POS` is injective and every `ERR_VAL` is nonzero" (R125). -/
def admissibleParams (p : Params) : Bool :=
  admissibleLayout p.layout && decide p.errPos.toList.Nodup && p.errVal.toList.all (fun v => v != 0)

/-- The default `LAYOUT`: fields packed from bit 0 upward (R102 to R114, D3). -/
def Layout.default : Layout where
  bufferUsage    := 0
  missedCount    := 0
  missedOverflow := 31
  stuff          := 0
  form           := 1
  sample         := 2
  crcErr         := 3
  frameType      := 4
  ident          := 0
  rtr            := 29
  eff            := 30
  err            := 31
  dlc            := 0
  crc            := 0
  syncSeg        := 0
  propSeg        := 0
  phaseSeg1      := 0
  phaseSeg2      := 0
  prescaler      := 0
  strobe         := 0

/-- The spec's own values of the replaceable parameters (R8, D3, D14, D16). -/
def Params.default : Params where
  layout       := Layout.default
  payloadFill  := 0x00
  errRecordAll := true
  errPos       := ⟨0, 1, 2, 3⟩
  errVal       := ⟨0x01, 0x01, 0x01, 0x01⟩

/-- The parameters of this machine: any admissible ones; inadmissible ones are replaced by the spec's own values, so
that every value of the constant is a lawful choice (R8, U25; log 28). -/
def Config.params : Params :=
  if admissibleParams Config.paramsSeed then Config.paramsSeed else Params.default

end Sys2Proof
end

