-- ==== Sys2Proof/Machine/State.lean ====
section
/-!
DEFINITION. The state of the machine as plain data: the block state of 10_state.md R20, the shared lock, the
peripheral as 20_memory.md section 5 describes it, and the model's own ports, inputs and observation traces
(00_scope.md R18; INVENTORY.md, heading State, lists every field with its rule and reset value).
-/

namespace Sys2Proof.Machine

/-- The state of the Poll Scheduler (R30).  The spec's code 3 is "never produced" (R30, U23): no value stands for
it (log 32). -/
inductive Mode where
  | stopped
  | armed
  | draining
  deriving DecidableEq, Repr

/-- Who may hold the register-block lock (R38, R70): the block, or another bus master. -/
inductive Agent where
  | block
  | other (n : Nat)
  deriving DecidableEq, Repr

/-- The one lock of the register block (R38). -/
inductive Lock where
  | free
  | held (a : Agent)
  deriving DecidableEq, Repr

/-- TimingParameters (R37). -/
structure Timing where
  syncSeg   : Byte
  propSeg   : Byte
  phaseSeg1 : Byte
  phaseSeg2 : Byte
  brp       : Byte
  deriving DecidableEq, Repr

/-- The snapshot holding registers SR[0] to SR[10], in this order (R21). -/
structure Snapshot where
  bufferStatus  : Word
  errorStatus   : Word
  missedStatus  : Word
  frameType     : Word
  timestampLow  : Word
  timestampHigh : Word
  canId         : Word
  dlc           : Word
  crc           : Word
  dataLow       : Word
  dataHigh      : Word
  deriving DecidableEq, Repr

/-- The eleven read-side registers (R40, R101). -/
inductive ReadReg where
  | bufferStatus
  | errorStatus
  | missedStatus
  | frameType
  | timestampLow
  | timestampHigh
  | canId
  | dlc
  | crc
  | dataLow
  | dataHigh
  deriving DecidableEq, Repr

/-- The six write-side registers (R41, R101). -/
inductive WriteReg where
  | syncSeg
  | propSeg
  | phaseSeg1
  | phaseSeg2
  | prescaler
  | resetStrobe
  deriving DecidableEq, Repr

/-- An event of the block's bus trace (R18 (a)).  An access names its register; its bus address is
`ReadReg.address`, `WriteReg.address` of Machine/Params.lean. -/
inductive BusEvent where
  | acquire
  | release
  | barrier
  | read (r : ReadReg) (v : Word)
  | write (r : WriteReg) (v : Word)
  deriving DecidableEq, Repr

/-- The four protocol-error kinds, highest priority first (R124, R183). -/
inductive ProtocolKind where
  | stuff
  | form
  | ack
  | crc
  deriving DecidableEq, Repr

/-- The categories of a log report (R133). -/
inductive LogCategory where
  | protocol (k : ProtocolKind)
  | missed
  | missedOverflow
  | peripheral
  deriving DecidableEq, Repr

/-- Eight payload bytes, index 0 to 7 (R121, R124). -/
structure Payload where
  b0 : Byte
  b1 : Byte
  b2 : Byte
  b3 : Byte
  b4 : Byte
  b5 : Byte
  b6 : Byte
  b7 : Byte
  deriving DecidableEq, Repr

/-- A classic CAN frame (R121 to R123). -/
structure Frame where
  id        : BitVec 32
  flags     : BitVec 3
  dlc       : BitVec 4
  payload   : Payload
  timestamp : Time
  deriving DecidableEq, Repr

/-- A CAN error event (R124). -/
structure ErrorEvent where
  marker    : Bool
  subcode   : BitVec 2
  kindFlags : BitVec 4
  payload   : Payload
  timestamp : Time
  deriving DecidableEq, Repr

/-- What the decoder makes of one snapshot (R120). -/
inductive DecodedEvent where
  | frame (f : Frame)
  | error (e : ErrorEvent)
  deriving DecidableEq, Repr

/-- An event of the output trace (R262). -/
inductive OutEvent where
  | deliver (ev : DecodedEvent)
  | recordStats (bytes : Word)
  | recordError
  | recordMissed (count : Word) (overflow : Bool)
  | log (category : LogCategory)
  | pollRequest
  deriving DecidableEq, Repr

/-- The six exceptions with what each records (R281). -/
inductive Exception where
  | unsupported (bitrate : Word)
  | protocolError (subcode : BitVec 2) (kindFlags : BitVec 4)
  | missedFrames (count : BitVec 31) (overflow : Bool)
  | allocationFailure
  | peripheralError (errorStatus : Word)
  | startFailed
  deriving DecidableEq, Repr

/-- One entry of the peripheral's FIFO: the words its per-entry registers show (R76). -/
structure Entry where
  ft   : Word
  ts   : Time
  idw  : Word
  dlcw : Word
  crcw : Word
  dlo  : Word
  dhi  : Word
  deriving DecidableEq, Repr

/-- Where the answers to register reads come from (R75): any values at all, or the reference peripheral. -/
inductive ReadSource where
  | arbitrary
  | reference
  deriving DecidableEq, Repr

/-- The peripheral on the far side of the register block (R41, R76).  `regs` and `latched` are kept under either
source (log 25); the other fields have a meaning under `reference`. -/
structure Peripheral where
  source    : ReadSource
  depth     : BitVec 16
  fifo      : List Entry
  missed    : BitVec 31
  missedOvf : Bool
  errst     : Word
  hwUs      : Time
  regs      : Timing
  strobe    : Bool
  latched   : Timing
  deriving DecidableEq, Repr

/-- One sampling of the two clock inputs (R171), nanoseconds. -/
structure ClockReading where
  wall : Time
  mono : Time
  deriving DecidableEq, Repr

/-- A move of the environment: a collaborator's request (R261), the vectors' `env` lines (R145), a step of the
peripheral (R77), or another bus master's move on the lock and the register block (R70, R81, R266). -/
inductive EnvStep where
  | request (w : PortWord)
  | clock (c : Option ClockReading)
  | alloc (ok : Bool)
  | answer (v : Word)
  | arrive (e : Entry)
  | tickUs (n : Time)
  | status (v : Word)
  | statusLine (err : Word) (missed : BitVec 31) (overflow : Bool)
  | take (n : Nat)
  | free (n : Nat)
  | foreignRead (n : Nat) (r : ReadReg)
  | foreignWrite (n : Nat) (r : WriteReg) (v : Word)
  deriving DecidableEq, Repr

/-- Who moves next: the environment, the backoff timer (it fires now, R235, R292), or the block. -/
inductive Turn where
  | env (e : EnvStep)
  | timer
  | block
  deriving DecidableEq, Repr

/-- How a word reaches the block (R131, R134, R140): at the request port, from the timer, or from another
operation of the block. -/
inductive Via where
  | port
  | timer
  | internal
  deriving DecidableEq, Repr

/-- A word waiting to be served (R261). -/
structure Call where
  via  : Via
  word : PortWord
  deriving DecidableEq, Repr

/-- Operands of an internal operation that its caller computes and the request word does not carry (R131; log 16). -/
structure CallArgs where
  timing   : Timing
  hwUs     : Time
  category : LogCategory
  deriving DecidableEq, Repr

/-- What an internal operation invoked on its own returned (R18 (c); log 16). -/
inductive RetVal where
  | none
  | time (t : Time)
  | event (ev : DecodedEvent)
  | timing (tp : Timing)
  | unsupported
  | logged (emitted : Bool)
  deriving DecidableEq, Repr

/-- Why a request, a word or an access was turned away without any effect (R12, R231, R140): the marks of a run
that the spec calls refused (93_implementation_defined.md `refuse`; log 19). -/
inductive Rejection where
  | outsideMode         -- SET_BIT_RATE, START, DRAIN, STOP outside their mode (R231, U12)
  | notIssuable         -- a word not issued this way: format I or TIMER_FIRE at the request port (R140, U13)
  | unassignedTag       -- `op` is none of the 15 tags (R140, U13)
  | nonzeroArg          -- a format N word with `arg` other than 0 (R140, U13)
  | timerNotPending     -- TIMER_FIRE without a pending timer, which "cannot occur" (R231; log 27)
  | accessWithoutLock   -- another master's access outside its lock hold (U2, R71)
  | strobeProtocol      -- another master's write to reset-strobe that is not the next of a pulse (U21, R82)
  deriving DecidableEq, Repr

/-- The state of the machine.  `params` holds the replaceable parameters of R8: no step changes them, and they stand
here so that a statement can range over every choice of them (log 28). -/
structure State where
  snap             : Snapshot
  srValid          : BitVec 11
  timing           : Timing
  bitrateConfigured : Bool
  base             : Time
  baseValid        : Bool
  mode             : Mode
  schedBusy        : Bool
  budgetRemaining  : Word
  drained          : Word
  timerArmed       : Bool
  timerDeadline    : Time
  lastLogValid     : Bool
  lastLogTime      : Time
  lock             : Lock
  periph           : Peripheral
  inbox            : List Call
  args             : CallArgs
  ret              : RetVal
  agenda           : List Turn
  clock            : Option ClockReading
  allocs           : List Bool
  reads            : List Word
  draws            : Nat
  bus              : List BusEvent
  out              : List OutEvent
  responses        : List PortWord
  raised           : List Exception
  rejections       : List Rejection
  params           : Params
  deriving DecidableEq, Repr

/-- Why a run stops with a fault. -/
inductive Fault where
  /-- Raised by DECODE and CHECK_STATUS: a read of SR[i] whose valid bit is 0 "has no value: a model faults on it"
  (R22, U14).  Safe: the model stops. -/
  | snapshotInvalid (r : ReadReg)
  /-- Raised by TO_ABSOLUTE and DECODE: "if base_valid = 0 then fault" (R173, R36, U14).  Safe: the model stops. -/
  | baseInvalid
  /-- Raised by `acquire`: the lock is held and no later move of `agenda` frees it, so the block is stuck at
  Acquire (U27, R70; log 12).  Safe: the model stops. -/
  | lockStarved
  deriving DecidableEq, Repr

/-- Why a run stops without a meaning for what was asked. -/
inductive Refusal where
  /-- Raised by an arm of `exec` whose instruction has no meaning yet; no arm of this model does.  Safe: the model
  stops. -/
  | notModelled (mnemonic : String)
  deriving DecidableEq, Repr

/-- A record of five zero parameters: the reset value chosen where the spec gives none (log 1, log 7). -/
def Timing.zero : Timing := ⟨0, 0, 0, 0, 0⟩

/-- Eleven zero words: the reset value chosen where the spec gives none (log 1). -/
def Snapshot.zero : Snapshot := ⟨0, 0, 0, 0, 0, 0, 0, 0, 0, 0, 0⟩

/-- The peripheral at power-on: nothing is stated of it (R47, R312, U18), so reads are unconstrained (log 6) and
its own registers hold the values of log 7. -/
def Peripheral.reset : Peripheral where
  source    := .arbitrary
  depth     := Config.fifoDepth
  fifo      := []
  missed    := 0
  missedOvf := false
  errst     := 0
  hwUs      := 0
  regs      := Timing.zero
  strobe    := false
  latched   := Timing.zero

/-- The machine right after power-on reset (R47, R310); the registers R47 leaves unspecified hold 0 (log 1). -/
def State.reset : State where
  snap              := Snapshot.zero
  srValid           := 0
  timing            := Timing.zero
  bitrateConfigured := false
  base              := 0
  baseValid         := false
  mode              := .stopped
  schedBusy         := false
  budgetRemaining   := 0
  drained           := 0
  timerArmed        := false
  timerDeadline     := 0
  lastLogValid      := false
  lastLogTime       := 0
  lock              := .free
  periph            := Peripheral.reset
  inbox             := []
  args              := ⟨Timing.zero, 0, .protocol .stuff⟩
  ret               := .none
  agenda            := []
  clock             := none
  allocs            := []
  reads             := []
  draws             := 0
  bus               := []
  out               := []
  responses         := []
  raised            := []
  rejections        := []
  params            := Config.params

end Sys2Proof.Machine
end

