-- ==== Sys2Proof/Machine/Params.lean ====
section
/-!
DEFINITION. The register offsets (the write-side ones are OPEN), the fixed parameters of 00_scope.md R8 and the words
written to reset-strobe.  The replaceable parameters (`LAYOUT`, `PAYLOAD_FILL`, `ERR_*`) stand in Machine/Layout.lean,
the operation tags in Machine/Tags.lean.  Log 28.
-/

namespace Sys2Proof.Machine

/-- The byte offset of a read-side register (R101: fixed, "bit-exact, must match hardware"). -/
def ReadReg.offset (r : ReadReg) : Nat :=
  match r with
  | .bufferStatus => 0x00
  | .errorStatus => 0x04
  | .missedStatus => 0x08
  | .frameType => 0x0C
  | .timestampLow => 0x10
  | .timestampHigh => 0x14
  | .canId => 0x18
  | .dlc => 0x1C
  | .crc => 0x20
  | .dataLow => 0x24
  | .dataHigh => 0x28

/-- The place of a write-side register in the list of R101. -/
def WriteReg.number (r : WriteReg) : Nat :=
  match r with
  | .syncSeg => 0
  | .propSeg => 1
  | .phaseSeg1 => 2
  | .phaseSeg2 => 3
  | .prescaler => 4
  | .resetStrobe => 5

/-- The default of `OFF_SYNC_SEG` to `OFF_RESET` (R101, D2). -/
def WriteReg.defaultOffset (r : WriteReg) : Nat :=
  match r with
  | .syncSeg => 0x2C
  | .propSeg => 0x30
  | .phaseSeg1 => 0x34
  | .phaseSeg2 => 0x38
  | .prescaler => 0x3C
  | .resetStrobe => 0x40

/-- The read-side registers in ascending order of offset (R101). -/
def allReadRegs : List ReadReg :=
  [.bufferStatus, .errorStatus, .missedStatus, .frameType, .timestampLow, .timestampHigh, .canId, .dlc, .crc,
   .dataLow, .dataHigh]

/-- The write-side registers in the order of R101. -/
def allWriteRegs : List WriteReg := [.syncSeg, .propSeg, .phaseSeg1, .phaseSeg2, .prescaler, .resetStrobe]

/-- Six write-side offsets are admissible: "distinct multiples of 4 and distinct from the eleven read-side offsets"
(R101, D2). -/
def admissibleOffsets (off : WriteReg → Nat) : Bool :=
  allWriteRegs.all fun r =>
    off r % 4 == 0 && allReadRegs.all (fun q => q.offset != off r)
      && allWriteRegs.all (fun q => q == r || off q != off r)

/-- The byte offset of a write-side register: OPEN, any admissible choice (R8, R101, D2, U25); an inadmissible one is
replaced by the defaults, so that every value of the constant is a lawful choice (log 28). -/
def WriteReg.offset (r : WriteReg) : Nat :=
  if admissibleOffsets (fun q => Config.writeOffsetSeed q.number) then Config.writeOffsetSeed r.number
  else r.defaultOffset

/-- The bus address an access to a read-side register drives: `REG_BASE + off` (R11, R60). -/
def ReadReg.address (r : ReadReg) : Nat := Config.regBase + r.offset

/-- The bus address an access to a write-side register drives: `REG_BASE + off` (R11, R60). -/
def WriteReg.address (r : WriteReg) : Nat := Config.regBase + r.offset

/-- `COOLDOWN_NS`: 15 s (R8, R330). -/
def cooldownNs : Time := 15000000000

/-- Nanoseconds in a microsecond, the factor of `to_absolute` (R173). -/
def nsPerMicro : Time := 1000

/-- The value a per-kind parameter has for a kind (R125). -/
def valueFor {α : Type} (m : PerKind α) (k : ProtocolKind) : α :=
  match k with
  | .stuff => m.stuff
  | .form => m.form
  | .ack => m.ack
  | .crc => m.crc

/-- `SYNC_SEG` (R8, R201). -/
def syncSegFixed : Byte := 1

/-- The word written to reset-strobe to assert: 1 in the strobe bit (R114, R156, D22). -/
def strobeAssert (lay : Layout) : Word := fieldWord lay.strobe 1#1

/-- The word written to reset-strobe to de-assert: 0 in the strobe bit (R114, R156, D22). -/
def strobeDeassert (lay : Layout) : Word := fieldWord lay.strobe 0#1

end Sys2Proof.Machine
end

