-- ==== Sys2Proof/Machine/Operands.lean ====
section
/-!
DEFINITION. Every operand form of the block: the fields of the register words (30_encoding.md R103 to R114, at the
positions of a `LAYOUT`), the operands assembled from them (R115 to R118), the byte order of the payload (20_memory.md
R62), the index of each holding register (10_state.md R21) and the numeric codes of the encoded values (R124,
R130 to R133, R281).
-/

namespace Sys2Proof.Machine

/-- The index i of the holding register SR[i] a read-side register is read into (R21). -/
def ReadReg.index (r : ReadReg) : Nat :=
  match r with
  | .bufferStatus => 0
  | .errorStatus => 1
  | .missedStatus => 2
  | .frameType => 3
  | .timestampLow => 4
  | .timestampHigh => 5
  | .canId => 6
  | .dlc => 7
  | .crc => 8
  | .dataLow => 9
  | .dataHigh => 10

/-- `SR[i]` (R11, R21). -/
def Snapshot.get (r : ReadReg) (sr : Snapshot) : Word :=
  match r with
  | .bufferStatus => sr.bufferStatus
  | .errorStatus => sr.errorStatus
  | .missedStatus => sr.missedStatus
  | .frameType => sr.frameType
  | .timestampLow => sr.timestampLow
  | .timestampHigh => sr.timestampHigh
  | .canId => sr.canId
  | .dlc => sr.dlc
  | .crc => sr.crc
  | .dataLow => sr.dataLow
  | .dataHigh => sr.dataHigh

/-- `SR[i] <- v` (R11, R21). -/
def Snapshot.put (r : ReadReg) (v : Word) (sr : Snapshot) : Snapshot :=
  match r with
  | .bufferStatus => { sr with bufferStatus := v }
  | .errorStatus => { sr with errorStatus := v }
  | .missedStatus => { sr with missedStatus := v }
  | .frameType => { sr with frameType := v }
  | .timestampLow => { sr with timestampLow := v }
  | .timestampHigh => { sr with timestampHigh := v }
  | .canId => { sr with canId := v }
  | .dlc => { sr with dlc := v }
  | .crc => { sr with crc := v }
  | .dataLow => { sr with dataLow := v }
  | .dataHigh => { sr with dataHigh := v }

/-- `buffer_usage`, 16 bits of buffer-status (R103). -/
def bufferUsage (lay : Layout) (w : Word) : BitVec 16 := fieldAt lay.bufferUsage 16 w

/-- `missed_count`, 31 bits of missed-status (R105). -/
def missedCount (lay : Layout) (w : Word) : BitVec 31 := fieldAt lay.missedCount 31 w

/-- `missed_overflow`, one bit of missed-status (R105). -/
def missedOverflow (lay : Layout) (w : Word) : Bool := w.getLsbD lay.missedOverflow

/-- The missed-status word with this count and overflow bit (R80, R105). -/
def missedStatusWord (lay : Layout) (count : BitVec 31) (overflow : Bool) : Word :=
  fieldWord lay.missedCount count ||| fieldWord lay.missedOverflow (BitVec.ofBool overflow)

/-- The buffer-status word with this occupancy (R80, R103). -/
def bufferStatusWord (lay : Layout) (occupancy : Nat) : Word :=
  fieldWord lay.bufferUsage (BitVec.ofNat 16 occupancy)

/-- `frame_type`, 8 bits of frame-type; ignored by every operation (R106, R189). -/
def frameTypeCode (lay : Layout) (w : Word) : BitVec 8 := fieldAt lay.frameType 8 w

/-- The flag of a protocol-error kind: `stuff`, `form`, `sample`, `crc_err`, one bit each of frame-type (R106). -/
def kindFlag (lay : Layout) (k : ProtocolKind) (w : Word) : Bool :=
  match k with
  | .stuff => w.getLsbD lay.stuff
  | .form => w.getLsbD lay.form
  | .ack => w.getLsbD lay.sample
  | .crc => w.getLsbD lay.crcErr

/-- `id`, 29 bits of can-id (R109). -/
def idField (lay : Layout) (w : Word) : BitVec 29 := fieldAt lay.ident 29 w

/-- `rtr`, one bit of can-id (R109). -/
def rtrFlag (lay : Layout) (w : Word) : Bool := w.getLsbD lay.rtr

/-- `eff`, one bit of can-id (R109). -/
def effFlag (lay : Layout) (w : Word) : Bool := w.getLsbD lay.eff

/-- `err`, one bit of can-id (R109). -/
def errFlag (lay : Layout) (w : Word) : Bool := w.getLsbD lay.err

/-- `dlc`, 4 bits of the dlc register, used as read (R110, R118, R187). -/
def dlcField (lay : Layout) (w : Word) : BitVec 4 := fieldAt lay.dlc 4 w

/-- `crc`, 15 bits of the crc register; used for nothing (R111). -/
def crcField (lay : Layout) (w : Word) : BitVec 15 := fieldAt lay.crc 15 w

/-- The 64-bit microsecond timestamp, timestamp-high above timestamp-low (R115). -/
def snapTimestamp (sr : Snapshot) : Time := sr.timestampHigh ++ sr.timestampLow

/-- The identifier operand: the 29-bit `id` field when `eff`, else its low 11 bits, zero-extended (R117, R109). -/
def identOperand (lay : Layout) (w : Word) : Word :=
  if effFlag lay w then (idField lay w).setWidth 32 else ((idField lay w).setWidth 11).setWidth 32

/-- A flag placed at a bit position of `Frame.id` (R122). -/
def flagAt (b : Bool) (position : Nat) : Word := if b then 1#32 <<< position else 0

/-- The `Frame.id` word: the identifier operand with `eff`, `rtr`, `err` in bits 31, 30, 29 (R122, R186). -/
def frameId (lay : Layout) (w : Word) : BitVec 32 :=
  identOperand lay w ||| flagAt (effFlag lay w) 31 ||| flagAt (rtrFlag lay w) 30 ||| flagAt (errFlag lay w) 29

/-- `Frame.flags`: the copy of `Frame.id[31:29]` (R123). -/
def frameFlags (id : BitVec 32) : BitVec 3 := id.extractLsb' 29 3

/-- Byte i of `be_bytes32`: i = 0 is the most significant byte of the word (R11, R62). -/
def beByte (x : Word) (i : Nat) : Byte := x.extractLsb' (24 - 8 * i) 8

/-- `be_bytes32`: the four bytes of a word, most significant first (R11, R62). -/
def beBytes32 (x : Word) : List Byte := [beByte x 0, beByte x 1, beByte x 2, beByte x 3]

/-- `swap32`: the word with its bytes in reverse order (R11). -/
def swap32 (x : Word) : Word := beByte x 3 ++ beByte x 2 ++ beByte x 1 ++ beByte x 0

/-- The payload whose byte i is `f i`. -/
def payloadOf (f : Nat → Byte) : Payload := ⟨f 0, f 1, f 2, f 3, f 4, f 5, f 6, f 7⟩

/-- Byte i of a payload, index 0 to 7 (R121). -/
def Payload.get (p : Payload) (i : Fin 8) : Byte :=
  match i with
  | 0 => p.b0
  | 1 => p.b1
  | 2 => p.b2
  | 3 => p.b3
  | 4 => p.b4
  | 5 => p.b5
  | 6 => p.b6
  | 7 => p.b7

/-- Byte i of a data frame's payload: for dlc <= 4 the first dlc bytes come from data-low, the rest is `PAYLOAD_FILL`;
for dlc > 4 bytes 0 to 3 come from data-high and 4 to 7 from data-low (R188). -/
def framePayloadByte (fill : Byte) (dlc : BitVec 4) (lo hi : Word) (i : Nat) : Byte :=
  if dlc ≤ 4 then
    if i < dlc.toNat then beByte lo i else fill
  else if i < 4 then beByte hi i else beByte lo (i - 4)

/-- The payload of a data frame (R188). -/
def framePayload (fill : Byte) (dlc : BitVec 4) (lo hi : Word) : Payload :=
  payloadOf (framePayloadByte fill dlc lo hi)

/-- The encoding of `mode` in two bits (R30, D34). -/
def Mode.code (m : Mode) : BitVec 2 :=
  match m with
  | .stopped => 0
  | .armed => 1
  | .draining => 2

/-- `subcode`: STUFF 0, FORM 1, ACK 2, CRC 3 (R124). -/
def ProtocolKind.code (k : ProtocolKind) : BitVec 2 :=
  match k with
  | .stuff => 0
  | .form => 1
  | .ack => 2
  | .crc => 3

/-- The kind a `subcode` stands for (R124). -/
def kindOfCode (c : BitVec 2) : ProtocolKind :=
  match c.toNat with
  | 0 => .stuff
  | 1 => .form
  | 2 => .ack
  | _ => .crc

/-- The four kinds in priority order (R124, R183). -/
def allKinds : List ProtocolKind := [.stuff, .form, .ack, .crc]

/-- The log category codes 0 to 6 (R133). -/
def LogCategory.code (c : LogCategory) : BitVec 8 :=
  match c with
  | .protocol k => k.code.setWidth 8
  | .missed => 4
  | .missedOverflow => 5
  | .peripheral => 6

/-- The explicit tag of a DecodedEvent: 0 Frame, 1 ErrorEvent (R120). -/
def DecodedEvent.tag (ev : DecodedEvent) : BitVec 1 :=
  match ev with
  | .frame _ => 0
  | .error _ => 1

/-- The cause codes of the exceptions (R281). -/
def Exception.code (x : Exception) : BitVec 8 :=
  match x with
  | .unsupported _ => 1
  | .protocolError _ _ => 2
  | .missedFrames _ _ => 3
  | .allocationFailure => 4
  | .peripheralError _ => 5
  | .startFailed => 6

/-- The response word `status ++ value` (R132). -/
def responseWord (status : BitVec 8) (value : Word) : PortWord := status ++ value

end Sys2Proof.Machine
end

