-- ==== Sys2Proof/Machine/Flags.lean ====
section
/-!
DEFINITION. Every flag computation of the block: the protocol-error flags and their priority (43_frame_decoder.md
R182, R183), the missed-frame condition (45_error_log_throttle.md R221), the cooldown comparison (R216), the
valid bits of the holding registers (10_state.md R22) and the enabling condition of the backoff timer
(46_poll_scheduler.md R235).
-/

namespace Sys2Proof.Machine

/-- Some protocol-error flag of the frame-type word is set: the error branch of the decoder (R181). -/
def anyProtocolError (lay : Layout) (w : Word) : Bool :=
  kindFlag lay .stuff w || kindFlag lay .form w || kindFlag lay .ack w || kindFlag lay .crc w

/-- The kind the sub-code names, by priority stuff > form > ack > crc (R182, R183, R290). -/
def topKind (lay : Layout) (w : Word) : ProtocolKind :=
  if kindFlag lay .stuff w then .stuff
  else if kindFlag lay .form w then .form
  else if kindFlag lay .ack w then .ack
  else .crc

/-- The set of flags, bit 0 stuff, 1 form, 2 ack, 3 crc (R182). -/
def flagSet (lay : Layout) (w : Word) : BitVec 4 :=
  BitVec.ofBool (kindFlag lay .crc w) ++ BitVec.ofBool (kindFlag lay .ack w)
    ++ BitVec.ofBool (kindFlag lay .form w) ++ BitVec.ofBool (kindFlag lay .stuff w)

/-- `kind_flags`: all set flags, or only the selected kind (R182, `ERR_RECORD_ALL`). -/
def kindFlags (p : Params) (w : Word) : BitVec 4 :=
  if p.errRecordAll then flagSet p.layout w else 1#4 <<< (topKind p.layout w).code.toNat

/-- Byte i of the error payload: 0, then for k in 0..3 the value of a recorded kind whose position is i (R125,
R182). -/
def errorPayloadByte (p : Params) (recorded : BitVec 4) (i : Nat) : Byte :=
  allKinds.foldl (init := 0) fun b k =>
    if recorded.getLsbD k.code.toNat && (valueFor p.errPos k).val == i then valueFor p.errVal k else b

/-- The missed-frame condition: a nonzero count or the overflow bit (R221, D19). -/
def missedCondition (lay : Layout) (w : Word) : Bool := missedCount lay w != 0 || missedOverflow lay w

/-- A report may be emitted: none since START, or the window has passed (R216).  The category plays no part
(R217). -/
def windowOpen (lastValid : Bool) (last now : Time) : Bool :=
  !lastValid || decide (cooldownNs ≤ now - last)

/-- The valid bit of SR[i] (R22). -/
def srValidBit (r : ReadReg) (v : BitVec 11) : Bool := v.getLsbD r.index

/-- The valid bits READ_STATUS sets, 2:0 (R151). -/
def statusValidBits : BitVec 11 := 0b111

/-- The valid bits READ_FRAME sets: all (R153). -/
def allValidBits : BitVec 11 := 0b11111111111

/-- TIMER_FIRE is enabled: a timer is pending and no procedure runs (R235, R236). -/
def timerEnabled (s : State) : Bool := s.timerArmed && !s.schedBusy

end Sys2Proof.Machine
end

