-- ==== Sys2Proof/Machine/Ops.lean ====
section
/-!
DEFINITION. The named operations every meaning is built from: sequencing, output, the draws of the environment
(00_scope.md R11), turning a request away (R12), reporting an exception (60_exceptions.md R280, R293), the
peripheral (20_memory.md R75 to R84), the environment's moves (R70, R77, R145), the lock (R70 to R73), the register
accesses (R60, R67, R68) and holding a call (R12, R261).
-/

namespace Sys2Proof.Machine

/-- What an operation answers. -/
abbrev Answer := Host.Outcome State Fault Refusal

/-- The second operation runs on the state the first leaves; a stop of the first is the stop of both. -/
def andThen (o : Answer) (f : State → Answer) : Answer :=
  match o with
  | .next s => f s
  | .fault r => .fault r
  | .refused r => .refused r

/-! ### Output -/

/-- `emit <Event>`: append one event to the output trace (R11, R262). -/
def State.emit (e : OutEvent) (s : State) : State := { s with out := s.out ++ [e] }

/-- Append one event to the bus trace (R18). -/
def State.trace (e : BusEvent) (s : State) : State := { s with bus := s.bus ++ [e] }

/-- `respond {status, value}` (R132). -/
def State.respond (status : BitVec 8) (value : Word) (s : State) : State :=
  { s with responses := s.responses ++ [responseWord status value] }

/-- TAKING AN EXCEPTION.  `raise X(info)` reports the exception and nothing else: "Nothing is saved, no mode or
mask changes, there is no vector and no handler address" (R293); what follows is the straight-line continuation in
the raising rule, and there is no return operation (R280, R294). -/
def State.raise (x : Exception) (s : State) : State := { s with raised := s.raised ++ [x] }

/-- Refusing a request, a word or an access: no state change, no output, no response; the run is marked
(R12, R231, R140, 93_implementation_defined.md `refuse`; log 19). -/
def State.reject (r : Rejection) (s : State) : State := { s with rejections := s.rejections ++ [r] }

/-- The value an internal operation invoked on its own returns (R18 (c); log 16). -/
def State.returning (v : RetVal) (s : State) : State := { s with ret := v }

/-! ### Draws -/

/-- Both clock inputs at this moment, sampled in one step (R171): the pinned reading of an `env clock` line (R145),
else a free value (log 3). -/
def State.clockNow (s : State) : ClockReading :=
  match s.clock with
  | some c => c
  | none => ⟨Config.freeWall s.draws, Config.freeMono s.draws⟩

/-- `monotonic_now` at this moment (R171). -/
def State.monoNow (s : State) : Time := s.clockNow.mono

/-- The state after one draw of the clocks. -/
def State.afterClock (s : State) : State := { s with draws := s.draws + 1 }

/-- The next `alloc_ok`: the next `env alloc` line (R145), else a free value (R240, log 4). -/
def State.allocOk (s : State) : Bool := s.allocs.headD (Config.freeAlloc s.draws)

/-- The state after one `alloc_ok` draw. -/
def State.afterAlloc (s : State) : State := { s with allocs := s.allocs.tail, draws := s.draws + 1 }

/-! ### The peripheral -/

/-- What the reference peripheral answers to a read (R80, R81); `none` where it fixes nothing: under `arbitrary`
(R75), or a per-entry register with an empty FIFO (R79). -/
def Peripheral.answer (lay : Layout) (r : ReadReg) (p : Peripheral) : Option Word :=
  match p.source with
  | .arbitrary => none
  | .reference =>
    match r with
    | .bufferStatus => some (bufferStatusWord lay p.fifo.length)
    | .errorStatus => some p.errst
    | .missedStatus => some (missedStatusWord lay p.missed p.missedOvf)
    | .frameType => p.fifo.head?.map (fun e => e.ft)
    | .timestampLow => p.fifo.head?.map (fun e => e.ts.extractLsb' 0 32)
    | .timestampHigh => p.fifo.head?.map (fun e => e.ts.extractLsb' 32 32)
    | .canId => p.fifo.head?.map (fun e => e.idw)
    | .dlc => p.fifo.head?.map (fun e => e.dlcw)
    | .crc => p.fifo.head?.map (fun e => e.crcw)
    | .dataLow => p.fifo.head?.map (fun e => e.dlo)
    | .dataHigh => p.fifo.head?.map (fun e => e.dhi)

/-- The effect of a read on the reference peripheral: a read of data-high discards the head entry if there is one
(R78, R81); no other read changes anything. -/
def Peripheral.afterRead (r : ReadReg) (p : Peripheral) : Peripheral :=
  match p.source, r with
  | .reference, .dataHigh => { p with fifo := p.fifo.tail }
  | _, _ => p

/-- The reset pulse: the timing registers are latched; the reference peripheral also empties the FIFO, clears the
missed count, its overflow and the error status, and its microsecond counter is `micros`, a free value (R82). -/
def Peripheral.pulse (micros : Time) (p : Peripheral) : Peripheral :=
  match p.source with
  | .arbitrary => { p with latched := p.regs, strobe := false }
  | .reference =>
    { p with latched := p.regs, strobe := false, fifo := [], missed := 0, missedOvf := false, errst := 0,
             hwUs := micros }

/-- The effect of a write: a timing register stores its 8-bit field (R83, R114); 1 in the strobe bit of reset-strobe
asserts, and 0 after an assert completes the pulse (R82, R114; log 26). -/
def Peripheral.write (lay : Layout) (r : WriteReg) (v : Word) (micros : Time) (p : Peripheral) : Peripheral :=
  match r with
  | .syncSeg => { p with regs := { p.regs with syncSeg := fieldAt lay.syncSeg 8 v } }
  | .propSeg => { p with regs := { p.regs with propSeg := fieldAt lay.propSeg 8 v } }
  | .phaseSeg1 => { p with regs := { p.regs with phaseSeg1 := fieldAt lay.phaseSeg1 8 v } }
  | .phaseSeg2 => { p with regs := { p.regs with phaseSeg2 := fieldAt lay.phaseSeg2 8 v } }
  | .prescaler => { p with regs := { p.regs with brp := fieldAt lay.prescaler 8 v } }
  | .resetStrobe =>
    if v.getLsbD lay.strobe then { p with strobe := true }
    else if p.strobe then p.pulse micros
    else p

/-- `arrive(e)`: queue the entry stamped with the microsecond counter, or count it as missed; the count's carry
sets the overflow flag (R77). -/
def Peripheral.arrive (e : Entry) (p : Peripheral) : Peripheral :=
  if p.fifo.length < p.depth.toNat then { p with fifo := p.fifo ++ [{ e with ts := p.hwUs }] }
  else if p.missed = 0x7FFFFFFF then { p with missed := 0, missedOvf := true }
  else { p with missed := p.missed + 1 }

/-! ### Register accesses of the block -/

/-- The value a `RegRead` of the block returns now: the reference peripheral's answer, else the next scripted
answer, else a free value (R16, R75, R79; log 2). -/
def State.readValue (r : ReadReg) (s : State) : Word :=
  match s.periph.answer s.params.layout r with
  | some v => v
  | none => s.reads.headD (Config.freeWord s.draws)

/-- The scripted answers left after a read: one is used where the peripheral fixes no answer (log 2). -/
def State.readsLeft (r : ReadReg) (s : State) : List Word :=
  match s.periph.answer s.params.layout r with
  | some _ => s.reads
  | none => s.reads.tail

/-- `SR[i] <- RegRead(off_i)` (R11, R67): the read, its effect on the peripheral, its trace event. -/
def latch (r : ReadReg) (s : State) : State :=
  { s with
    snap   := s.snap.put r (s.readValue r)
    reads  := s.readsLeft r
    draws  := s.draws + 1
    periph := s.periph.afterRead r
    bus    := s.bus ++ [.read r (s.readValue r)] }

/-- `RegWrite(off, v)` (R11, R67): the write, its effect on the peripheral, its trace event. -/
def regWrite (r : WriteReg) (v : Word) (s : State) : State :=
  { s with
    periph := s.periph.write s.params.layout r v (Config.freeMicros s.draws)
    draws  := s.draws + 1
    bus    := s.bus ++ [.write r v] }

/-- `Barrier()`: moves no data and changes no state; kept in the bus trace (R68). -/
def barrier (s : State) : State := s.trace .barrier

/-! ### The environment's moves -/

/-- A foreign write to reset-strobe is the next write of a pulse: 1 when not asserted, 0 when asserted (R82, U21). -/
def strobeInOrder (lay : Layout) (v : Word) (p : Peripheral) : Bool :=
  (v == strobeAssert lay && !p.strobe) || (v == strobeDeassert lay && p.strobe)

/-- One move of the environment.  A move that is not enabled (taking a lock that is held, freeing one that another
agent holds) leaves the state as it is: it waits (R70; log 23).  An access without the lock has no effect but the
mark of a refused access (U2). -/
def envStep (e : EnvStep) (s : State) : State :=
  match e with
  | .request w => { s with inbox := s.inbox ++ [⟨.port, w⟩] }
  | .clock c => { s with clock := c }
  | .alloc ok => { s with allocs := s.allocs ++ [ok] }
  | .answer v => { s with reads := s.reads ++ [v] }
  | .arrive e => { s with periph := s.periph.arrive e }
  | .tickUs n => { s with periph := { s.periph with hwUs := s.periph.hwUs + n } }
  | .status v => { s with periph := { s.periph with errst := v } }
  | .statusLine err missed overflow =>
    { s with periph := { s.periph with errst := err, missed := missed, missedOvf := overflow } }
  | .take n => if s.lock = .free then { s with lock := .held (.other n) } else s
  | .free n => if s.lock = .held (.other n) then { s with lock := .free } else s
  | .foreignRead n r =>
    if s.lock = .held (.other n) then { s with periph := s.periph.afterRead r }
    else s.reject .accessWithoutLock
  | .foreignWrite n r v =>
    if s.lock = .held (.other n) then
      if r = .resetStrobe && !strobeInOrder s.params.layout v s.periph then s.reject .strobeProtocol
      else
        { s with
          periph := s.periph.write s.params.layout r v (Config.freeMicros s.draws)
          draws := s.draws + 1 }
    else s.reject .accessWithoutLock

/-! ### The lock -/

/-- The block takes the lock (R70). -/
def takeLock (rest : List Turn) (s : State) : State :=
  { s with lock := .held .block, agenda := rest, bus := s.bus ++ [.acquire] }

/-- `Acquire()` against the moves still to come: the environment's moves up to the block's next turn happen first
(the interleaving points of R72); a held lock makes the block spin until the holder releases it (R70); if no move
is left that could release it, the block is stuck (U27; log 12).  A timer turn is no move here: no timer is pending
while a procedure runs (R34). -/
def acquireFrom (agenda : List Turn) (s : State) : Answer :=
  match agenda with
  | [] => if s.lock = .free then .next (takeLock [] s) else .fault .lockStarved
  | .env e :: rest => acquireFrom rest (envStep e s)
  | .timer :: rest => acquireFrom rest s
  | .block :: rest => if s.lock = .free then .next (takeLock rest s) else acquireFrom rest s

/-- `Acquire()` (R70). -/
def acquire (s : State) : Answer := acquireFrom s.agenda s

/-- `Release()` (R70). -/
def release (s : State) : State := { s with lock := .free, bus := s.bus ++ [.release] }

/-- One lock hold: Acquire, the accesses, Release (R72, R73). -/
def withLock (accesses : State → State) (s : State) : Answer :=
  andThen (acquire s) (fun s1 => .next (release (accesses s1)))

/-! ### Holding registers, the timer, holding a call -/

/-- The first of the named holding registers whose valid bit is 0, as the fault of reading it (R22, U14). -/
def srFault (rs : List ReadReg) (s : State) : Option Fault :=
  (rs.find? (fun r => !srValidBit r s.srValid)).map Fault.snapshotInvalid

/-- Arming the backoff timer: the deadline is one interval after a drawn `monotonic_now` (R34, R235). -/
def armTimer (s : State) : State :=
  { s.afterClock with timerDeadline := s.monoNow + Config.pollInterval, timerArmed := true }

/-- A held call waits at the head of the inbox and blocks the later ones (R12, R231, R261; log 14). -/
def holdCall (via : Via) (i : Instr) (s : State) : State :=
  { s with inbox := ⟨via, encode i⟩ :: s.inbox }

end Sys2Proof.Machine
end

