-- ==== Sys2Proof/Machine/RegisterModel.lean ====
section
/-!
DEFINITION. The Register Model (41_register_model.md R150 to R157): READ_STATUS, READ_FRAME, WRITE_TIMING,
PULSE_RESET.  Each is one lock hold in program order and raises no exception (R150); no other operation touches the
bus (R157).
-/

namespace Sys2Proof.Machine

/-- The three reads of READ_STATUS, ascending offset (R151). -/
def statusReads (s : State) : State :=
  latch .missedStatus (latch .errorStatus (latch .bufferStatus s))

/-- The eight per-entry reads of READ_FRAME with the barrier before data-high (R153, R154, R69). -/
def entryReads (s : State) : State :=
  latch .dataHigh (barrier (latch .dataLow (latch .crc (latch .dlc (latch .canId
    (latch .timestampHigh (latch .timestampLow (latch .frameType s))))))))

/-- READ_STATUS (R151). -/
def readStatus (s : State) : Answer :=
  andThen (withLock statusReads s) (fun s1 => .next { s1 with srValid := s1.srValid ||| statusValidBits })

/-- READ_FRAME: all eleven registers in one hold (R153, C1). -/
def readFrame (s : State) : Answer :=
  andThen (withLock (fun s1 => entryReads (statusReads s1)) s) (fun s1 => .next { s1 with srValid := allValidBits })

/-- The five writes of WRITE_TIMING, each parameter unbiased in its field, the other bits 0 (R155, R114). -/
def timingWrites (tp : Timing) (s : State) : State :=
  let lay := s.params.layout
  regWrite .prescaler (fieldWord lay.prescaler tp.brp) (regWrite .phaseSeg2 (fieldWord lay.phaseSeg2 tp.phaseSeg2)
    (regWrite .phaseSeg1 (fieldWord lay.phaseSeg1 tp.phaseSeg1) (regWrite .propSeg (fieldWord lay.propSeg tp.propSeg)
      (regWrite .syncSeg (fieldWord lay.syncSeg tp.syncSeg) s))))

/-- WRITE_TIMING of a TimingParameters record (R155). -/
def writeTiming (tp : Timing) (s : State) : Answer := withLock (timingWrites tp) s

/-- Assert, barrier, de-assert (R156). -/
def pulseWrites (s : State) : State :=
  let lay := s.params.layout
  regWrite .resetStrobe (strobeDeassert lay) (barrier (regWrite .resetStrobe (strobeAssert lay) s))

/-- PULSE_RESET (R156). -/
def pulseReset (s : State) : Answer := withLock pulseWrites s

/-- The meaning of READ_STATUS (R151). -/
def execReadStatus (s : State) : Answer := readStatus s

/-- The meaning of READ_FRAME (R153). -/
def execReadFrame (s : State) : Answer := readFrame s

/-- The meaning of WRITE_TIMING: its operand is the timing record its caller computed (R131, R155; log 16). -/
def execWriteTiming (s : State) : Answer := writeTiming s.args.timing s

/-- The meaning of PULSE_RESET (R156). -/
def execPulseReset (s : State) : Answer := pulseReset s

end Sys2Proof.Machine
end

