-- ==== Sys2Proof/Machine/BitTiming.lean ====
section
/-!
DEFINITION. The Bit-Timing Table (44_bit_timing.md R200 to R207): RESOLVE, SET_BIT_RATE.
-/

namespace Sys2Proof.Machine

/-- The table: 500 000 and 1 000 000 bit/s (R201). -/
def timingTable (bitrate : Word) : Option Timing :=
  if bitrate = 500000 then some ⟨syncSegFixed, 5, 7, 7, 4⟩
  else if bitrate = 1000000 then some ⟨syncSegFixed, 2, 4, 3, 4⟩
  else none

/-- `valid(tp)`: TSEG1 in [1,32], TSEG2 in [1,8], BRP in [1,64], sync_seg = 1 (R203). -/
def timingValid (tp : Timing) : Bool :=
  let tseg1 := tp.propSeg.toNat + tp.phaseSeg1.toNat
  decide (1 ≤ tseg1 ∧ tseg1 ≤ 32) && decide (1 ≤ tp.phaseSeg2.toNat ∧ tp.phaseSeg2.toNat ≤ 8)
    && decide (1 ≤ tp.brp.toNat ∧ tp.brp.toNat ≤ 64) && tp.syncSeg == syncSegFixed

/-- RESOLVE: the table row of exactly this rate, validated; `none` is Unsupported (R202, R203, D36). -/
def resolveRate (bitrate : Word) : Option Timing :=
  match timingTable bitrate with
  | some tp => if timingValid tp then some tp else none
  | none => none

/-- The meaning of RESOLVE: the record or Unsupported is returned; no state is written and no register is touched
(R202); Unsupported is reported (R281; log 18). -/
def execResolve (bitrate : Word) (s : State) : Answer :=
  match resolveRate bitrate with
  | some tp => .next (s.returning (.timing tp))
  | none => .next ((s.raise (.unsupported bitrate)).returning .unsupported)

/-- The programming of a resolved record: WRITE_TIMING, PULSE_RESET, then the block's own record and response
(R204, R205). -/
def programTiming (tp : Timing) (s : State) : Answer :=
  andThen (writeTiming tp s) fun s1 =>
  andThen (pulseReset s1) fun s2 =>
  .next ({ s2 with timing := tp, bitrateConfigured := true }.respond 0 0)

/-- The meaning of SET_BIT_RATE (R204 to R207). -/
def execSetBitRate (bitrate : Word) (s : State) : Answer :=
  if s.mode = .stopped then
    match resolveRate bitrate with
    | none => .next ((s.raise (.unsupported bitrate)).respond (Exception.unsupported bitrate).code 0)
    | some tp => programTiming tp s
  else .next (s.reject .outsideMode)

end Sys2Proof.Machine
end

