-- ==== Sys2Proof/Machine/ErrorLog.lean ====
section
/-!
DEFINITION. The Error-Log Throttle (45_error_log_throttle.md R215 to R223): LOG_THROTTLED, CHECK_STATUS.
-/

namespace Sys2Proof.Machine

/-- LOG_THROTTLED emits now: no report yet, or the shared window has passed (R216, R217). -/
def logEmits (s : State) : Bool := windowOpen s.lastLogValid s.lastLogTime s.monoNow

/-- LOG_THROTTLED: one draw of the clock; an emitted report moves the window, a suppressed one changes nothing
(R216). -/
def logThrottled (category : LogCategory) (s : State) : State :=
  if logEmits s then
    { s.afterClock.emit (.log category) with lastLogTime := s.monoNow, lastLogValid := true }
  else s.afterClock

/-- The PeripheralError part of CHECK_STATUS (R221, R286): report it, log it, go on. -/
def checkPeripheral (s : State) : State :=
  if s.snap.errorStatus = 0 then s
  else logThrottled .peripheral (s.raise (.peripheralError s.snap.errorStatus))

/-- The report of a missed-frame condition in CHECK_STATUS, before the pulse (R221, R284). -/
def reportMissed (count : BitVec 31) (overflow : Bool) (s : State) : State :=
  let s1 := s.raise (.missedFrames count overflow)
  let s2 := if count = 0 then s1 else logThrottled .missed s1
  let s3 := if overflow then logThrottled .missedOverflow s2 else s2
  s3.emit (.recordMissed (count.setWidth 32) overflow)

/-- The missed-frame part of CHECK_STATUS: report, then the reset pulse whether or not anything was logged
(R221). -/
def checkMissed (s : State) : Answer :=
  let lay := s.params.layout
  if missedCondition lay s.snap.missedStatus then
    pulseReset (reportMissed (missedCount lay s.snap.missedStatus) (missedOverflow lay s.snap.missedStatus) s)
  else .next s

/-- The holding registers CHECK_STATUS reads (R221, corner case 4: SR[0] is not examined). -/
def checkReads : List ReadReg := [.errorStatus, .missedStatus]

/-- CHECK_STATUS (R221). -/
def checkStatus (s : State) : Answer :=
  match srFault checkReads s with
  | some f => .fault f
  | none => checkMissed (checkPeripheral s)

/-- The meaning of LOG_THROTTLED: its operand is the caller's category (R131; log 16), its result whether it
emitted (R216). -/
def execLogThrottled (s : State) : Answer :=
  .next ((logThrottled s.args.category s).returning (.logged (logEmits s)))

/-- The meaning of CHECK_STATUS (R221). -/
def execCheckStatus (s : State) : Answer := checkStatus s

end Sys2Proof.Machine
end

