-- ==== Sys2Proof/Machine/TimestampBase.lean ====
section
/-!
DEFINITION. The Timestamp Base (42_timestamp_base.md R170 to R175): CAPTURE_BASE, TO_ABSOLUTE.
-/

namespace Sys2Proof.Machine

/-- CAPTURE_BASE: base := wall_clock_now - monotonic_now, both sampled in one step (R171, R172). -/
def captureBase (s : State) : State :=
  { s.afterClock with base := s.clockNow.wall - s.clockNow.mono, baseValid := true }

/-- `base + hw_us * 1000`, modulo 2^64 (R173, R174). -/
def absoluteTime (base hwUs : Time) : Time := base + hwUs * nsPerMicro

/-- The meaning of CAPTURE_BASE (R172). -/
def execCaptureBase (s : State) : Answer := .next (captureBase s)

/-- The meaning of TO_ABSOLUTE: the time is returned, no other state is written (R173); its operand is the caller's
`hw_us` (R131; log 16); without a base it has no value (R36). -/
def execToAbsolute (s : State) : Answer :=
  if s.baseValid then .next (s.returning (.time (absoluteTime s.base s.args.hwUs)))
  else .fault .baseInvalid

end Sys2Proof.Machine
end

