-- ==== Sys2Proof/Machine/FrameDecoder.lean ====
section
/-!
DEFINITION. The Frame Decoder (43_frame_decoder.md R180 to R194): DECODE.
-/

namespace Sys2Proof.Machine

/-- The error branch: marker, priority sub-code, recorded kinds and payload, from the frame-type word alone
(R182, R185). -/
def errorEventOf (p : Params) (flagsWord : Word) (ts : Time) : ErrorEvent where
  marker    := true
  subcode   := (topKind p.layout flagsWord).code
  kindFlags := kindFlags p flagsWord
  payload   := payloadOf (errorPayloadByte p (kindFlags p flagsWord))
  timestamp := ts

/-- The frame branch (R186 to R188, R192, R193). -/
def frameOf (p : Params) (idWord dlcWord lo hi : Word) (ts : Time) : Frame where
  id        := frameId p.layout idWord
  flags     := frameFlags (frameId p.layout idWord)
  dlc       := dlcField p.layout dlcWord
  payload   := framePayload p.payloadFill (dlcField p.layout dlcWord) lo hi
  timestamp := ts

/-- The one DecodedEvent of a snapshot and a base (R180, R181). -/
def decodedEventOf (p : Params) (sr : Snapshot) (base : Time) : DecodedEvent :=
  let ts := absoluteTime base (snapTimestamp sr)
  if anyProtocolError p.layout sr.frameType then .error (errorEventOf p sr.frameType ts)
  else .frame (frameOf p sr.canId sr.dlc sr.dataLow sr.dataHigh ts)

/-- The holding registers both branches read, in the order of R181. -/
def decodeCommonReads : List ReadReg := [.frameType, .timestampHigh, .timestampLow]

/-- The holding registers only the frame branch reads (R181, R185). -/
def decodeFrameReads : List ReadReg := [.canId, .dlc, .dataLow, .dataHigh]

/-- DECODE with the reads of SR and `base` it makes: an invalid one is a fault (R22, R36, R173; log 22). -/
def decodeEvent (s : State) : Except Fault DecodedEvent :=
  match srFault decodeCommonReads s with
  | some f => .error f
  | none =>
    if s.baseValid then
      if anyProtocolError s.params.layout s.snap.frameType then .ok (decodedEventOf s.params s.snap s.base)
      else
        match srFault decodeFrameReads s with
        | some f => .error f
        | none => .ok (decodedEventOf s.params s.snap s.base)
    else .error .baseInvalid

/-- The ProtocolError exception of an event, if it is one (R181, R283). -/
def protocolErrorOf (ev : DecodedEvent) : List Exception :=
  match ev with
  | .frame _ => []
  | .error e => [.protocolError e.subcode e.kindFlags]

/-- The meaning of DECODE: the event is returned, no block state is written (R180); the error branch reports
ProtocolError (R181; log 18). -/
def execDecode (s : State) : Answer :=
  match decodeEvent s with
  | .ok ev => .next { s.returning (.event ev) with raised := s.raised ++ protocolErrorOf ev }
  | .error f => .fault f

end Sys2Proof.Machine
end

