-- ==== Sys2Proof/Machine/PollScheduler.lean ====
section
/-!
DEFINITION. The Poll Scheduler (46_poll_scheduler.md R230 to R245): START, TIMER_FIRE, DRAIN, STOP.
-/

namespace Sys2Proof.Machine

/-! ### START -/

/-- PollState created at interface start, in mode Armed (R233). -/
def createPollState (s : State) : State :=
  { s with budgetRemaining := 0, drained := 0, lastLogValid := false, mode := .armed }

/-- The meaning of START (R233, R234); a nonzero `arg` is no format N word (R140; log 20). -/
def execStart (arg : Word) (s : State) : Answer :=
  if arg ≠ 0 then .next (s.reject .nonzeroArg)
  else if s.mode ≠ .stopped then .next (s.reject .outsideMode)
  else if s.bitrateConfigured then .next ((armTimer (createPollState (captureBase s))).respond 0 0)
  else .next ((s.raise .startFailed).respond Exception.startFailed.code 0)

/-! ### TIMER_FIRE -/

/-- The occupancy decision of TIMER_FIRE, and the procedure's end (R236, R237). -/
def timerDecision (s : State) : State :=
  if bufferUsage s.params.layout s.snap.bufferStatus = 0 then { armTimer s with schedBusy := false }
  else { ({ s with mode := .draining }).emit .pollRequest with schedBusy := false }

/-- The procedure of TIMER_FIRE, started (R236). -/
def timerProcedure (s : State) : Answer :=
  andThen (readStatus { s with timerArmed := false, schedBusy := true }) fun s1 =>
  andThen (checkStatus s1) fun s2 =>
  .next (timerDecision s2)

/-- The meaning of TIMER_FIRE (R236): held while a procedure runs (R231), no event without a pending timer
(R231, R235; log 27). -/
def execTimerFire (arg : Word) (s : State) : Answer :=
  if arg ≠ 0 then .next (s.reject .nonzeroArg)
  else if s.schedBusy then .next (holdCall .timer (.timerFire 0) s)
  else if s.timerArmed then timerProcedure s
  else .next (s.reject .timerNotPending)

/-! ### DRAIN -/

/-- One drained event against the budget (R238, R241). -/
def countDrained (s : State) : State :=
  { s with drained := s.drained + 1, budgetRemaining := s.budgetRemaining - 1 }

/-- What `process_event` does with the decoded event (R239). -/
def handOver (ev : DecodedEvent) (s : State) : State :=
  match ev with
  | .error e =>
    (logThrottled (.protocol (kindOfCode e.subcode))
      ((s.raise (.protocolError e.subcode e.kindFlags)).emit .recordError)).emit (.deliver ev)
  | .frame f => (s.emit (.deliver ev)).emit (.recordStats (f.dlc.setWidth 32))

/-- `process_event` (R239). -/
def processEvent (s : State) : Answer :=
  match decodeEvent s with
  | .ok ev => .next (handOver ev s)
  | .error f => .fault f

/-- The allocation and the event of an iteration whose snapshot is not empty; a failed allocation drops the
snapshot, counts it and ends the burst (R238, R240, R285). -/
def drainEvent (again : State → Answer) (s : State) : Answer :=
  if s.allocOk then andThen (processEvent s.afterAlloc) fun s1 => again (countDrained s1)
  else .next (countDrained (s.afterAlloc.raise .allocationFailure))

/-- One iteration of the burst: read a snapshot, stop early on occupancy 0, examine the status, hand the event
over, go on with `again` (R238, R222, R291). -/
def drainIteration (again : State → Answer) (s : State) : Answer :=
  andThen (readFrame s) fun s1 =>
  if bufferUsage s1.params.layout s1.snap.bufferStatus = 0 then .next s1
  else andThen (checkStatus s1) fun s2 => drainEvent again s2

/-- The loop of DRAIN, `while budget_remaining != 0`; `fuel` is the budget, which bounds the iterations since each
uses one unit (R32, R238). -/
def drainLoop (fuel : Nat) (s : State) : Answer :=
  match fuel with
  | 0 => .next s
  | n + 1 => if s.budgetRemaining = 0 then .next s else drainIteration (drainLoop n) s

/-- The end of DRAIN: fewer than the budget re-arms the timer; a full budget stays in Draining (R238, R242). -/
def finishDrain (budget : Word) (s : State) : State :=
  let s1 := if s.drained < budget then armTimer { s with mode := .armed } else s
  { s1 with schedBusy := false }.respond 0 s1.drained

/-- The procedure of DRAIN, started (R238). -/
def drainProcedure (budget : Word) (s : State) : Answer :=
  andThen (drainLoop budget.toNat { s with schedBusy := true, budgetRemaining := budget, drained := 0 }) fun s1 =>
  .next (finishDrain budget s1)

/-- The meaning of DRAIN (R238 to R243): held while a procedure runs, refused outside Draining (R231; log 13). -/
def execDrain (budget : Word) (s : State) : Answer :=
  if s.schedBusy then .next (holdCall .port (.drain budget) s)
  else if s.mode = .draining then drainProcedure budget s
  else .next (s.reject .outsideMode)

/-! ### STOP -/

/-- The meaning of STOP (R244): held while a procedure runs, refused in Stopped (R231; log 13). -/
def execStop (arg : Word) (s : State) : Answer :=
  if arg ≠ 0 then .next (s.reject .nonzeroArg)
  else if s.schedBusy then .next (holdCall .port (.stop 0) s)
  else if s.mode = .stopped then .next (s.reject .outsideMode)
  else .next ({ s with timerArmed := false, mode := .stopped }.respond 0 0)

end Sys2Proof.Machine
end

