-- ==== Sys2Proof/Machine/Dispatch.lean ====
section
/-!
DEFINITION. One arm per operation: each is one call of its meaning.
-/

namespace Sys2Proof.Machine

/-- What an operation does to a state. -/
def exec (i : Instr) (s : State) : Host.Outcome State Fault Refusal :=
  match i with
  | .readStatus => Sys2Proof.Machine.execReadStatus s
  | .readFrame => Sys2Proof.Machine.execReadFrame s
  | .writeTiming => Sys2Proof.Machine.execWriteTiming s
  | .pulseReset => Sys2Proof.Machine.execPulseReset s
  | .captureBase => Sys2Proof.Machine.execCaptureBase s
  | .toAbsolute => Sys2Proof.Machine.execToAbsolute s
  | .decode => Sys2Proof.Machine.execDecode s
  | .resolve bitrate => Sys2Proof.Machine.execResolve bitrate s
  | .setBitRate bitrate => Sys2Proof.Machine.execSetBitRate bitrate s
  | .logThrottled => Sys2Proof.Machine.execLogThrottled s
  | .checkStatus => Sys2Proof.Machine.execCheckStatus s
  | .start arg => Sys2Proof.Machine.execStart arg s
  | .timerFire arg => Sys2Proof.Machine.execTimerFire arg s
  | .drain budget => Sys2Proof.Machine.execDrain budget s
  | .stop arg => Sys2Proof.Machine.execStop arg s

end Sys2Proof.Machine
end

