-- ==== Sys2Proof/Machine/Fetch.lean ====
section
/-!
DEFINITION. Which operation runs next, and with which state: the environment's moves, the backoff timer and the
waiting words (30_encoding.md R140; 46_poll_scheduler.md R235; 47_external_interface.md R261; 60_exceptions.md
R289, R292).  The block fetches no instructions (20_memory.md R74): what comes next is a waiting word or the timer.
-/

namespace Sys2Proof.Machine

/-- What the next step is. -/
inductive Fetched where
  | run (i : Instr) (s : State)    -- an operation runs on this state
  | settled (s : State)            -- no operation runs: a move of the environment, a refused word, nothing to do
  deriving DecidableEq, Repr

/-- Who issues an operation: the four requests come through the port, TIMER_FIRE from the timer, the rest from
another operation of the block (R131, R134). -/
def issuer (i : Instr) : Via :=
  match i with
  | .readStatus => .internal
  | .readFrame => .internal
  | .writeTiming => .internal
  | .pulseReset => .internal
  | .captureBase => .internal
  | .toAbsolute => .internal
  | .decode => .internal
  | .resolve _ => .internal
  | .setBitRate _ => .port
  | .logThrottled => .internal
  | .checkStatus => .internal
  | .start _ => .port
  | .timerFire _ => .timer
  | .drain _ => .port
  | .stop _ => .port

/-- The refusal of a word that is no operation (R140). -/
def rejectionOf (e : DecodeError) : Rejection :=
  match e with
  | .unassignedTag => .unassignedTag
  | .nonzeroArg => .nonzeroArg

/-- One waiting word is served: it must be an operation, and one that is issued this way, or it is refused
(R131, R140). -/
def serve (c : Call) (s : State) : Fetched :=
  match decode c.word with
  | .error e => .settled (s.reject (rejectionOf e))
  | .ok i => if issuer i = c.via then .run i s else .settled (s.reject .notIssuable)

/-- The block's turn: the waiting words in arrival order (R261), else a pending timer fires, else the block has no
step of its own (R235, R242; log 11). -/
def blockTurn (s : State) : Fetched :=
  match s.inbox with
  | c :: rest => serve c { s with inbox := rest }
  | [] => if timerEnabled s then .run (.timerFire 0) s else .settled s

/-- What the next step is: the next turn of `agenda`, and the block's turn when it is empty (R292; log 11).  A
timer turn while no timer can fire is no move (R231; log 23). -/
def fetch (s : State) : Fetched :=
  match s.agenda with
  | [] => blockTurn s
  | .block :: rest => blockTurn { s with agenda := rest }
  | .timer :: rest =>
    if timerEnabled { s with agenda := rest } then .run (.timerFire 0) { s with agenda := rest }
    else .settled { s with agenda := rest }
  | .env e :: rest => .settled (envStep e { s with agenda := rest })

/-- The way a word reaches the block when it is what its tag says; an unassigned word arrives at the port. -/
def viaOfWord (w : PortWord) : Via :=
  match decode w with
  | .ok i => issuer i
  | .error _ => .port

/-- The state in which the next step serves this word: it is the first waiting word and the block has the next
turn; everything else stays (log 15). -/
def placeWord (w : PortWord) (s : State) : State :=
  { s with inbox := ⟨viaOfWord w, w⟩ :: s.inbox, agenda := .block :: s.agenda }

end Sys2Proof.Machine
end

