-- ==== Sys2Proof/Machine/Step.lean ====
section
/-!
DEFINITION. One step of the machine, and placing a word where the next step takes it from.
-/

namespace Sys2Proof.Machine

/-- One step: a move of the environment, or one whole operation of the block (log 10). -/
def step (s : State) : Host.Outcome State Fault Refusal :=
  match fetch s with
  | .run i s' => exec i s'
  | .settled s' => .next s'

/-- The state in which the next step runs the instruction of `nbits` bits `w`, numbered as
spec/opcode_table.json numbers them (log 15). -/
def State.withFetchWord (s : State) (nbits w : Nat) : State := placeWord (tableWord nbits w) s

end Sys2Proof.Machine
end

