-- ==== Sys2Proof/Safety.lean ====
section
/-!
DEFINITION. The terms claims are stated in: the block state apart from ports and inputs (10_state.md R20), the
observations (00_scope.md R18), the invariants of 10_state.md R46 and 20_memory.md R76, the four shapes a bus trace
is made of (41_register_model.md R157) and the condition that no other agent moves.
-/

namespace Sys2Proof.Machine

/-- The block state: the tuple of R20. -/
structure BlockState where
  snap              : Snapshot
  srValid           : BitVec 11
  timing            : Timing
  bitrateConfigured : Bool
  base              : Time
  baseValid         : Bool
  mode              : Mode
  schedBusy         : Bool
  budgetRemaining   : Word
  drained           : Word
  timerArmed        : Bool
  timerDeadline     : Time
  lastLogValid      : Bool
  lastLogTime       : Time
  deriving DecidableEq, Repr

/-- The block state of a state (R20). -/
def State.block (s : State) : BlockState where
  snap              := s.snap
  srValid           := s.srValid
  timing            := s.timing
  bitrateConfigured := s.bitrateConfigured
  base              := s.base
  baseValid         := s.baseValid
  mode              := s.mode
  schedBusy         := s.schedBusy
  budgetRemaining   := s.budgetRemaining
  drained           := s.drained
  timerArmed        := s.timerArmed
  timerDeadline     := s.timerDeadline
  lastLogValid      := s.lastLogValid
  lastLogTime       := s.lastLogTime

/-- What can be observed of a run besides the block state (R18 (a) to (c)), with the exceptions reported. -/
structure Observed where
  bus       : List BusEvent
  out       : List OutEvent
  responses : List PortWord
  raised    : List Exception
  deriving DecidableEq, Repr

/-- The observations of a state (R18). -/
def State.observed (s : State) : Observed where
  bus       := s.bus
  out       := s.out
  responses := s.responses
  raised    := s.raised

/-- The inputs still to come: waiting words, the other agents' turns, the pinned clocks, the scripted allocations. -/
structure Inputs where
  inbox  : List Call
  agenda : List Turn
  clock  : Option ClockReading
  allocs : List Bool
  deriving DecidableEq, Repr

/-- The inputs of a state. -/
def State.inputs (s : State) : Inputs where
  inbox  := s.inbox
  agenda := s.agenda
  clock  := s.clock
  allocs := s.allocs

/-- The operand and result registers of internal operations, the model's own (log 16). -/
def State.callRegs (s : State) : CallArgs × RetVal := (s.args, s.ret)

/-- No other agent has a move before the block's and the lock is free: the block runs alone. -/
def State.Undisturbed (s : State) : Prop := s.agenda = [] ∧ s.lock = .free

/-- The invariants of R46 that hold between operations, with R34's about the timer; `schedBusy` is 0 because one
step is one whole procedure (log 10); the parameters are ones the spec allows (R8, R125; log 28). -/
structure State.Inv (s : State) : Prop where
  notBusy          : s.schedBusy = false
  stoppedDisarmed  : s.mode = .stopped → s.timerArmed = false
  armedMode        : s.timerArmed = true → s.mode = .armed
  running          : s.mode ≠ .stopped → s.bitrateConfigured = true ∧ s.baseValid = true
  lockNotBlock     : s.lock ≠ .held .block
  lawfulParams     : admissibleParams s.params = true

/-- The occupancy is at most FIFO_DEPTH and FIFO_DEPTH is in 1..65535 (R8, R76). -/
def Peripheral.Bounded (p : Peripheral) : Prop := 1 ≤ p.depth.toNat ∧ p.fifo.length ≤ p.depth.toNat

/-- The bus trace of one READ_STATUS that read these words (R151, R146). -/
def statusHold (sr : Snapshot) : List BusEvent :=
  [.acquire, .read .bufferStatus sr.bufferStatus, .read .errorStatus sr.errorStatus,
   .read .missedStatus sr.missedStatus, .release]

/-- The bus trace of one READ_FRAME that read this snapshot (R153, R146): ascending order, barrier before 0x28. -/
def frameHold (sr : Snapshot) : List BusEvent :=
  [.acquire, .read .bufferStatus sr.bufferStatus, .read .errorStatus sr.errorStatus,
   .read .missedStatus sr.missedStatus, .read .frameType sr.frameType, .read .timestampLow sr.timestampLow,
   .read .timestampHigh sr.timestampHigh, .read .canId sr.canId, .read .dlc sr.dlc, .read .crc sr.crc,
   .read .dataLow sr.dataLow, .barrier, .read .dataHigh sr.dataHigh, .release]

/-- The bus trace of one WRITE_TIMING, each parameter in its field (R155, R114, R146). -/
def timingHold (lay : Layout) (tp : Timing) : List BusEvent :=
  [.acquire, .write .syncSeg (fieldWord lay.syncSeg tp.syncSeg), .write .propSeg (fieldWord lay.propSeg tp.propSeg),
   .write .phaseSeg1 (fieldWord lay.phaseSeg1 tp.phaseSeg1), .write .phaseSeg2 (fieldWord lay.phaseSeg2 tp.phaseSeg2),
   .write .prescaler (fieldWord lay.prescaler tp.brp), .release]

/-- The bus trace of one PULSE_RESET (R156, R114, R146): assert, barrier, de-assert. -/
def pulseHold (lay : Layout) : List BusEvent :=
  [.acquire, .write .resetStrobe (fieldWord lay.strobe 1#1), .barrier, .write .resetStrobe 0, .release]

/-- One of the four shapes of R157. -/
inductive IsHold (lay : Layout) : List BusEvent → Prop where
  | status (sr : Snapshot) : IsHold lay (statusHold sr)
  | frame (sr : Snapshot) : IsHold lay (frameHold sr)
  | timing (tp : Timing) : IsHold lay (timingHold lay tp)
  | pulse : IsHold lay (pulseHold lay)

/-- A bus trace that consists of whole holds of the four shapes and nothing else (R157). -/
inductive WholeHolds (lay : Layout) : List BusEvent → Prop where
  | nil : WholeHolds lay []
  | snoc {l h : List BusEvent} : WholeHolds lay l → IsHold lay h → WholeHolds lay (l ++ h)

/-- The state after the environment's moves among these turns, in order; the block and the timer do not move (R72). -/
def afterTurns (turns : List Turn) (s : State) : State :=
  match turns with
  | [] => s
  | .env e :: rest => afterTurns rest (envStep e s)
  | .timer :: rest => afterTurns rest s
  | .block :: rest => afterTurns rest s

/-- How many lock holds a bus trace has begun (R332). -/
def holdCount (l : List BusEvent) : Nat := l.countP (fun e => e == .acquire)

/-- The events handed over by `Deliver`, in order (R262, R263). -/
def delivered (l : List OutEvent) : List DecodedEvent :=
  l.filterMap (fun e => match e with | .deliver ev => some ev | _ => none)

/-- The output without the Log events, which the shared window may hold back (R216, R217). -/
def withoutLogs (l : List OutEvent) : List OutEvent :=
  l.filter (fun e => match e with | .log _ => false | _ => true)

/-- What CHECK_STATUS emits besides Log events: one RecordMissed, exactly on a missed-frame condition (R221). -/
def missedReport (lay : Layout) (missedStatus : Word) : List OutEvent :=
  if missedCondition lay missedStatus then
    [.recordMissed ((missedCount lay missedStatus).setWidth 32) (missedOverflow lay missedStatus)]
  else []

/-- What `process_event` emits besides Log events (R239). -/
def handedOver (ev : DecodedEvent) : List OutEvent :=
  match ev with
  | .frame f => [.deliver ev, .recordStats (f.dlc.setWidth 32)]
  | .error _ => [.recordError, .deliver ev]

/-- The bus trace of a DRAIN iteration that examines its snapshot: the READ_FRAME, and the reset pulse exactly on a
missed-frame condition (R222, R221). -/
def examinedHolds (lay : Layout) (sr : Snapshot) : List BusEvent :=
  frameHold sr ++ if missedCondition lay sr.missedStatus then pulseHold lay else []

/-- What a burst of DRAIN from `s` to `t` did, snapshot by snapshot (R238, R222, R239, R241): `handed` were examined and
handed over, the one in `dropped`, if any, was examined and lost to a failed allocation, the one in `emptied`, if any,
showed occupancy 0 and was examined by nobody. -/
structure BurstTrace (s t : State) (handed dropped emptied : List Snapshot) : Prop where
  bus       : t.bus = s.bus ++ (handed ++ dropped).flatMap (examinedHolds s.params.layout) ++ emptied.flatMap frameHold
  out       : withoutLogs t.out = withoutLogs s.out
    ++ handed.flatMap (fun sr =>
        missedReport s.params.layout sr.missedStatus ++ handedOver (decodedEventOf s.params sr s.base))
    ++ dropped.flatMap (fun sr => missedReport s.params.layout sr.missedStatus)
  failures  : t.raised.count .allocationFailure = s.raised.count .allocationFailure + dropped.length
  occupied  : ∀ sr ∈ handed ++ dropped, bufferUsage s.params.layout sr.bufferStatus ≠ 0
  empty     : ∀ sr ∈ emptied, bufferUsage s.params.layout sr.bufferStatus = 0
  oneEnd    : dropped.length + emptied.length ≤ 1

/-- The snapshot a READ_FRAME of the reference peripheral shows of an entry with `queued` entries in the FIFO and
these live words (R80, R81). -/
def entrySnapshot (lay : Layout) (queued : Nat) (errorStatus missedStatus : Word) (e : Entry) : Snapshot where
  bufferStatus  := bufferStatusWord lay queued
  errorStatus   := errorStatus
  missedStatus  := missedStatus
  frameType     := e.ft
  timestampLow  := e.ts.extractLsb' 0 32
  timestampHigh := e.ts.extractLsb' 32 32
  canId         := e.idw
  dlc           := e.dlcw
  crc           := e.crcw
  dataLow       := e.dlo
  dataHigh      := e.dhi

/-- The event the decoder makes of a FIFO entry (R181); the live words play no part in it (R180). -/
def eventOfEntry (p : Params) (base : Time) (e : Entry) : DecodedEvent :=
  decodedEventOf p (entrySnapshot p.layout 0 0 0 e) base

end Sys2Proof.Machine
end

