-- ==== Sys2Proof/Certificates/Slice0/Obligations.lean ====
section
/-!
DEFINITION. The statements for the provers.  Each docstring names the rule of spec/ it formalises; the witness that
meets its hypotheses is a named theorem of Sys2Proof/Tests/Slice0.lean.
-/

open Sys2Proof Sys2Proof.Machine

/-! ### Encoding and fetching -/

/-- Every well-formed operation is read back from its own word, with every operand value (R130, R131, R134). -/
def Obligations.DecodeOfEncodeIsTheOperation : Prop :=
  ∀ i : Instr, WellFormed i → decode (encode i) = .ok i

/-- A word that decodes agrees with its operation's word on every bit the row's mask looks at, carries its operand
in bits 31:0, and never gives an ill-formed term (R131, R134, R140). -/
def Obligations.DecodedWordKeepsItsBits : Prop :=
  ∀ (w : PortWord) (i : Instr), decode w = .ok i →
    WellFormed i ∧ encode i &&& rowMask i = w &&& rowMask i ∧ opTag i = wordOp w ∧
    ∀ b : Word, (i = .resolve b ∨ i = .setBitRate b ∨ i = .drain b) → b = wordArg w

/-- Exactly two kinds of word are no operation: an unassigned tag, and a format N tag with a nonzero arg (R140). -/
def Obligations.WordsThatAreNoOperation : Prop :=
  ∀ w : PortWord,
    (decode w = .error .unassignedTag ↔ ∀ i : Instr, opTag i ≠ wordOp w) ∧
    (decode w = .error .nonzeroArg ↔
      (wordOp w = 0x50 ∨ wordOp w = 0x51 ∨ wordOp w = 0x53) ∧ wordArg w ≠ 0)

/-- The request words of the vectors V27, V34 and V39 decode to what the vectors say (95_test_vectors.md). -/
def Obligations.RequestWordsOfTheVectors : Prop :=
  decode 0x310007A120 = .ok (.setBitRate 500000) ∧ decode 0x31000F4240 = .ok (.setBitRate 1000000) ∧
  decode 0x310003D090 = .ok (.setBitRate 250000) ∧ decode 0x5000000000 = .ok (.start 0) ∧
  decode 0x5300000000 = .ok (.stop 0) ∧ decode 0x520000000A = .ok (.drain 10) ∧
  decode 0x5200000005 = .ok (.drain 5) ∧ decode 0x5200000000 = .ok (.drain 0) ∧
  decode 0x5100000000 = .ok (.timerFire 0) ∧ decode 0x0200000000 = .ok .readFrame ∧
  decode 0x5000000001 = .error .nonzeroArg ∧ decode 0x6000000000 = .error .unassignedTag ∧
  decode 0xFF00000000 = .error .unassignedTag ∧ decode 0x0000000000 = .error .unassignedTag

/-- At the request port only SET_BIT_RATE, DRAIN, and START and STOP with arg 0 are served; every other word is
refused: it is taken from the port and nothing changes but the mark of the refusal: no output, no response (R140, R12;
that the run goes on with the mark in `rejections` is the model's reading of "marked", log 19). -/
def Obligations.RequestPortAdmission : Prop :=
  ∀ (s : State) (w : PortWord) (rest : List Call), s.agenda = [] → s.inbox = ⟨.port, w⟩ :: rest →
    if wordOp w = 0x31 ∨ wordOp w = 0x52 ∨ ((wordOp w = 0x50 ∨ wordOp w = 0x53) ∧ wordArg w = 0) then
      ∃ i, decode w = .ok i ∧ step s = exec i { s with inbox := rest }
    else ∃ r, step s = .next { s with inbox := rest, rejections := s.rejections ++ [r] }

/-- A step runs the decoded operation: the first waiting word, when its tag may come that way, is executed on the
state without it, at the block's own turn or when no turn is set; and `withFetchWord` places a word so that the next
step runs exactly it (how words come to the block is log 15). -/
def Obligations.StepRunsTheWaitingOperation : Prop :=
  (∀ (s : State) (c : Call) (rest : List Call) (i : Instr), s.agenda = [] → s.inbox = c :: rest →
    decode c.word = .ok i → issuer i = c.via → WellFormed i ∧ step s = exec i { s with inbox := rest }) ∧
  (∀ (s : State) (turns : List Turn) (c : Call) (rest : List Call) (i : Instr), s.agenda = .block :: turns →
    s.inbox = c :: rest → decode c.word = .ok i → issuer i = c.via →
    step s = exec i { s with agenda := turns, inbox := rest }) ∧
  (∀ (s : State) (nbits w : Nat) (i : Instr), decode (tableWord nbits w) = .ok i →
    step (s.withFetchWord nbits w) = exec i s)

/-- When no word waits and no other agent moves, a pending timer fires (R235: enabled whenever it is armed and no
procedure runs); without one the block has no step of its own (R242).  That waiting words go first is the model's
choice (log 11).  A timer's turn lets the timer go before any waiting word, a STOP included (R292): it fires when it is
enabled, and otherwise only that turn is taken; at a block's turn with no word waiting it is as with no turn set. -/
def Obligations.IdleBlockFiresItsTimer : Prop :=
  (∀ s : State, s.agenda = [] → s.inbox = [] →
    if s.timerArmed = true ∧ s.schedBusy = false then step s = exec (.timerFire 0) s else step s = .next s) ∧
  (∀ (s : State) (turns : List Turn), s.agenda = .timer :: turns ∨ (s.agenda = .block :: turns ∧ s.inbox = []) →
    if s.timerArmed = true ∧ s.schedBusy = false then step s = exec (.timerFire 0) { s with agenda := turns }
    else step s = .next { s with agenda := turns })

/-- No move of the environment touches the block state, an observation, the call registers or the parameters (R15,
R45). -/
def Obligations.EnvironmentLeavesTheBlockAlone : Prop :=
  ∀ (s t : State) (e : EnvStep) (rest : List Turn), s.agenda = .env e :: rest → step s = .next t →
    t.block = s.block ∧ t.observed = s.observed ∧ t.callRegs = s.callRegs ∧ t.params = s.params

/-! ### The lock and the register block -/

/-- An Acquire that succeeds leaves the lock with the block and adds its event to the trace; the block state, the
other observations and the call registers are as before (R70, R72). -/
def Obligations.AcquireTakesTheLock : Prop :=
  ∀ s t : State, acquire s = .next t →
    t.lock = .held .block ∧ t.block = s.block ∧ t.bus = s.bus ++ [.acquire] ∧ t.out = s.out ∧
    t.responses = s.responses ∧ t.raised = s.raised ∧ t.callRegs = s.callRegs

/-- An Acquire, for every list of moves to come, whatever the lock: a free lock is taken at the block's turn, or when
no move is left; a move of the environment before that happens first (R72); a timer's turn passes, and so does a turn
of the block while the lock is held; with the lock held and no move left the block is stuck, a fault of the model (log
12, U27). So a lock another agent holds is waited for until that agent's release, whatever else moves meanwhile, and
the Acquire goes on from there with the lock free (R70); if no move to come is that release it is stuck. Another
agent's access outside its own hold is refused without any effect but the mark (R71, U2; log 19). -/
def Obligations.TheLockSerialisesAccess : Prop :=
  ∀ (s : State) (n : Nat),
    (s.lock = .free → s.agenda = [] →
      acquire s = .next { s with lock := .held .block, bus := s.bus ++ [.acquire] }) ∧
    (∀ rest, s.lock = .free → s.agenda = .block :: rest →
      acquire s = .next { s with lock := .held .block, agenda := rest, bus := s.bus ++ [.acquire] }) ∧
    (∀ e rest, s.agenda = .env e :: rest → acquire s = acquire { envStep e s with agenda := rest }) ∧
    (∀ rest, s.agenda = .timer :: rest → acquire s = acquire { s with agenda := rest }) ∧
    (∀ rest, s.lock ≠ .free → s.agenda = .block :: rest → acquire s = acquire { s with agenda := rest }) ∧
    (s.lock ≠ .free → s.agenda = [] → acquire s = .fault .lockStarved) ∧
    (∀ before later, s.lock = .held (.other n) → s.agenda = before ++ .env (.free n) :: later →
      .env (.free n) ∉ before →
      acquire s = acquire { afterTurns before s with lock := .free, agenda := later }) ∧
    (s.lock = .held (.other n) → .env (.free n) ∉ s.agenda → acquire s = .fault .lockStarved) ∧
    (s.lock ≠ .held (.other n) → ∀ (r : ReadReg) (q : WriteReg) (v : Word),
      envStep (.foreignRead n r) s = { s with rejections := s.rejections ++ [.accessWithoutLock] } ∧
      envStep (.foreignWrite n q v) s = { s with rejections := s.rejections ++ [.accessWithoutLock] })

/-- The eleven read-side registers stand at 0x00 to 0x28 in the order of SR[0..10], each 4 above the one before, as the
hardware has them (R101, R21).  For every admissible choice of the OPEN write-side offsets the seventeen stand at distinct offsets, and
every address driven is REG_BASE plus the offset, a multiple of 4 (R60, R63, R101). -/
def Obligations.RegisterAddressesAreDistinctWords : Prop :=
  (∀ r : ReadReg, r.offset = 4 * r.index) ∧
  (∀ r q : ReadReg, r.offset = q.offset → r = q) ∧ (∀ r q : WriteReg, r.offset = q.offset → r = q) ∧
  (∀ (r : ReadReg) (q : WriteReg), r.offset ≠ q.offset) ∧
  (∀ r : ReadReg, r.address % 4 = 0 ∧ r.address = Config.regBase + r.offset) ∧
  (∀ q : WriteReg, q.address % 4 = 0 ∧ q.address = Config.regBase + q.offset)

/-- READ_STATUS completes whenever the block runs alone, and whenever it gets the lock: three reads in ascending order
inside one hold, their words in SR[0..2] and the valid bits 2:0; SR[3..10] and their valid bits stay, and the
peripheral is left as it was (R151).  The words are what the reads answer: under the reference peripheral (premise,
R75) the occupancy, the error status and the missed count with its overflow bit, as words under the default layout
(R80, R103, R105); under unconstrained reads the next three answers (R75; log 2). -/
def Obligations.ReadStatusResult : Prop :=
  ∀ s : State, (s.Undisturbed → ∃ t, exec .readStatus s = .next t) ∧
    ∀ s1 : State, acquire s = .next s1 → ∃ t, exec .readStatus s = .next t ∧
    t.snap = { s.snap with bufferStatus := t.snap.bufferStatus, errorStatus := t.snap.errorStatus,
                           missedStatus := t.snap.missedStatus } ∧
    t.block = { s.block with snap := t.snap, srValid := s.srValid ||| 0b111 } ∧
    t.bus = s.bus ++ [.acquire, .read .bufferStatus t.snap.bufferStatus, .read .errorStatus t.snap.errorStatus,
                      .read .missedStatus t.snap.missedStatus, .release] ∧
    (s1.periph.source = .reference →
      bufferUsage s.params.layout t.snap.bufferStatus = BitVec.ofNat 16 s1.periph.fifo.length ∧
      t.snap.errorStatus = s1.periph.errst ∧
      (admissibleParams s.params = true →
        missedCount s.params.layout t.snap.missedStatus = s1.periph.missed ∧
        missedOverflow s.params.layout t.snap.missedStatus = s1.periph.missedOvf) ∧
      (s.params.layout = Layout.default →
        t.snap.missedStatus = BitVec.ofBool s1.periph.missedOvf ++ s1.periph.missed ∧
        (s1.periph.fifo.length < 65536 → t.snap.bufferStatus = BitVec.ofNat 32 s1.periph.fifo.length))) ∧
    (∀ b e m rest, s1.periph.source = .arbitrary → s1.reads = [b, e, m] ++ rest →
      t.snap.bufferStatus = b ∧ t.snap.errorStatus = e ∧ t.snap.missedStatus = m ∧ t.reads = rest) ∧
    t.periph = s1.periph ∧ t.lock = .free ∧ t.inputs = s1.inputs ∧
    t.out = s.out ∧ t.responses = s.responses ∧ t.raised = s.raised ∧ t.callRegs = s.callRegs

/-- READ_FRAME completes whenever the block runs alone, and whenever it gets the lock: the eleven reads in ascending
order inside one hold with the barrier between data-low and data-high, their words in SR[0..10], every valid bit set;
nothing else of the block changes (R153, R154). -/
def Obligations.ReadFrameResult : Prop :=
  ∀ s : State, (s.Undisturbed → ∃ t, exec .readFrame s = .next t) ∧
    ∀ s1 : State, acquire s = .next s1 → ∃ t, exec .readFrame s = .next t ∧
    t.block = { s.block with snap := t.snap, srValid := 0b11111111111 } ∧
    t.bus = s.bus ++ frameHold t.snap ∧ t.lock = .free ∧ t.inputs = s1.inputs ∧
    t.out = s.out ∧ t.responses = s.responses ∧ t.raised = s.raised ∧ t.callRegs = s.callRegs

/-- Under unconstrained reads, SR[0..10] hold exactly the eleven words the bus answered, in the order of the reads
(R75, R153). -/
def Obligations.ReadFrameLatchesTheAnswers : Prop :=
  ∀ (s : State) (v : Snapshot) (rest : List Word), s.Undisturbed → s.periph.source = .arbitrary →
    s.reads = [v.bufferStatus, v.errorStatus, v.missedStatus, v.frameType, v.timestampLow, v.timestampHigh,
               v.canId, v.dlc, v.crc, v.dataLow, v.dataHigh] ++ rest →
    ∃ t, exec .readFrame s = .next t ∧ t.snap = v ∧ t.reads = rest ∧ t.periph = s.periph

/-- The reference peripheral: a READ_FRAME with a queued entry shows that entry and the live words, with the
occupancy before the discard, and discards exactly the head entry; on an empty FIFO it reads occupancy 0 and leaves
the peripheral as it was (premise: the reference peripheral, R75; R78 to R81). -/
def Obligations.ReadFrameTakesTheHeadEntry : Prop :=
  ∀ s s1 : State, acquire s = .next s1 → s1.periph.source = .reference →
    (∀ (e : Entry) (rest : List Entry), s1.periph.fifo = e :: rest → ∃ t, exec .readFrame s = .next t ∧
      t.snap = entrySnapshot s.params.layout (rest.length + 1) s1.periph.errst
        (missedStatusWord s.params.layout s1.periph.missed s1.periph.missedOvf) e ∧
      t.periph = { s1.periph with fifo := rest }) ∧
    (s1.periph.fifo = [] → ∃ t, exec .readFrame s = .next t ∧
      bufferUsage s.params.layout t.snap.bufferStatus = 0 ∧
      t.periph = s1.periph)

/-- WRITE_TIMING completes whenever the block runs alone, and whenever it gets the lock: five writes in the order of
the rule, each value unbiased in its field with the other bits 0, inside one hold; under the default layout the
words are the zero-extended values; the five timing registers hold the record and nothing else of the peripheral
changes; the block state is untouched (R155, R114, R83). -/
def Obligations.WriteTimingResult : Prop :=
  ∀ s : State, (s.Undisturbed → ∃ t, exec .writeTiming s = .next t) ∧
    ∀ s1 : State, acquire s = .next s1 → ∃ t, exec .writeTiming s = .next t ∧
    t.bus = s.bus ++ timingHold s.params.layout s.args.timing ∧
    (s.params.layout = Layout.default → t.bus = s.bus ++ [.acquire,
      .write .syncSeg (s.args.timing.syncSeg.setWidth 32), .write .propSeg (s.args.timing.propSeg.setWidth 32),
      .write .phaseSeg1 (s.args.timing.phaseSeg1.setWidth 32), .write .phaseSeg2 (s.args.timing.phaseSeg2.setWidth 32),
      .write .prescaler (s.args.timing.brp.setWidth 32), .release]) ∧
    t.periph = { s1.periph with regs := s.args.timing } ∧
    t.block = s.block ∧ t.lock = .free ∧ t.inputs = s1.inputs ∧
    t.out = s.out ∧ t.responses = s.responses ∧ t.raised = s.raised ∧ t.callRegs = s.callRegs

/-- PULSE_RESET completes whenever the block runs alone, and whenever it gets the lock: assert, barrier, de-assert
inside one hold, 1 and then 0 in the strobe bit, which is bit 0 under the default layout (R114); the timing registers
keep their values and are latched; the reference peripheral is emptied and its
counters cleared; the block state is untouched (R156, R82). -/
def Obligations.PulseResetResult : Prop :=
  ∀ s : State, (s.Undisturbed → ∃ t, exec .pulseReset s = .next t) ∧
    ∀ s1 : State, acquire s = .next s1 → ∃ t, exec .pulseReset s = .next t ∧
    t.bus = s.bus ++ pulseHold s.params.layout ∧
    (s.params.layout = Layout.default →
      t.bus = s.bus ++ [.acquire, .write .resetStrobe 1, .barrier, .write .resetStrobe 0, .release]) ∧
    t.periph.regs = s1.periph.regs ∧ t.periph.latched = s1.periph.regs ∧ t.periph.strobe = false ∧
    t.periph.depth = s1.periph.depth ∧ t.periph.source = s1.periph.source ∧
    (s1.periph.source = .reference → t.periph.fifo = [] ∧ t.periph.missed = 0 ∧ t.periph.missedOvf = false ∧
      t.periph.errst = 0) ∧
    t.block = s.block ∧ t.lock = .free ∧ t.inputs = s1.inputs ∧
    t.out = s.out ∧ t.responses = s.responses ∧ t.raised = s.raised ∧ t.callRegs = s.callRegs

/-- The reference peripheral's arrive step: a frame is queued with the counter's value while there is room, else
counted as missed, and the count's carry sets the overflow flag (R77). -/
def Obligations.ArrivalQueuesOrCounts : Prop :=
  ∀ (p : Peripheral) (e : Entry),
    (p.fifo.length < p.depth.toNat → p.arrive e = { p with fifo := p.fifo ++ [{ e with ts := p.hwUs }] }) ∧
    (p.depth.toNat ≤ p.fifo.length → p.missed.toNat = 2 ^ 31 - 1 →
      p.arrive e = { p with missed := 0, missedOvf := true }) ∧
    (p.depth.toNat ≤ p.fifo.length → p.missed.toNat < 2 ^ 31 - 1 →
      p.arrive e = { p with missed := p.missed + 1 } ∧ (p.missed + 1).toNat = p.missed.toNat + 1)

/-! ### Timestamp base -/

/-- CAPTURE_BASE completes in every state: base becomes the difference of the two clock readings, modulo 2^64, and
is valid; nothing else changes but the counter of draws (R172). -/
def Obligations.CaptureBaseResult : Prop :=
  ∀ s : State, exec .captureBase s = .next
    { s with base := s.clockNow.wall - s.clockNow.mono, baseValid := true, draws := s.draws + 1 }

/-- TO_ABSOLUTE returns base + hw_us * 1000 and writes no state; without a base it faults (R173; that `hw_us` and the
result stand in operand and result registers is the model's, log 16). -/
def Obligations.ToAbsoluteResult : Prop :=
  ∀ s : State,
    (s.baseValid = true → exec .toAbsolute s = .next { s with ret := .time (s.base + s.args.hwUs * 1000) }) ∧
    (s.baseValid = false → exec .toAbsolute s = .fault .baseInvalid)

/-- Differences of hardware timestamps are preserved exactly, scaled to nanoseconds; hw_us = 0 gives the base; and
the hardware timestamp that equals the monotonic reading at capture maps to the wall-clock reading at capture
(R174, R173, R175). -/
def Obligations.TimestampArithmetic : Prop :=
  (∀ base a b : Time, absoluteTime base a - absoluteTime base b = (a - b) * 1000 ∧ absoluteTime base 0 = base) ∧
  (∀ (s t : State) (us : Time), exec .captureBase s = .next t → s.clockNow.mono = us * 1000 →
    absoluteTime t.base us = s.clockNow.wall)

/-! ### Frame decoder -/

/-- DECODE completes whenever the registers its branch reads are valid and a base was captured: it returns the one
event of the snapshot, reports ProtocolError on the error branch, and writes no block state (R180, R181). -/
def Obligations.DecodeResult : Prop :=
  ∀ s : State, (∀ r ∈ [ReadReg.frameType, .timestampLow, .timestampHigh], srValidBit r s.srValid = true) →
    s.baseValid = true →
    (anyProtocolError s.params.layout s.snap.frameType = false →
      ∀ r ∈ [ReadReg.canId, .dlc, .dataLow, .dataHigh], srValidBit r s.srValid = true) →
    exec .decode s = .next { s with
      ret := .event (decodedEventOf s.params s.snap s.base)
      raised := s.raised ++ (if anyProtocolError s.params.layout s.snap.frameType then
        [.protocolError (topKind s.params.layout s.snap.frameType).code (kindFlags s.params s.snap.frameType)]
        else []) }

/-- An operation that reads a holding register nothing has loaded faults, naming a register that is invalid: DECODE
for the flags and the timestamp words, and on the frame branch for the identifier, length and data words;
CHECK_STATUS for the error and the missed status (R22, U14).  With the flags and the timestamp valid and no base
captured, DECODE faults on the base, whatever the other words (R36, R173).  Which fault it is when several apply is
the model's choice (log 22). -/
def Obligations.InvalidRegistersFaultDecodeAndCheckStatus : Prop :=
  ∀ s : State,
    let invalid (r : ReadReg) : Prop := srValidBit r s.srValid = false
    let common : List ReadReg := [.frameType, .timestampLow, .timestampHigh]
    let payload : List ReadReg := [.canId, .dlc, .dataLow, .dataHigh]
    let status : List ReadReg := [.errorStatus, .missedStatus]
    ((∃ r ∈ common, invalid r) → ∃ q ∈ common, invalid q ∧ exec .decode s = .fault (.snapshotInvalid q)) ∧
    ((∀ r ∈ common, ¬ invalid r) → s.baseValid = false → exec .decode s = .fault .baseInvalid) ∧
    ((∀ r ∈ common, ¬ invalid r) → s.baseValid = true → anyProtocolError s.params.layout s.snap.frameType = false →
      (∃ r ∈ payload, invalid r) → ∃ q ∈ payload, invalid q ∧ exec .decode s = .fault (.snapshotInvalid q)) ∧
    ((∃ r ∈ status, invalid r) → ∃ q ∈ status, invalid q ∧ exec .checkStatus s = .fault (.snapshotInvalid q))

/-- With any protocol-error flag set the decoder makes an ErrorEvent, never a Frame, with the sub-code of the
highest-priority flag stuff > form > ack > crc; with none set it makes a Frame (R181, R183).  It holds for every
place of the four flags in the frame-type word (R102). -/
def Obligations.ErrorFlagsDecideTheEvent : Prop :=
  ∀ (p : Params) (sr : Snapshot) (base : Time),
    let flag (position : Fin 32) : Bool := sr.frameType.getLsbD position
    let errs (code : BitVec 2) : Prop :=
      ∃ e, decodedEventOf p sr base = .error e ∧ e.subcode = code ∧ e.marker = true
    (flag p.layout.stuff = true → errs 0) ∧
    (flag p.layout.stuff = false → flag p.layout.form = true → errs 1) ∧
    (flag p.layout.stuff = false → flag p.layout.form = false → flag p.layout.sample = true → errs 2) ∧
    (flag p.layout.stuff = false → flag p.layout.form = false → flag p.layout.sample = false →
      flag p.layout.crcErr = true → errs 3) ∧
    (flag p.layout.stuff = false → flag p.layout.form = false → flag p.layout.sample = false →
      flag p.layout.crcErr = false → ∃ f, decodedEventOf p sr base = .frame f)

/-- What DECODE's error event holds, for every admissible choice of the parameters: its timestamp is
base + {SR[5], SR[4]} * 1000 (R115, R181, R190); it records every set flag, or only the sub-code's
(`ERR_RECORD_ALL`); its payload has `ERR_VAL` of a recorded kind at that kind's `ERR_POS` and 0 everywhere else (R182,
R125).  With the spec's own values (D16; log 28) the flags are bits 3:0 of SR[3] and the payload has 0x01 at index 0,
1, 2, 3 exactly for the recorded kinds stuff, form, ack, crc. -/
def Obligations.ErrorEventContents : Prop :=
  ∀ (p : Params) (sr : Snapshot) (base : Time), admissibleParams p = true →
    anyProtocolError p.layout sr.frameType = true →
    ∃ e, decodedEventOf p sr base = .error e ∧
      e.timestamp = base + (sr.timestampHigh ++ sr.timestampLow) * 1000 ∧
      (∀ k : ProtocolKind, e.kindFlags.getLsbD k.code.toNat =
        if p.errRecordAll then kindFlag p.layout k sr.frameType else decide (e.subcode = k.code)) ∧
      (∀ k : ProtocolKind, e.payload.get (valueFor p.errPos k) =
        if e.kindFlags.getLsbD k.code.toNat then valueFor p.errVal k else 0x00) ∧
      (∀ i : Fin 8, (∀ k : ProtocolKind, valueFor p.errPos k ≠ i) → e.payload.get i = 0x00) ∧
      (p = Params.default → e.kindFlags = sr.frameType.extractLsb' 0 4 ∧
        ∀ i : Fin 8, e.payload.get i = if i.val < 4 ∧ sr.frameType.getLsbD i.val = true then 0x01 else 0x00)

/-- Two snapshots with a protocol-error flag that differ only in the identifier, length and data words give the same
ErrorEvent (R185, R181); and DECODE does not need those words to be valid, since only the registers an operation reads
count (R22; the model's reading, log 60). -/
def Obligations.ErrorEventIgnoresThePayloadWords : Prop :=
  ∀ (s : State) (id dlc lo hi : Word) (v : BitVec 11),
    anyProtocolError s.params.layout s.snap.frameType = true →
    s.baseValid = true →
    (∀ r ∈ [ReadReg.frameType, .timestampLow, .timestampHigh],
      srValidBit r s.srValid = true ∧ srValidBit r v = true) →
    ∃ (e : ErrorEvent) (t u : State), exec .decode s = .next t ∧ t.ret = .event (.error e) ∧
      exec .decode { s with
        snap := { s.snap with canId := id, dlc := dlc, dataLow := lo, dataHigh := hi }
        srValid := v } = .next u ∧ u.ret = .event (.error e)

/-- The identifier of the Frame DECODE makes of SR[6], for every layout: bits 28:0 are the `id` field when `eff` is set
and its low 11 bits otherwise; bits 31, 30, 29 are `eff`, `rtr`, `err`; `flags` is the copy of bits 31:29 (R186, R122,
R123, R117; `err` passed through, R192); the timestamp is base + {SR[5], SR[4]} * 1000 (R115, R190).  Under the default
layout the fields are bits 28:0, 30, 29 and 31 of SR[6] (R109; D3, log 28). -/
def Obligations.FrameIdentifierAndFlags : Prop :=
  ∀ (p : Params) (sr : Snapshot) (base : Time), anyProtocolError p.layout sr.frameType = false →
    ∃ f, decodedEventOf p sr base = .frame f ∧
      f.timestamp = base + (sr.timestampHigh ++ sr.timestampLow) * 1000 ∧
      f.id.extractLsb' 0 29 = (if sr.canId.getLsbD p.layout.eff then sr.canId.extractLsb' p.layout.ident 29
        else (sr.canId.extractLsb' p.layout.ident 11).setWidth 29) ∧
      f.id.getLsbD 31 = sr.canId.getLsbD p.layout.eff ∧ f.id.getLsbD 30 = sr.canId.getLsbD p.layout.rtr ∧
      f.id.getLsbD 29 = sr.canId.getLsbD p.layout.err ∧ f.flags = f.id.extractLsb' 29 3 ∧
      (p.layout = Layout.default →
        f.id.extractLsb' 0 29 = (if sr.canId.getLsbD 30 then sr.canId.extractLsb' 0 29
          else (sr.canId.extractLsb' 0 11).setWidth 29) ∧
        f.flags = sr.canId.extractLsb' 30 1 ++ sr.canId.extractLsb' 29 1 ++ sr.canId.extractLsb' 31 1)

/-- The payload of the Frame DECODE makes of SR[7], SR[9] (data-low) and SR[10] (data-high): for dlc <= 4 the first dlc
bytes are those of data-low, most significant first, and the rest is `PAYLOAD_FILL`; above 4 bytes 0 to 3 are those of
data-high and 4 to 7 those of data-low; dlc is copied as read, 9 to 15 included (R187, R188, R62).  The spec's own
`PAYLOAD_FILL` is 0x00 and its layout has dlc in bits 3:0 of SR[7] (D14, D3; log 28). -/
def Obligations.FramePayloadPacking : Prop :=
  ∀ (p : Params) (sr : Snapshot) (base : Time), anyProtocolError p.layout sr.frameType = false →
    ∃ f, decodedEventOf p sr base = .frame f ∧ f.dlc = sr.dlc.extractLsb' p.layout.dlc 4 ∧
      (∀ i : Fin 8,
        (f.dlc.toNat ≤ 4 → i.val < f.dlc.toNat → f.payload.get i = sr.dataLow.extractLsb' (24 - 8 * i.val) 8) ∧
        (f.dlc.toNat ≤ 4 → f.dlc.toNat ≤ i.val → f.payload.get i = p.payloadFill) ∧
        (4 < f.dlc.toNat → i.val < 4 → f.payload.get i = sr.dataHigh.extractLsb' (24 - 8 * i.val) 8) ∧
        (4 < f.dlc.toNat → 4 ≤ i.val → f.payload.get i = sr.dataLow.extractLsb' (56 - 8 * i.val) 8)) ∧
      (p = Params.default → p.payloadFill = 0x00 ∧ f.dlc = sr.dlc.extractLsb' 0 4)

/-- For dlc > 4 the payload DECODE makes is the eight bytes of the 64-bit value data-high, data-low, most significant
first; for dlc = 4 byte 0 comes from data-low instead (R194). -/
def Obligations.LongPayloadIsOneBigEndianUnit : Prop :=
  ∀ (p : Params) (sr : Snapshot) (base : Time), anyProtocolError p.layout sr.frameType = false →
    ∃ f, decodedEventOf p sr base = .frame f ∧
      (4 < f.dlc.toNat → ∀ i : Fin 8,
        f.payload.get i = (sr.dataHigh ++ sr.dataLow).extractLsb' (56 - 8 * i.val) 8) ∧
      (f.dlc = 4 → f.payload.get 0 = sr.dataLow.extractLsb' 24 8)

/-- The frame-type code and the crc register appear in no event: of SR[3] only the four flags count (R189). -/
def Obligations.FrameTypeCodeAndCrcAreIgnored : Prop :=
  ∀ (p : Params) (sr : Snapshot) (base : Time) (w crc : Word),
    (∀ position ∈ [p.layout.stuff, p.layout.form, p.layout.sample, p.layout.crcErr],
      w.getLsbD position.val = sr.frameType.getLsbD position.val) →
    decodedEventOf p { sr with frameType := w, crc := crc } base = decodedEventOf p sr base

/-! ### Bit-timing table -/

/-- RESOLVE completes on every rate: the two rates of the table give their rows, every other rate Unsupported; no
state of the block is written and no register touched: only the returned value and the reported exception (R202; that
the value stands in a result register is log 16). -/
def Obligations.ResolveResult : Prop :=
  ∀ (s : State) (b : Word),
    (b = 500000 → exec (.resolve b) s = .next { s with ret := .timing ⟨1, 5, 7, 7, 4⟩ }) ∧
    (b = 1000000 → exec (.resolve b) s = .next { s with ret := .timing ⟨1, 2, 4, 3, 4⟩ }) ∧
    (b ≠ 500000 → b ≠ 1000000 →
      exec (.resolve b) s = .next { s with ret := .unsupported, raised := s.raised ++ [.unsupported b] })

/-- Every record RESOLVE returns is within the device's limits (R203). -/
def Obligations.ResolvedTimingIsWithinLimits : Prop :=
  ∀ (b : Word) (tp : Timing), resolveRate b = some tp →
    1 ≤ tp.propSeg.toNat + tp.phaseSeg1.toNat ∧ tp.propSeg.toNat + tp.phaseSeg1.toNat ≤ 32 ∧
    1 ≤ tp.phaseSeg2.toNat ∧ tp.phaseSeg2.toNat ≤ 8 ∧ 1 ≤ tp.brp.toNat ∧ tp.brp.toNat ≤ 64 ∧ tp.syncSeg = 1

/-- SET_BIT_RATE with a supported rate, in Stopped and undisturbed, completes: the five timing writes, then the
reset pulse; the peripheral's timing registers and its latched timing are the record; the block holds the record
and is configured; the response is success; nothing else of the block changes (R204, R205). -/
def Obligations.SetBitRateProgramsAndPulses : Prop :=
  ∀ (s : State) (b : Word) (tp : Timing), s.Undisturbed → s.mode = .stopped → resolveRate b = some tp →
    ∃ t, exec (.setBitRate b) s = .next t ∧
      t.bus = s.bus ++ timingHold s.params.layout tp ++ pulseHold s.params.layout ∧
      t.block = { s.block with timing := tp, bitrateConfigured := true } ∧
      t.periph.regs = tp ∧ t.periph.latched = tp ∧ t.responses = s.responses ++ [0x0000000000] ∧
      t.out = s.out ∧ t.raised = s.raised ∧ t.callRegs = s.callRegs ∧ t.inputs = s.inputs ∧ t.lock = .free

/-- However other agents interleave, a SET_BIT_RATE that answers either leaves the bus alone (refused outside
Stopped, or Unsupported) or has written all five timing registers and then pulsed the reset (R205 to R207). -/
def Obligations.TimingIsNeverWrittenWithoutThePulse : Prop :=
  ∀ (s t : State) (b : Word), exec (.setBitRate b) s = .next t →
    ((s.mode ≠ .stopped ∨ resolveRate b = none) ∧ t.bus = s.bus ∧ t.block = s.block ∧ t.periph = s.periph) ∨
    (∃ tp, resolveRate b = some tp ∧ t.bus = s.bus ++ timingHold s.params.layout tp ++ pulseHold s.params.layout ∧
      t.block = { s.block with timing := tp, bitrateConfigured := true })

/-- SET_BIT_RATE with an unsupported rate, in Stopped, changes nothing but its response, status 1, and the report
(R204, R206, R282); that Unsupported is recorded once, though R281 names RESOLVE as raising it too, is the model's
reading (log 18). -/
def Obligations.UnsupportedRateChangesNothing : Prop :=
  ∀ (s : State) (b : Word), s.mode = .stopped → b ≠ 500000 → b ≠ 1000000 →
    exec (.setBitRate b) s = .next { s with
      responses := s.responses ++ [0x0100000000], raised := s.raised ++ [.unsupported b] }

/-- A request outside its mode is refused, which changes nothing but the mark of the refusal (log 19): SET_BIT_RATE
and START when not Stopped, DRAIN when not Draining, STOP when Stopped; a format N operation with a nonzero arg is
refused in every mode, and so, by the model's choice (log 27), is TIMER_FIRE when no timer is pending (R231, R207,
R140). -/
def Obligations.RequestsOutsideTheirMode : Prop :=
  ∀ (s : State) (w : Word),
    let marked (r : Rejection) : State := { s with rejections := s.rejections ++ [r] }
    (s.mode ≠ .stopped → exec (.setBitRate w) s = .next (marked .outsideMode) ∧
      exec (.start 0) s = .next (marked .outsideMode)) ∧
    (s.schedBusy = false → s.mode ≠ .draining → exec (.drain w) s = .next (marked .outsideMode)) ∧
    (s.schedBusy = false → s.mode = .stopped → exec (.stop 0) s = .next (marked .outsideMode)) ∧
    (s.schedBusy = false → s.timerArmed = false → exec (.timerFire 0) s = .next (marked .timerNotPending)) ∧
    (w ≠ 0 → exec (.start w) s = .next (marked .nonzeroArg) ∧
      exec (.timerFire w) s = .next (marked .nonzeroArg) ∧
      exec (.stop w) s = .next (marked .nonzeroArg))

/-- While a procedure runs, DRAIN, STOP and TIMER_FIRE are held: the call waits at the head of the inbox and
nothing else changes (R231, R261; that the hold comes before the mode check is log 13, the head of the inbox log 14). -/
def Obligations.CallsAreHeldWhileBusy : Prop :=
  ∀ (s : State) (b : Word), s.schedBusy = true →
    exec (.drain b) s = .next { s with inbox := ⟨.port, encode (.drain b)⟩ :: s.inbox } ∧
    exec (.stop 0) s = .next { s with inbox := ⟨.port, encode (.stop 0)⟩ :: s.inbox } ∧
    exec (.timerFire 0) s = .next { s with inbox := ⟨.timer, encode (.timerFire 0)⟩ :: s.inbox }

/-! ### Error-log throttle -/

/-- LOG_THROTTLED completes in every state: it emits exactly when no report was made since START or at least 15 s
of the monotonic clock have passed since the last emitted one, and then moves the window; a suppressed call changes
no state (R216). -/
def Obligations.LogThrottledResult : Prop :=
  ∀ s : State,
    (s.lastLogValid = false ∨ 15000000000 ≤ s.clockNow.mono - s.lastLogTime →
      exec .logThrottled s = .next { s with
        out := s.out ++ [.log s.args.category], lastLogTime := s.clockNow.mono, lastLogValid := true,
        ret := .logged true, draws := s.draws + 1 }) ∧
    (s.lastLogValid = true → s.clockNow.mono - s.lastLogTime < 15000000000 →
      exec .logThrottled s = .next { s with ret := .logged false, draws := s.draws + 1 })

/-- One window for all categories: a call less than 15 s after an emitted report is suppressed whatever the two
categories are, it does not move the window, and a third call at least 15 s after the first emits again
(R217, R219). -/
def Obligations.OneWindowForAllCategories : Prop :=
  ∀ (s : State) (a b c : LogCategory) (wall m1 m2 m3 : Time),
    logEmits { s with clock := some ⟨wall, m1⟩ } = true → m2 - m1 < 15000000000 → 15000000000 ≤ m3 - m1 →
    let s1 := logThrottled a { s with clock := some ⟨wall, m1⟩ }
    let s2 := logThrottled b { s1 with clock := some ⟨wall, m2⟩ }
    let s3 := logThrottled c { s2 with clock := some ⟨wall, m3⟩ }
    s1.out = s.out ++ [.log a] ∧ s2.out = s1.out ∧ s2.lastLogTime = m1 ∧ s3.out = s1.out ++ [.log c]

/-- CHECK_STATUS without a missed-frame condition completes: no bus access; a nonzero error status is reported and
logged through the throttle, and nothing else happens; with no error either the state is unchanged (R221, R286). -/
def Obligations.CheckStatusWithoutMissedFrames : Prop :=
  ∀ s : State, srValidBit .errorStatus s.srValid = true → srValidBit .missedStatus s.srValid = true →
    missedCount s.params.layout s.snap.missedStatus = 0 →
    missedOverflow s.params.layout s.snap.missedStatus = false →
    (s.snap.errorStatus = 0 → exec .checkStatus s = .next s) ∧
    (s.snap.errorStatus ≠ 0 → exec .checkStatus s =
      .next (logThrottled .peripheral { s with raised := s.raised ++ [.peripheralError s.snap.errorStatus] }))

/-- CHECK_STATUS with a missed-frame condition, undisturbed and with pinned clocks, completes: at most one report
is emitted, of the first condition in the order error status, missed count, overflow; RecordMissed follows; then
the reset pulse, logged or not (R221, R284, R217). -/
def Obligations.CheckStatusWithMissedFrames : Prop :=
  ∀ (s : State) (c : ClockReading), s.Undisturbed → s.clock = some c →
    srValidBit .errorStatus s.srValid = true → srValidBit .missedStatus s.srValid = true →
    (missedCount s.params.layout s.snap.missedStatus ≠ 0 ∨
      missedOverflow s.params.layout s.snap.missedStatus = true) →
    ∃ t, exec .checkStatus s = .next t ∧
      t.out = s.out ++ (if logEmits s then
          [.log (if s.snap.errorStatus ≠ 0 then .peripheral
                 else if missedCount s.params.layout s.snap.missedStatus ≠ 0 then .missed
                 else .missedOverflow)] else []) ++
        [.recordMissed ((missedCount s.params.layout s.snap.missedStatus).setWidth 32)
          (missedOverflow s.params.layout s.snap.missedStatus)] ∧
      t.bus = s.bus ++ pulseHold s.params.layout ∧
      t.raised = s.raised ++ (if s.snap.errorStatus ≠ 0 then [.peripheralError s.snap.errorStatus] else []) ++
        [.missedFrames (missedCount s.params.layout s.snap.missedStatus)
          (missedOverflow s.params.layout s.snap.missedStatus)] ∧
      t.block = { s.block with
        lastLogValid := s.lastLogValid || logEmits s
        lastLogTime := if logEmits s then c.mono else s.lastLogTime } ∧
      t.responses = s.responses ∧ t.callRegs = s.callRegs ∧ t.inputs = s.inputs ∧ t.lock = .free

/-- However other agents interleave, and whether or not anything was logged, a CHECK_STATUS that answers has pulsed
the reset exactly when there was a missed-frame condition, and writes no block state but the throttle's (R221,
R223). -/
def Obligations.MissedFramesAlwaysPulse : Prop :=
  ∀ s t : State, exec .checkStatus s = .next t →
    t.bus = s.bus ++ (if missedCount s.params.layout s.snap.missedStatus ≠ 0 ∨
        missedOverflow s.params.layout s.snap.missedStatus = true
      then pulseHold s.params.layout else []) ∧
    t.block = { s.block with lastLogValid := t.lastLogValid, lastLogTime := t.lastLogTime } ∧
    t.responses = s.responses ∧ t.callRegs = s.callRegs

/-! ### Poll scheduler -/

/-- START in Stopped with a configured bit rate completes: the base is captured, PollState is created in Armed with
no report yet, the timer is armed one interval after the next monotonic reading, and the response is success; no
bus access, no output, nothing else changes (R233). -/
def Obligations.StartResult : Prop :=
  ∀ s : State, s.mode = .stopped → s.bitrateConfigured = true →
    exec (.start 0) s = .next { s with
      base := s.clockNow.wall - s.clockNow.mono, baseValid := true, budgetRemaining := 0, drained := 0,
      lastLogValid := false, mode := .armed,
      timerDeadline := State.monoNow { s with draws := s.draws + 1 } + Config.pollInterval, timerArmed := true,
      draws := s.draws + 2, responses := s.responses ++ [0x0000000000] }

/-- START without a bit rate changes no state, and responds with StartFailed, code 6 (R234, R287). -/
def Obligations.StartWithoutABitRate : Prop :=
  ∀ s : State, s.mode = .stopped → s.bitrateConfigured = false →
    exec (.start 0) s = .next { s with
      raised := s.raised ++ [.startFailed], responses := s.responses ++ [0x0600000000] }

/-- What a TIMER_FIRE with a pending timer leaves, however other agents interleave: one READ_STATUS and, exactly on a
missed-frame condition, one reset pulse; occupancy 0 re-arms the timer, keeps the mode and asks for no poll; any other
occupancy goes to Draining with the timer disarmed and ends with its one PollRequest; before that it delivers nothing,
and emits RecordMissed exactly on a missed-frame condition (R221), and Log events; the procedure is over; no response;
of the holding registers only SR[0..2] change (R151, R24); the base, the timing record and the budget registers are
untouched; and it completes whenever the block runs alone (R236, R237), re-arming, with the clocks pinned, to one
POLL_INTERVAL_NS after the monotonic reading (R235). -/
def Obligations.TimerFireResult : Prop :=
  ∀ s : State, s.timerArmed = true → s.schedBusy = false →
    (s.Undisturbed → ∃ t, exec (.timerFire 0) s = .next t) ∧
    ∀ t, exec (.timerFire 0) s = .next t →
      t.bus = s.bus ++ statusHold t.snap ++
        (if missedCount s.params.layout t.snap.missedStatus ≠ 0 ∨
            missedOverflow s.params.layout t.snap.missedStatus = true
          then pulseHold s.params.layout else []) ∧
      (∃ reports, t.out = s.out ++ reports ++
          (if bufferUsage s.params.layout t.snap.bufferStatus = 0 then [] else [.pollRequest]) ∧
        withoutLogs reports = (if missedCount s.params.layout t.snap.missedStatus ≠ 0 ∨
            missedOverflow s.params.layout t.snap.missedStatus = true
          then [.recordMissed ((missedCount s.params.layout t.snap.missedStatus).setWidth 32)
            (missedOverflow s.params.layout t.snap.missedStatus)] else []) ∧
        delivered reports = [] ∧ .pollRequest ∉ reports) ∧
      t.schedBusy = false ∧ t.responses = s.responses ∧ t.callRegs = s.callRegs ∧
      (bufferUsage s.params.layout t.snap.bufferStatus = 0 → t.mode = s.mode ∧ t.timerArmed = true ∧
        ∀ c, s.Undisturbed → s.clock = some c → t.timerDeadline = c.mono + Config.pollInterval) ∧
      (bufferUsage s.params.layout t.snap.bufferStatus ≠ 0 →
        t.mode = .draining ∧ t.timerArmed = false ∧ t.timerDeadline = s.timerDeadline) ∧
      t.snap = { s.snap with bufferStatus := t.snap.bufferStatus, errorStatus := t.snap.errorStatus,
                             missedStatus := t.snap.missedStatus } ∧
      t.block = { s.block with
        snap := t.snap, srValid := s.srValid ||| 0b111, mode := t.mode, timerArmed := t.timerArmed,
        timerDeadline := t.timerDeadline, lastLogValid := t.lastLogValid, lastLogTime := t.lastLogTime }

/-- What a DRAIN in Draining leaves, however other agents interleave: drained + budget_remaining = budget and drained
<= budget; the response carries drained; fewer than the budget goes back to Armed with the timer armed, a full budget
stays in Draining without arming it; the procedure is over; base, timing and configuration are untouched. Every
snapshot the burst read with nonzero occupancy was examined by CHECK_STATUS, with its RecordMissed and its reset pulse
exactly on a missed-frame condition, before its event was handed over, and the burst went on after the pulse (R222,
R239, R243 (5)); it ended at the budget, at the one failed allocation or at the one snapshot that showed occupancy 0,
which nobody examined (R240, R241). After a budget other than 0 every valid bit is set and the holding registers hold
the last of these snapshots (R153, R24). And it completes whenever the block runs alone with a captured base (R33,
R238, R241, R242), arming, with the clocks pinned, to one POLL_INTERVAL_NS after the monotonic reading (R235). -/
def Obligations.DrainResult : Prop :=
  ∀ (s : State) (b : Word), s.mode = .draining → s.schedBusy = false →
    (s.Undisturbed → s.baseValid = true → ∃ t, exec (.drain b) s = .next t) ∧
    ∀ t, exec (.drain b) s = .next t →
      t.drained.toNat + t.budgetRemaining.toNat = b.toNat ∧
      t.responses = s.responses ++ [responseWord 0 t.drained] ∧ t.schedBusy = false ∧
      (t.drained.toNat < b.toNat → t.mode = .armed ∧ t.timerArmed = true ∧
        ∀ c, s.Undisturbed → s.clock = some c → t.timerDeadline = c.mono + Config.pollInterval) ∧
      (t.drained = b → t.mode = .draining ∧ t.timerArmed = s.timerArmed ∧ t.timerDeadline = s.timerDeadline) ∧
      (∃ handed dropped emptied, BurstTrace s t handed dropped emptied ∧
        t.drained.toNat = handed.length + dropped.length ∧
        (t.drained.toNat < b.toNat → dropped.length + emptied.length = 1) ∧
        (emptied ≠ [] → t.drained.toNat < b.toNat) ∧
        (b ≠ 0 → t.srValid = 0b11111111111 ∧ (handed ++ dropped ++ emptied).getLast? = some t.snap)) ∧
      t.base = s.base ∧ t.baseValid = s.baseValid ∧ t.timing = s.timing ∧
      t.bitrateConfigured = s.bitrateConfigured ∧ t.callRegs = s.callRegs

/-- A DRAIN begins at most 2 * budget lock holds (R332). -/
def Obligations.DrainHoldsAreBounded : Prop :=
  ∀ (s t : State) (b : Word), s.mode = .draining → s.schedBusy = false → exec (.drain b) s = .next t →
    holdCount t.bus ≤ holdCount s.bus + 2 * b.toNat

/-- A DRAIN with budget 0 reads no register, drains nothing and stays in Draining (R243 (1)). -/
def Obligations.DrainOfBudgetZero : Prop :=
  ∀ s : State, s.mode = .draining → s.schedBusy = false →
    exec (.drain 0) s = .next { s with
      budgetRemaining := 0, drained := 0, responses := s.responses ++ [0x0000000000] }

/-- A DRAIN whose first snapshot shows occupancy 0 delivers nothing, examines nothing, and goes back to Armed with
drained = 0 (R238, R243 (6), R291). -/
def Obligations.DrainOfAnEmptyFifoStopsEarly : Prop :=
  ∀ (s s1 : State) (b : Word), s.mode = .draining → s.schedBusy = false → b ≠ 0 →
    readFrame { s with schedBusy := true, budgetRemaining := b, drained := 0 } = .next s1 →
    bufferUsage s.params.layout s1.snap.bufferStatus = 0 →
    ∃ t, exec (.drain b) s = .next t ∧ t.drained = 0 ∧ t.mode = .armed ∧ t.timerArmed = true ∧
      t.out = s.out ∧ t.raised = s.raised ∧ t.bus = s.bus ++ frameHold t.snap

/-- A failed allocation drops the snapshot, counts it and ends the burst, in whichever iteration it falls and whatever
the burst would have gone on with; no error reaches the caller (R238, R240, R285).  A DRAIN whose first allocation
fails delivers nothing.  Over the reference peripheral (premise, R75) with no error or missed-frame status, a DRAIN
running alone whose allocation after k successful ones fails delivers the first k entries, has consumed k + 1 and
responds k + 1, and goes back to Armed unless that was the whole budget (R243 (3)). -/
def Obligations.FailedAllocationEndsTheBurst : Prop :=
  (∀ (again : State → Answer) (s s1 s2 : State), readFrame s = .next s1 →
    bufferUsage s.params.layout s1.snap.bufferStatus ≠ 0 → checkStatus s1 = .next s2 → s2.allocOk = false →
    ∃ t, drainIteration again s = .next t ∧ t.drained = s.drained + 1 ∧
      t.budgetRemaining = s.budgetRemaining - 1 ∧ t.out = s2.out ∧ t.bus = s2.bus ∧
      t.raised = s2.raised ++ [.allocationFailure]) ∧
  (∀ (s s1 s2 : State) (b : Word), s.mode = .draining → s.schedBusy = false → b ≠ 0 →
    readFrame { s with schedBusy := true, budgetRemaining := b, drained := 0 } = .next s1 →
    bufferUsage s.params.layout s1.snap.bufferStatus ≠ 0 → checkStatus s1 = .next s2 → s2.allocOk = false →
    ∃ t, exec (.drain b) s = .next t ∧ t.drained = 1 ∧ t.out = s2.out ∧ t.bus = s2.bus ∧
      t.raised = s2.raised ++ [.allocationFailure] ∧ t.responses = s.responses ++ [0x0000000001]) ∧
  (∀ (s : State) (b : Word) (k : Nat) (rest : List Bool), s.Undisturbed → s.mode = .draining → s.schedBusy = false →
    s.baseValid = true → s.periph.source = .reference → s.periph.fifo.length < 65536 →
    s.periph.errst = 0 → s.periph.missed = 0 → s.periph.missedOvf = false →
    k < min s.periph.fifo.length b.toNat → s.allocs = List.replicate k true ++ false :: rest →
    ∃ t, exec (.drain b) s = .next t ∧ t.drained.toNat = k + 1 ∧
      delivered t.out = delivered s.out ++ (s.periph.fifo.take k).map (eventOfEntry s.params s.base) ∧
      t.periph = { s.periph with fifo := s.periph.fifo.drop (k + 1) } ∧ t.allocs = rest ∧
      t.raised.count .allocationFailure = s.raised.count .allocationFailure + 1 ∧
      t.mode = (if k + 1 < b.toNat then .armed else .draining) ∧
      t.responses = s.responses ++ [responseWord 0 (BitVec.ofNat 32 (k + 1))])

/-- What one drained event hands over: a Frame gives Deliver and RecordStats of its dlc; an ErrorEvent gives
RecordError, at most one throttled report of its sub-code's category, and Deliver, and never RecordStats
(R239, R191, R264); that ProtocolError is recorded once, though R281 names DECODE as raising it too, is the model's
reading (log 18). -/
def Obligations.DrainedEventIsHandedOver : Prop :=
  ∀ (s : State) (ev : DecodedEvent), decodeEvent s = .ok ev →
    ∃ t, processEvent s = .next t ∧
      (∀ f, ev = .frame f → t = { s with out := s.out ++ [.deliver ev, .recordStats (f.dlc.setWidth 32)] }) ∧
      (∀ e, ev = .error e →
        t.out = s.out ++ [.recordError] ++
          (if logEmits s then [.log (.protocol (topKind s.params.layout s.snap.frameType))] else []) ++ [.deliver ev] ∧
        t.raised = s.raised ++ [.protocolError e.subcode e.kindFlags] ∧ t.bus = s.bus)

/-- The drain properties S5 and S6 for every FIFO content and budget, over the reference peripheral (premise, R75)
with no error or missed-frame status: running alone, with the allocations it needs, DRAIN delivers exactly the
first min(queued, budget) entries, decoded and in FIFO order, each once, and consumes exactly those; it goes back
to Armed when fewer than the budget were queued and stays in Draining otherwise (R238, R241, R243). -/
def Obligations.DrainDeliversTheQueuedFrames : Prop :=
  ∀ (s : State) (b : Word) (rest : List Bool), s.Undisturbed → s.mode = .draining → s.schedBusy = false →
    s.baseValid = true → s.periph.source = .reference → s.periph.fifo.length < 65536 →
    s.periph.errst = 0 → s.periph.missed = 0 → s.periph.missedOvf = false →
    s.allocs = List.replicate (min s.periph.fifo.length b.toNat) true ++ rest →
    ∃ t, exec (.drain b) s = .next t ∧
      t.drained.toNat = min s.periph.fifo.length b.toNat ∧
      delivered t.out = delivered s.out ++ (s.periph.fifo.take b.toNat).map (eventOfEntry s.params s.base) ∧
      t.periph = { s.periph with fifo := s.periph.fifo.drop b.toNat } ∧
      t.mode = (if s.periph.fifo.length < b.toNat then .armed else .draining) ∧ t.allocs = rest

/-- STOP in Armed or Draining with no procedure running completes: the timer is cancelled, the mode is Stopped, the
response is success; no bus access, no output, everything else keeps its value (R244). -/
def Obligations.StopResult : Prop :=
  ∀ s : State, s.schedBusy = false → s.mode ≠ .stopped →
    exec (.stop 0) s = .next { s with
      timerArmed := false, mode := .stopped, responses := s.responses ++ [0x0000000000] }

/-! ### The whole machine -/

/-- In Stopped with no timer pending, no step touches the bus or emits an event, until a SET_BIT_RATE (or an
internal operation placed by hand) is served: STOP is synchronous (R245, R267). -/
def Obligations.StoppedBlockIsQuiet : Prop :=
  ∀ s t : State, s.mode = .stopped → s.timerArmed = false →
    (∀ c ∈ s.inbox, c.via ≠ .internal ∧ wordOp c.word ≠ 0x31) → step s = .next t →
    t.bus = s.bus ∧ t.out = s.out ∧ t.timing = s.timing

/-- Which operation may change the mode, and how (R30, R231). -/
def Obligations.ModeChangesOnlyByTheScheduler : Prop :=
  ∀ (i : Instr) (s t : State), s.Inv → exec i s = .next t → t.mode ≠ s.mode →
    (i = .start 0 ∧ s.mode = .stopped ∧ t.mode = .armed) ∨
    (i = .timerFire 0 ∧ s.mode = .armed ∧ t.mode = .draining) ∨
    (∃ b, i = .drain b ∧ s.mode = .draining ∧ t.mode = .armed) ∨
    (i = .stop 0 ∧ s.mode ≠ .stopped ∧ t.mode = .stopped)

/-- The writers of the special registers: the base only by CAPTURE_BASE and START, the timing record only by
SET_BIT_RATE, the holding registers only by READ_STATUS, READ_FRAME and the procedures that call them, the
throttle only by LOG_THROTTLED, CHECK_STATUS, START, TIMER_FIRE and DRAIN, the budget registers only by START and
DRAIN, the mode and the armed flag of the timer only by START, TIMER_FIRE, DRAIN and STOP, its deadline only by START,
TIMER_FIRE and DRAIN (R24, R30, R32, R34 to R37, R39, R45, R296); `sched_busy` is set and cleared inside TIMER_FIRE and
DRAIN, so every whole operation leaves it as it was (R31; log 10); the parameters by nothing (R8; log 28). -/
def Obligations.EachRegisterHasItsWriters : Prop :=
  ∀ (i : Instr) (s t : State), exec i s = .next t → t.params = s.params ∧
    ((t.base ≠ s.base ∨ t.baseValid ≠ s.baseValid) → i = .captureBase ∨ i = .start 0) ∧
    ((t.timing ≠ s.timing ∨ t.bitrateConfigured ≠ s.bitrateConfigured) → ∃ b, i = .setBitRate b) ∧
    ((t.snap ≠ s.snap ∨ t.srValid ≠ s.srValid) →
      i = .readStatus ∨ i = .readFrame ∨ i = .timerFire 0 ∨ ∃ b, i = .drain b) ∧
    ((t.lastLogValid ≠ s.lastLogValid ∨ t.lastLogTime ≠ s.lastLogTime) →
      i = .logThrottled ∨ i = .checkStatus ∨ i = .start 0 ∨ i = .timerFire 0 ∨ ∃ b, i = .drain b) ∧
    ((t.budgetRemaining ≠ s.budgetRemaining ∨ t.drained ≠ s.drained) → i = .start 0 ∨ ∃ b, i = .drain b) ∧
    ((t.mode ≠ s.mode ∨ t.timerArmed ≠ s.timerArmed) →
      i = .start 0 ∨ i = .timerFire 0 ∨ i = .stop 0 ∨ ∃ b, i = .drain b) ∧
    (t.timerDeadline ≠ s.timerDeadline → i = .start 0 ∨ i = .timerFire 0 ∨ ∃ b, i = .drain b) ∧
    t.schedBusy = s.schedBusy

/-- Every step keeps the invariants of R46, and with them the lock is never the block's between operations; the
parameters stay ones the spec allows (R8; log 28). -/
def Obligations.StepKeepsTheInvariants : Prop :=
  ∀ s t : State, s.Inv → step s = .next t → t.Inv

/-- Every step keeps the bus trace a sequence of whole lock holds of the four shapes: every access under the lock,
the eleven reads of a frame in order with the barrier before data-high, no timing or strobe write outside its
sequence (R157, R69, R71, R73, R314, R315). -/
def Obligations.StepKeepsTheBusDiscipline : Prop :=
  ∀ s t : State, WholeHolds s.params.layout s.bus → step s = .next t → WholeHolds t.params.layout t.bus

/-- Every step keeps the reference FIFO within FIFO_DEPTH (R76). -/
def Obligations.StepKeepsTheFifoBounded : Prop :=
  ∀ s t : State, s.periph.Bounded → step s = .next t → t.periph.Bounded

/-- The machine after power-on has the reset values the spec gives: Stopped, no procedure, no timer, no bit rate,
no base, no snapshot, no report, lock free (R47, R310); so it meets the invariants and its FIFO is bounded (its empty
FIFO is the model's choice, log 7; its depth is log 8, its parameters are log 28).  Its traces and marks are empty, the
model's reading of a run that has not begun (log 17). -/
def Obligations.ResetMeetsTheInvariants : Prop :=
  (State.reset.mode = .stopped ∧ State.reset.schedBusy = false ∧ State.reset.timerArmed = false ∧
    State.reset.bitrateConfigured = false ∧ State.reset.baseValid = false ∧ State.reset.srValid = 0 ∧
    State.reset.lastLogValid = false ∧ State.reset.lock = .free) ∧
  (State.reset.bus = [] ∧ State.reset.out = [] ∧ State.reset.responses = [] ∧ State.reset.raised = [] ∧
    State.reset.rejections = []) ∧
  State.reset.Inv ∧ State.reset.periph.Bounded ∧ WholeHolds State.reset.params.layout State.reset.bus
end

