-- ==== Sys2Proof/Laws/Decode.lean ====
section
/-!
SUPPORT. Taking words and the decoder apart (30_encoding.md R131, R140): later proofs cite these instead of splitting
the decoder's chain of tags.
-/

namespace Sys2Proof

/-! ### The two fields of a word -/

@[simp] theorem wordOp_makeWord (op : Byte) (arg : Word) : wordOp (makeWord op arg) = op := by
  ext i hi
  simp only [wordOp, makeWord, BitVec.getElem_extractLsb']
  rw [BitVec.getLsbD_append]
  simp [BitVec.getLsbD_eq_getElem hi]

@[simp] theorem wordArg_makeWord (op : Byte) (arg : Word) : wordArg (makeWord op arg) = arg := by
  ext i hi
  simp only [wordArg, makeWord, BitVec.getElem_extractLsb']
  rw [BitVec.getLsbD_append]
  simp [hi, BitVec.getLsbD_eq_getElem]

/-- A word is its two fields. -/
theorem makeWord_fields (w : PortWord) : makeWord (wordOp w) (wordArg w) = w := by
  apply BitVec.eq_of_getLsbD_eq
  intro i hi
  simp only [makeWord, wordOp, wordArg, BitVec.getLsbD_append, BitVec.getLsbD_extractLsb']
  by_cases h : i < 32
  · simp [h]
  · simp [h, show i - 32 < 8 by omega, show 32 + (i - 32) = i by omega]

/-! ### The decoder -/

/-- The two ways an `if` can give a value, without unfolding its branches. -/
theorem ite_eq_cases {α : Type} {c : Prop} [Decidable c] {a b x : α} (h : (if c then a else b) = x) :
    (c ∧ a = x) ∨ (¬c ∧ b = x) := by
  by_cases hc : c
  · exact .inl ⟨hc, by rw [if_pos hc] at h; exact h⟩
  · exact .inr ⟨hc, by rw [if_neg hc] at h; exact h⟩

/-- An operation's term with the operand a word carries: what the decoder makes of a tag it knows. -/
def withArg (i : Instr) (arg : Word) : Instr :=
  match i with
  | .resolve _ => .resolve arg
  | .setBitRate _ => .setBitRate arg
  | .start _ => .start arg
  | .timerFire _ => .timerFire arg
  | .drain _ => .drain arg
  | .stop _ => .stop arg
  | .readStatus => .readStatus
  | .readFrame => .readFrame
  | .writeTiming => .writeTiming
  | .pulseReset => .pulseReset
  | .captureBase => .captureBase
  | .toAbsolute => .toAbsolute
  | .decode => .decode
  | .logThrottled => .logThrottled
  | .checkStatus => .checkStatus

/-- The three format N tags (R131). -/
def isFormatN (op : Byte) : Bool := op == tagStart || op == tagTimerFire || op == tagStop

/-- Everything the decoder can answer: an operation whose tag the word has, with the word's operand, which is 0
where the format wants it to be; a format N tag with a nonzero operand; or no tag of the table. -/
theorem decode_cases (w : PortWord) :
    (∃ i, decode w = .ok i ∧ opTag i = wordOp w ∧ withArg i (wordArg w) = i ∧
      (isFormatN (wordOp w) = true → wordArg w = 0)) ∨
    (decode w = .error .nonzeroArg ∧ isFormatN (wordOp w) = true ∧ wordArg w ≠ 0) ∨
    (decode w = .error .unassignedTag ∧ ∀ i, opTag i ≠ wordOp w) := by
  obtain ⟨r, hr⟩ : ∃ r, decode w = r := ⟨_, rfl⟩
  have h := hr
  unfold decode at h
  rw [hr]
  generalize wordOp w = op at *
  generalize wordArg w = arg at *
  dsimp only at h
  iterate 15
    rcases ite_eq_cases h with ⟨ho, hv⟩ | ⟨hn, h⟩
    on_goal 1 =>
      first
        | exact .inl ⟨_, hv.symm, ho.symm, rfl, fun hN => absurd hN (by rw [ho]; decide)⟩
        | (rcases ite_eq_cases hv with ⟨h0, hv⟩ | ⟨h0, hv⟩
           · exact .inl ⟨_, hv.symm, ho.symm, rfl, fun _ => h0⟩
           · exact .inr (.inl ⟨hv.symm, by rw [ho]; decide, h0⟩))
  refine .inr (.inr ⟨h.symm, fun i => ?_⟩)
  cases i <;> exact Ne.symm (by assumption)

end Sys2Proof
end

