-- ==== Sys2Proof/Laws/Layout.lean ====
section
/-!
SUPPORT. Fields of register words, said once: a field put into a word is read back, whatever its position, and a
word of a single field leaves the fields that share no bit with it at 0 (30_encoding.md R102 to R114).
-/

namespace Sys2Proof.Machine

/-- A field that fits is read back from its word. -/
theorem fieldAt_fieldWord {width : Nat} {position : Nat} (v : BitVec width) (h : position + width ≤ 32) :
    fieldAt position width (fieldWord position v) = v := by
  apply BitVec.eq_of_getLsbD_eq
  intro i hi
  have h1 : position + i < 32 := by omega
  simp [fieldAt, fieldWord, hi, h1]

@[simp] theorem fieldWord_zero (width position : Nat) : fieldWord position (0#width) = 0#32 := by
  simp [fieldWord]

@[simp] theorem fieldAt_zero (position width : Nat) : fieldAt position width 0#32 = 0#width := by
  simp [fieldAt]

/-- A bit of a word with one field: that of the field, or 0 outside it. -/
theorem getLsbD_fieldWord {width : Nat} (position : Nat) (v : BitVec width) (i : Nat) (h : i < 32) :
    (fieldWord position v).getLsbD i = (decide (position ≤ i) && v.getLsbD (i - position)) := by
  by_cases hp : position ≤ i <;> simp [fieldWord, h, hp]

/-- The occupancy is read back from the buffer-status word (R80, R103). -/
@[simp] theorem bufferUsage_bufferStatusWord (lay : Layout) (n : Nat) :
    bufferUsage lay (bufferStatusWord lay n) = BitVec.ofNat 16 n :=
  fieldAt_fieldWord _ (by have := lay.bufferUsage.isLt; omega)

/-- The count and the overflow bit are read back from the missed-status word (R80, R105). -/
theorem missed_readBack {lay : Layout} (h : admissibleLayout lay = true) (n : BitVec 31) (o : Bool) :
    missedCount lay (missedStatusWord lay n o) = n ∧ missedOverflow lay (missedStatusWord lay n o) = o := by
  have hd : lay.missedCount.val + 31 ≤ lay.missedOverflow.val ∨ lay.missedOverflow.val + 1 ≤ lay.missedCount.val := by
    simp only [admissibleLayout, disjointFields, Bool.and_eq_true, decide_eq_true_eq] at h
    simpa using h.1.1
  have hc := lay.missedCount.isLt
  have ho := lay.missedOverflow.isLt
  constructor
  · apply BitVec.eq_of_getLsbD_eq
    intro i hi
    have h1 : lay.missedCount.val + i < 32 := by omega
    simp only [missedCount, fieldAt, missedStatusWord, BitVec.getLsbD_extractLsb', hi, decide_true, Bool.true_and,
      BitVec.getLsbD_or, getLsbD_fieldWord _ _ _ h1]
    have e : lay.missedCount.val + i - lay.missedCount.val = i := by omega
    have z : (decide (lay.missedOverflow.val ≤ lay.missedCount.val + i) &&
        (BitVec.ofBool o).getLsbD (lay.missedCount.val + i - lay.missedOverflow.val)) = false := by
      by_cases hle : lay.missedOverflow.val ≤ lay.missedCount.val + i
      · have : 1 ≤ lay.missedCount.val + i - lay.missedOverflow.val := by omega
        rw [BitVec.getLsbD_of_ge _ _ this, Bool.and_false]
      · simp [hle]
    rw [e, z]
    simp
  · simp only [missedOverflow, missedStatusWord, BitVec.getLsbD_or, getLsbD_fieldWord _ _ _ ho]
    have z : (decide (lay.missedCount.val ≤ lay.missedOverflow.val) &&
        n.getLsbD (lay.missedOverflow.val - lay.missedCount.val)) = false := by
      by_cases hle : lay.missedCount.val ≤ lay.missedOverflow.val
      · have : 31 ≤ lay.missedOverflow.val - lay.missedCount.val := by omega
        rw [BitVec.getLsbD_of_ge _ _ this, Bool.and_false]
      · simp [hle]
    rw [z]
    cases o <;> simp

/-- A clear missed-status word has no missed-frame condition, whatever the layout (R221). -/
@[simp] theorem missedCondition_zero (lay : Layout) : missedCondition lay 0#32 = false := by
  simp [missedCondition, missedCount, missedOverflow, fieldAt]

@[simp] theorem missedStatusWord_clear (lay : Layout) : missedStatusWord lay 0#31 false = 0#32 := by
  simp [missedStatusWord, BitVec.ofBool]

/-- The assert word has the strobe bit set, the de-assert word is 0 (R114). -/
@[simp] theorem strobeAssert_bit (lay : Layout) : (strobeAssert lay).getLsbD lay.strobe = true := by
  rw [strobeAssert, getLsbD_fieldWord _ _ _ lay.strobe.isLt]
  simp

@[simp] theorem strobeDeassert_eq (lay : Layout) : strobeDeassert lay = 0#32 := fieldWord_zero 1 _

/-! ### The flags and the payload -/

/-- Bit k of the set of flags is the flag of kind k, wherever the layout has it (R182). -/
@[simp] theorem flagSet_getLsbD (lay : Layout) (k : ProtocolKind) (w : Word) :
    (flagSet lay w).getLsbD k.code.toNat = kindFlag lay k w := by
  have bits : ∀ s f a c : Bool, ∀ k : ProtocolKind,
      (BitVec.ofBool c ++ BitVec.ofBool a ++ BitVec.ofBool f ++ BitVec.ofBool s).getLsbD k.code.toNat =
        (match k with | .stuff => s | .form => f | .ack => a | .crc => c) := by
    intro s f a c k
    cases s <;> cases f <;> cases a <;> cases c <;> cases k <;> rfl
  rw [flagSet, bits]
  cases k <;> rfl

@[simp] theorem Payload.get_payloadOf (f : Nat → Byte) (i : Fin 8) : (payloadOf f).get i = f i.val := by
  fin_cases i <;> rfl

/-! ### The parameters of the machine -/

/-- The spec's own parameters are admissible, and so are those of the machine (R8, R125). -/
theorem admissible_default : admissibleParams Params.default = true := by decide

theorem admissible_params : admissibleParams Config.params = true := by
  unfold Config.params
  split
  · assumption
  · exact admissible_default

end Sys2Proof.Machine
end

