-- ==== Sys2Proof/Laws/State.lean ====
section
/-!
SUPPORT. One lemma per field of State and update operation: what the operation makes of the field.  Each is true by
unfolding the update once, so that no later proof does.
-/

namespace Sys2Proof.Machine

/-! ### `State.emit` -/

@[simp] theorem State.emit_snap (e : OutEvent) (s : State) : (s.emit e).snap = s.snap := rfl
@[simp] theorem State.emit_srValid (e : OutEvent) (s : State) : (s.emit e).srValid = s.srValid := rfl
@[simp] theorem State.emit_params (e : OutEvent) (s : State) : (s.emit e).params = s.params := rfl
@[simp] theorem State.emit_timing (e : OutEvent) (s : State) : (s.emit e).timing = s.timing := rfl
@[simp] theorem State.emit_bitrateConfigured (e : OutEvent) (s : State) :
    (s.emit e).bitrateConfigured = s.bitrateConfigured := rfl
@[simp] theorem State.emit_base (e : OutEvent) (s : State) : (s.emit e).base = s.base := rfl
@[simp] theorem State.emit_baseValid (e : OutEvent) (s : State) : (s.emit e).baseValid = s.baseValid := rfl
@[simp] theorem State.emit_mode (e : OutEvent) (s : State) : (s.emit e).mode = s.mode := rfl
@[simp] theorem State.emit_schedBusy (e : OutEvent) (s : State) : (s.emit e).schedBusy = s.schedBusy := rfl
@[simp] theorem State.emit_budgetRemaining (e : OutEvent) (s : State) :
    (s.emit e).budgetRemaining = s.budgetRemaining := rfl
@[simp] theorem State.emit_drained (e : OutEvent) (s : State) : (s.emit e).drained = s.drained := rfl
@[simp] theorem State.emit_timerArmed (e : OutEvent) (s : State) : (s.emit e).timerArmed = s.timerArmed := rfl
@[simp] theorem State.emit_timerDeadline (e : OutEvent) (s : State) :
    (s.emit e).timerDeadline = s.timerDeadline := rfl
@[simp] theorem State.emit_lastLogValid (e : OutEvent) (s : State) : (s.emit e).lastLogValid = s.lastLogValid := rfl
@[simp] theorem State.emit_lastLogTime (e : OutEvent) (s : State) : (s.emit e).lastLogTime = s.lastLogTime := rfl
@[simp] theorem State.emit_lock (e : OutEvent) (s : State) : (s.emit e).lock = s.lock := rfl
@[simp] theorem State.emit_periph (e : OutEvent) (s : State) : (s.emit e).periph = s.periph := rfl
@[simp] theorem State.emit_inbox (e : OutEvent) (s : State) : (s.emit e).inbox = s.inbox := rfl
@[simp] theorem State.emit_args (e : OutEvent) (s : State) : (s.emit e).args = s.args := rfl
@[simp] theorem State.emit_ret (e : OutEvent) (s : State) : (s.emit e).ret = s.ret := rfl
@[simp] theorem State.emit_agenda (e : OutEvent) (s : State) : (s.emit e).agenda = s.agenda := rfl
@[simp] theorem State.emit_clock (e : OutEvent) (s : State) : (s.emit e).clock = s.clock := rfl
@[simp] theorem State.emit_allocs (e : OutEvent) (s : State) : (s.emit e).allocs = s.allocs := rfl
@[simp] theorem State.emit_reads (e : OutEvent) (s : State) : (s.emit e).reads = s.reads := rfl
@[simp] theorem State.emit_draws (e : OutEvent) (s : State) : (s.emit e).draws = s.draws := rfl
@[simp] theorem State.emit_bus (e : OutEvent) (s : State) : (s.emit e).bus = s.bus := rfl
@[simp] theorem State.emit_out (e : OutEvent) (s : State) : (s.emit e).out = s.out ++ [e] := rfl
@[simp] theorem State.emit_responses (e : OutEvent) (s : State) : (s.emit e).responses = s.responses := rfl
@[simp] theorem State.emit_raised (e : OutEvent) (s : State) : (s.emit e).raised = s.raised := rfl
@[simp] theorem State.emit_rejections (e : OutEvent) (s : State) : (s.emit e).rejections = s.rejections := rfl

/-! ### `State.trace` -/

@[simp] theorem State.trace_snap (e : BusEvent) (s : State) : (s.trace e).snap = s.snap := rfl
@[simp] theorem State.trace_srValid (e : BusEvent) (s : State) : (s.trace e).srValid = s.srValid := rfl
@[simp] theorem State.trace_params (e : BusEvent) (s : State) : (s.trace e).params = s.params := rfl
@[simp] theorem State.trace_timing (e : BusEvent) (s : State) : (s.trace e).timing = s.timing := rfl
@[simp] theorem State.trace_bitrateConfigured (e : BusEvent) (s : State) :
    (s.trace e).bitrateConfigured = s.bitrateConfigured := rfl
@[simp] theorem State.trace_base (e : BusEvent) (s : State) : (s.trace e).base = s.base := rfl
@[simp] theorem State.trace_baseValid (e : BusEvent) (s : State) : (s.trace e).baseValid = s.baseValid := rfl
@[simp] theorem State.trace_mode (e : BusEvent) (s : State) : (s.trace e).mode = s.mode := rfl
@[simp] theorem State.trace_schedBusy (e : BusEvent) (s : State) : (s.trace e).schedBusy = s.schedBusy := rfl
@[simp] theorem State.trace_budgetRemaining (e : BusEvent) (s : State) :
    (s.trace e).budgetRemaining = s.budgetRemaining := rfl
@[simp] theorem State.trace_drained (e : BusEvent) (s : State) : (s.trace e).drained = s.drained := rfl
@[simp] theorem State.trace_timerArmed (e : BusEvent) (s : State) : (s.trace e).timerArmed = s.timerArmed := rfl
@[simp] theorem State.trace_timerDeadline (e : BusEvent) (s : State) :
    (s.trace e).timerDeadline = s.timerDeadline := rfl
@[simp] theorem State.trace_lastLogValid (e : BusEvent) (s : State) : (s.trace e).lastLogValid = s.lastLogValid := rfl
@[simp] theorem State.trace_lastLogTime (e : BusEvent) (s : State) : (s.trace e).lastLogTime = s.lastLogTime := rfl
@[simp] theorem State.trace_lock (e : BusEvent) (s : State) : (s.trace e).lock = s.lock := rfl
@[simp] theorem State.trace_periph (e : BusEvent) (s : State) : (s.trace e).periph = s.periph := rfl
@[simp] theorem State.trace_inbox (e : BusEvent) (s : State) : (s.trace e).inbox = s.inbox := rfl
@[simp] theorem State.trace_args (e : BusEvent) (s : State) : (s.trace e).args = s.args := rfl
@[simp] theorem State.trace_ret (e : BusEvent) (s : State) : (s.trace e).ret = s.ret := rfl
@[simp] theorem State.trace_agenda (e : BusEvent) (s : State) : (s.trace e).agenda = s.agenda := rfl
@[simp] theorem State.trace_clock (e : BusEvent) (s : State) : (s.trace e).clock = s.clock := rfl
@[simp] theorem State.trace_allocs (e : BusEvent) (s : State) : (s.trace e).allocs = s.allocs := rfl
@[simp] theorem State.trace_reads (e : BusEvent) (s : State) : (s.trace e).reads = s.reads := rfl
@[simp] theorem State.trace_draws (e : BusEvent) (s : State) : (s.trace e).draws = s.draws := rfl
@[simp] theorem State.trace_bus (e : BusEvent) (s : State) : (s.trace e).bus = s.bus ++ [e] := rfl
@[simp] theorem State.trace_out (e : BusEvent) (s : State) : (s.trace e).out = s.out := rfl
@[simp] theorem State.trace_responses (e : BusEvent) (s : State) : (s.trace e).responses = s.responses := rfl
@[simp] theorem State.trace_raised (e : BusEvent) (s : State) : (s.trace e).raised = s.raised := rfl
@[simp] theorem State.trace_rejections (e : BusEvent) (s : State) : (s.trace e).rejections = s.rejections := rfl

/-! ### `State.respond` -/

@[simp] theorem State.respond_snap (c : BitVec 8) (v : Word) (s : State) : (s.respond c v).snap = s.snap := rfl
@[simp] theorem State.respond_srValid (c : BitVec 8) (v : Word) (s : State) :
    (s.respond c v).srValid = s.srValid := rfl
@[simp] theorem State.respond_params (c : BitVec 8) (v : Word) (s : State) :
    (s.respond c v).params = s.params := rfl
@[simp] theorem State.respond_timing (c : BitVec 8) (v : Word) (s : State) : (s.respond c v).timing = s.timing := rfl
@[simp] theorem State.respond_bitrateConfigured (c : BitVec 8) (v : Word) (s : State) :
    (s.respond c v).bitrateConfigured = s.bitrateConfigured := rfl
@[simp] theorem State.respond_base (c : BitVec 8) (v : Word) (s : State) : (s.respond c v).base = s.base := rfl
@[simp] theorem State.respond_baseValid (c : BitVec 8) (v : Word) (s : State) :
    (s.respond c v).baseValid = s.baseValid := rfl
@[simp] theorem State.respond_mode (c : BitVec 8) (v : Word) (s : State) : (s.respond c v).mode = s.mode := rfl
@[simp] theorem State.respond_schedBusy (c : BitVec 8) (v : Word) (s : State) :
    (s.respond c v).schedBusy = s.schedBusy := rfl
@[simp] theorem State.respond_budgetRemaining (c : BitVec 8) (v : Word) (s : State) :
    (s.respond c v).budgetRemaining = s.budgetRemaining := rfl
@[simp] theorem State.respond_drained (c : BitVec 8) (v : Word) (s : State) :
    (s.respond c v).drained = s.drained := rfl
@[simp] theorem State.respond_timerArmed (c : BitVec 8) (v : Word) (s : State) :
    (s.respond c v).timerArmed = s.timerArmed := rfl
@[simp] theorem State.respond_timerDeadline (c : BitVec 8) (v : Word) (s : State) :
    (s.respond c v).timerDeadline = s.timerDeadline := rfl
@[simp] theorem State.respond_lastLogValid (c : BitVec 8) (v : Word) (s : State) :
    (s.respond c v).lastLogValid = s.lastLogValid := rfl
@[simp] theorem State.respond_lastLogTime (c : BitVec 8) (v : Word) (s : State) :
    (s.respond c v).lastLogTime = s.lastLogTime := rfl
@[simp] theorem State.respond_lock (c : BitVec 8) (v : Word) (s : State) : (s.respond c v).lock = s.lock := rfl
@[simp] theorem State.respond_periph (c : BitVec 8) (v : Word) (s : State) : (s.respond c v).periph = s.periph := rfl
@[simp] theorem State.respond_inbox (c : BitVec 8) (v : Word) (s : State) : (s.respond c v).inbox = s.inbox := rfl
@[simp] theorem State.respond_args (c : BitVec 8) (v : Word) (s : State) : (s.respond c v).args = s.args := rfl
@[simp] theorem State.respond_ret (c : BitVec 8) (v : Word) (s : State) : (s.respond c v).ret = s.ret := rfl
@[simp] theorem State.respond_agenda (c : BitVec 8) (v : Word) (s : State) : (s.respond c v).agenda = s.agenda := rfl
@[simp] theorem State.respond_clock (c : BitVec 8) (v : Word) (s : State) : (s.respond c v).clock = s.clock := rfl
@[simp] theorem State.respond_allocs (c : BitVec 8) (v : Word) (s : State) : (s.respond c v).allocs = s.allocs := rfl
@[simp] theorem State.respond_reads (c : BitVec 8) (v : Word) (s : State) : (s.respond c v).reads = s.reads := rfl
@[simp] theorem State.respond_draws (c : BitVec 8) (v : Word) (s : State) : (s.respond c v).draws = s.draws := rfl
@[simp] theorem State.respond_bus (c : BitVec 8) (v : Word) (s : State) : (s.respond c v).bus = s.bus := rfl
@[simp] theorem State.respond_out (c : BitVec 8) (v : Word) (s : State) : (s.respond c v).out = s.out := rfl
@[simp] theorem State.respond_responses (c : BitVec 8) (v : Word) (s : State) :
    (s.respond c v).responses = s.responses ++ [responseWord c v] := rfl
@[simp] theorem State.respond_raised (c : BitVec 8) (v : Word) (s : State) : (s.respond c v).raised = s.raised := rfl
@[simp] theorem State.respond_rejections (c : BitVec 8) (v : Word) (s : State) :
    (s.respond c v).rejections = s.rejections := rfl

/-! ### `State.raise` -/

@[simp] theorem State.raise_snap (x : Exception) (s : State) : (s.raise x).snap = s.snap := rfl
@[simp] theorem State.raise_srValid (x : Exception) (s : State) : (s.raise x).srValid = s.srValid := rfl
@[simp] theorem State.raise_params (x : Exception) (s : State) : (s.raise x).params = s.params := rfl
@[simp] theorem State.raise_timing (x : Exception) (s : State) : (s.raise x).timing = s.timing := rfl
@[simp] theorem State.raise_bitrateConfigured (x : Exception) (s : State) :
    (s.raise x).bitrateConfigured = s.bitrateConfigured := rfl
@[simp] theorem State.raise_base (x : Exception) (s : State) : (s.raise x).base = s.base := rfl
@[simp] theorem State.raise_baseValid (x : Exception) (s : State) : (s.raise x).baseValid = s.baseValid := rfl
@[simp] theorem State.raise_mode (x : Exception) (s : State) : (s.raise x).mode = s.mode := rfl
@[simp] theorem State.raise_schedBusy (x : Exception) (s : State) : (s.raise x).schedBusy = s.schedBusy := rfl
@[simp] theorem State.raise_budgetRemaining (x : Exception) (s : State) :
    (s.raise x).budgetRemaining = s.budgetRemaining := rfl
@[simp] theorem State.raise_drained (x : Exception) (s : State) : (s.raise x).drained = s.drained := rfl
@[simp] theorem State.raise_timerArmed (x : Exception) (s : State) : (s.raise x).timerArmed = s.timerArmed := rfl
@[simp] theorem State.raise_timerDeadline (x : Exception) (s : State) :
    (s.raise x).timerDeadline = s.timerDeadline := rfl
@[simp] theorem State.raise_lastLogValid (x : Exception) (s : State) :
    (s.raise x).lastLogValid = s.lastLogValid := rfl
@[simp] theorem State.raise_lastLogTime (x : Exception) (s : State) : (s.raise x).lastLogTime = s.lastLogTime := rfl
@[simp] theorem State.raise_lock (x : Exception) (s : State) : (s.raise x).lock = s.lock := rfl
@[simp] theorem State.raise_periph (x : Exception) (s : State) : (s.raise x).periph = s.periph := rfl
@[simp] theorem State.raise_inbox (x : Exception) (s : State) : (s.raise x).inbox = s.inbox := rfl
@[simp] theorem State.raise_args (x : Exception) (s : State) : (s.raise x).args = s.args := rfl
@[simp] theorem State.raise_ret (x : Exception) (s : State) : (s.raise x).ret = s.ret := rfl
@[simp] theorem State.raise_agenda (x : Exception) (s : State) : (s.raise x).agenda = s.agenda := rfl
@[simp] theorem State.raise_clock (x : Exception) (s : State) : (s.raise x).clock = s.clock := rfl
@[simp] theorem State.raise_allocs (x : Exception) (s : State) : (s.raise x).allocs = s.allocs := rfl
@[simp] theorem State.raise_reads (x : Exception) (s : State) : (s.raise x).reads = s.reads := rfl
@[simp] theorem State.raise_draws (x : Exception) (s : State) : (s.raise x).draws = s.draws := rfl
@[simp] theorem State.raise_bus (x : Exception) (s : State) : (s.raise x).bus = s.bus := rfl
@[simp] theorem State.raise_out (x : Exception) (s : State) : (s.raise x).out = s.out := rfl
@[simp] theorem State.raise_responses (x : Exception) (s : State) : (s.raise x).responses = s.responses := rfl
@[simp] theorem State.raise_raised (x : Exception) (s : State) : (s.raise x).raised = s.raised ++ [x] := rfl
@[simp] theorem State.raise_rejections (x : Exception) (s : State) : (s.raise x).rejections = s.rejections := rfl

/-! ### `State.reject` -/

@[simp] theorem State.reject_snap (r : Rejection) (s : State) : (s.reject r).snap = s.snap := rfl
@[simp] theorem State.reject_srValid (r : Rejection) (s : State) : (s.reject r).srValid = s.srValid := rfl
@[simp] theorem State.reject_params (r : Rejection) (s : State) : (s.reject r).params = s.params := rfl
@[simp] theorem State.reject_timing (r : Rejection) (s : State) : (s.reject r).timing = s.timing := rfl
@[simp] theorem State.reject_bitrateConfigured (r : Rejection) (s : State) :
    (s.reject r).bitrateConfigured = s.bitrateConfigured := rfl
@[simp] theorem State.reject_base (r : Rejection) (s : State) : (s.reject r).base = s.base := rfl
@[simp] theorem State.reject_baseValid (r : Rejection) (s : State) : (s.reject r).baseValid = s.baseValid := rfl
@[simp] theorem State.reject_mode (r : Rejection) (s : State) : (s.reject r).mode = s.mode := rfl
@[simp] theorem State.reject_schedBusy (r : Rejection) (s : State) : (s.reject r).schedBusy = s.schedBusy := rfl
@[simp] theorem State.reject_budgetRemaining (r : Rejection) (s : State) :
    (s.reject r).budgetRemaining = s.budgetRemaining := rfl
@[simp] theorem State.reject_drained (r : Rejection) (s : State) : (s.reject r).drained = s.drained := rfl
@[simp] theorem State.reject_timerArmed (r : Rejection) (s : State) : (s.reject r).timerArmed = s.timerArmed := rfl
@[simp] theorem State.reject_timerDeadline (r : Rejection) (s : State) :
    (s.reject r).timerDeadline = s.timerDeadline := rfl
@[simp] theorem State.reject_lastLogValid (r : Rejection) (s : State) :
    (s.reject r).lastLogValid = s.lastLogValid := rfl
@[simp] theorem State.reject_lastLogTime (r : Rejection) (s : State) : (s.reject r).lastLogTime = s.lastLogTime := rfl
@[simp] theorem State.reject_lock (r : Rejection) (s : State) : (s.reject r).lock = s.lock := rfl
@[simp] theorem State.reject_periph (r : Rejection) (s : State) : (s.reject r).periph = s.periph := rfl
@[simp] theorem State.reject_inbox (r : Rejection) (s : State) : (s.reject r).inbox = s.inbox := rfl
@[simp] theorem State.reject_args (r : Rejection) (s : State) : (s.reject r).args = s.args := rfl
@[simp] theorem State.reject_ret (r : Rejection) (s : State) : (s.reject r).ret = s.ret := rfl
@[simp] theorem State.reject_agenda (r : Rejection) (s : State) : (s.reject r).agenda = s.agenda := rfl
@[simp] theorem State.reject_clock (r : Rejection) (s : State) : (s.reject r).clock = s.clock := rfl
@[simp] theorem State.reject_allocs (r : Rejection) (s : State) : (s.reject r).allocs = s.allocs := rfl
@[simp] theorem State.reject_reads (r : Rejection) (s : State) : (s.reject r).reads = s.reads := rfl
@[simp] theorem State.reject_draws (r : Rejection) (s : State) : (s.reject r).draws = s.draws := rfl
@[simp] theorem State.reject_bus (r : Rejection) (s : State) : (s.reject r).bus = s.bus := rfl
@[simp] theorem State.reject_out (r : Rejection) (s : State) : (s.reject r).out = s.out := rfl
@[simp] theorem State.reject_responses (r : Rejection) (s : State) : (s.reject r).responses = s.responses := rfl
@[simp] theorem State.reject_raised (r : Rejection) (s : State) : (s.reject r).raised = s.raised := rfl
@[simp] theorem State.reject_rejections (r : Rejection) (s : State) :
    (s.reject r).rejections = s.rejections ++ [r] := rfl

/-! ### `State.returning` -/

@[simp] theorem State.returning_snap (v : RetVal) (s : State) : (s.returning v).snap = s.snap := rfl
@[simp] theorem State.returning_srValid (v : RetVal) (s : State) : (s.returning v).srValid = s.srValid := rfl
@[simp] theorem State.returning_params (v : RetVal) (s : State) : (s.returning v).params = s.params := rfl
@[simp] theorem State.returning_timing (v : RetVal) (s : State) : (s.returning v).timing = s.timing := rfl
@[simp] theorem State.returning_bitrateConfigured (v : RetVal) (s : State) :
    (s.returning v).bitrateConfigured = s.bitrateConfigured := rfl
@[simp] theorem State.returning_base (v : RetVal) (s : State) : (s.returning v).base = s.base := rfl
@[simp] theorem State.returning_baseValid (v : RetVal) (s : State) : (s.returning v).baseValid = s.baseValid := rfl
@[simp] theorem State.returning_mode (v : RetVal) (s : State) : (s.returning v).mode = s.mode := rfl
@[simp] theorem State.returning_schedBusy (v : RetVal) (s : State) : (s.returning v).schedBusy = s.schedBusy := rfl
@[simp] theorem State.returning_budgetRemaining (v : RetVal) (s : State) :
    (s.returning v).budgetRemaining = s.budgetRemaining := rfl
@[simp] theorem State.returning_drained (v : RetVal) (s : State) : (s.returning v).drained = s.drained := rfl
@[simp] theorem State.returning_timerArmed (v : RetVal) (s : State) : (s.returning v).timerArmed = s.timerArmed := rfl
@[simp] theorem State.returning_timerDeadline (v : RetVal) (s : State) :
    (s.returning v).timerDeadline = s.timerDeadline := rfl
@[simp] theorem State.returning_lastLogValid (v : RetVal) (s : State) :
    (s.returning v).lastLogValid = s.lastLogValid := rfl
@[simp] theorem State.returning_lastLogTime (v : RetVal) (s : State) :
    (s.returning v).lastLogTime = s.lastLogTime := rfl
@[simp] theorem State.returning_lock (v : RetVal) (s : State) : (s.returning v).lock = s.lock := rfl
@[simp] theorem State.returning_periph (v : RetVal) (s : State) : (s.returning v).periph = s.periph := rfl
@[simp] theorem State.returning_inbox (v : RetVal) (s : State) : (s.returning v).inbox = s.inbox := rfl
@[simp] theorem State.returning_args (v : RetVal) (s : State) : (s.returning v).args = s.args := rfl
@[simp] theorem State.returning_ret (v : RetVal) (s : State) : (s.returning v).ret = v := rfl
@[simp] theorem State.returning_agenda (v : RetVal) (s : State) : (s.returning v).agenda = s.agenda := rfl
@[simp] theorem State.returning_clock (v : RetVal) (s : State) : (s.returning v).clock = s.clock := rfl
@[simp] theorem State.returning_allocs (v : RetVal) (s : State) : (s.returning v).allocs = s.allocs := rfl
@[simp] theorem State.returning_reads (v : RetVal) (s : State) : (s.returning v).reads = s.reads := rfl
@[simp] theorem State.returning_draws (v : RetVal) (s : State) : (s.returning v).draws = s.draws := rfl
@[simp] theorem State.returning_bus (v : RetVal) (s : State) : (s.returning v).bus = s.bus := rfl
@[simp] theorem State.returning_out (v : RetVal) (s : State) : (s.returning v).out = s.out := rfl
@[simp] theorem State.returning_responses (v : RetVal) (s : State) : (s.returning v).responses = s.responses := rfl
@[simp] theorem State.returning_raised (v : RetVal) (s : State) : (s.returning v).raised = s.raised := rfl
@[simp] theorem State.returning_rejections (v : RetVal) (s : State) : (s.returning v).rejections = s.rejections := rfl

/-! ### `State.afterClock` -/

@[simp] theorem State.afterClock_snap (s : State) : (s.afterClock).snap = s.snap := rfl
@[simp] theorem State.afterClock_srValid (s : State) : (s.afterClock).srValid = s.srValid := rfl
@[simp] theorem State.afterClock_params (s : State) : (s.afterClock).params = s.params := rfl
@[simp] theorem State.afterClock_timing (s : State) : (s.afterClock).timing = s.timing := rfl
@[simp] theorem State.afterClock_bitrateConfigured (s : State) :
    (s.afterClock).bitrateConfigured = s.bitrateConfigured := rfl
@[simp] theorem State.afterClock_base (s : State) : (s.afterClock).base = s.base := rfl
@[simp] theorem State.afterClock_baseValid (s : State) : (s.afterClock).baseValid = s.baseValid := rfl
@[simp] theorem State.afterClock_mode (s : State) : (s.afterClock).mode = s.mode := rfl
@[simp] theorem State.afterClock_schedBusy (s : State) : (s.afterClock).schedBusy = s.schedBusy := rfl
@[simp] theorem State.afterClock_budgetRemaining (s : State) :
    (s.afterClock).budgetRemaining = s.budgetRemaining := rfl
@[simp] theorem State.afterClock_drained (s : State) : (s.afterClock).drained = s.drained := rfl
@[simp] theorem State.afterClock_timerArmed (s : State) : (s.afterClock).timerArmed = s.timerArmed := rfl
@[simp] theorem State.afterClock_timerDeadline (s : State) : (s.afterClock).timerDeadline = s.timerDeadline := rfl
@[simp] theorem State.afterClock_lastLogValid (s : State) : (s.afterClock).lastLogValid = s.lastLogValid := rfl
@[simp] theorem State.afterClock_lastLogTime (s : State) : (s.afterClock).lastLogTime = s.lastLogTime := rfl
@[simp] theorem State.afterClock_lock (s : State) : (s.afterClock).lock = s.lock := rfl
@[simp] theorem State.afterClock_periph (s : State) : (s.afterClock).periph = s.periph := rfl
@[simp] theorem State.afterClock_inbox (s : State) : (s.afterClock).inbox = s.inbox := rfl
@[simp] theorem State.afterClock_args (s : State) : (s.afterClock).args = s.args := rfl
@[simp] theorem State.afterClock_ret (s : State) : (s.afterClock).ret = s.ret := rfl
@[simp] theorem State.afterClock_agenda (s : State) : (s.afterClock).agenda = s.agenda := rfl
@[simp] theorem State.afterClock_clock (s : State) : (s.afterClock).clock = s.clock := rfl
@[simp] theorem State.afterClock_allocs (s : State) : (s.afterClock).allocs = s.allocs := rfl
@[simp] theorem State.afterClock_reads (s : State) : (s.afterClock).reads = s.reads := rfl
@[simp] theorem State.afterClock_draws (s : State) : (s.afterClock).draws = s.draws + 1 := rfl
@[simp] theorem State.afterClock_bus (s : State) : (s.afterClock).bus = s.bus := rfl
@[simp] theorem State.afterClock_out (s : State) : (s.afterClock).out = s.out := rfl
@[simp] theorem State.afterClock_responses (s : State) : (s.afterClock).responses = s.responses := rfl
@[simp] theorem State.afterClock_raised (s : State) : (s.afterClock).raised = s.raised := rfl
@[simp] theorem State.afterClock_rejections (s : State) : (s.afterClock).rejections = s.rejections := rfl

/-! ### `State.afterAlloc` -/

@[simp] theorem State.afterAlloc_snap (s : State) : (s.afterAlloc).snap = s.snap := rfl
@[simp] theorem State.afterAlloc_srValid (s : State) : (s.afterAlloc).srValid = s.srValid := rfl
@[simp] theorem State.afterAlloc_params (s : State) : (s.afterAlloc).params = s.params := rfl
@[simp] theorem State.afterAlloc_timing (s : State) : (s.afterAlloc).timing = s.timing := rfl
@[simp] theorem State.afterAlloc_bitrateConfigured (s : State) :
    (s.afterAlloc).bitrateConfigured = s.bitrateConfigured := rfl
@[simp] theorem State.afterAlloc_base (s : State) : (s.afterAlloc).base = s.base := rfl
@[simp] theorem State.afterAlloc_baseValid (s : State) : (s.afterAlloc).baseValid = s.baseValid := rfl
@[simp] theorem State.afterAlloc_mode (s : State) : (s.afterAlloc).mode = s.mode := rfl
@[simp] theorem State.afterAlloc_schedBusy (s : State) : (s.afterAlloc).schedBusy = s.schedBusy := rfl
@[simp] theorem State.afterAlloc_budgetRemaining (s : State) :
    (s.afterAlloc).budgetRemaining = s.budgetRemaining := rfl
@[simp] theorem State.afterAlloc_drained (s : State) : (s.afterAlloc).drained = s.drained := rfl
@[simp] theorem State.afterAlloc_timerArmed (s : State) : (s.afterAlloc).timerArmed = s.timerArmed := rfl
@[simp] theorem State.afterAlloc_timerDeadline (s : State) : (s.afterAlloc).timerDeadline = s.timerDeadline := rfl
@[simp] theorem State.afterAlloc_lastLogValid (s : State) : (s.afterAlloc).lastLogValid = s.lastLogValid := rfl
@[simp] theorem State.afterAlloc_lastLogTime (s : State) : (s.afterAlloc).lastLogTime = s.lastLogTime := rfl
@[simp] theorem State.afterAlloc_lock (s : State) : (s.afterAlloc).lock = s.lock := rfl
@[simp] theorem State.afterAlloc_periph (s : State) : (s.afterAlloc).periph = s.periph := rfl
@[simp] theorem State.afterAlloc_inbox (s : State) : (s.afterAlloc).inbox = s.inbox := rfl
@[simp] theorem State.afterAlloc_args (s : State) : (s.afterAlloc).args = s.args := rfl
@[simp] theorem State.afterAlloc_ret (s : State) : (s.afterAlloc).ret = s.ret := rfl
@[simp] theorem State.afterAlloc_agenda (s : State) : (s.afterAlloc).agenda = s.agenda := rfl
@[simp] theorem State.afterAlloc_clock (s : State) : (s.afterAlloc).clock = s.clock := rfl
@[simp] theorem State.afterAlloc_allocs (s : State) : (s.afterAlloc).allocs = s.allocs.tail := rfl
@[simp] theorem State.afterAlloc_reads (s : State) : (s.afterAlloc).reads = s.reads := rfl
@[simp] theorem State.afterAlloc_draws (s : State) : (s.afterAlloc).draws = s.draws + 1 := rfl
@[simp] theorem State.afterAlloc_bus (s : State) : (s.afterAlloc).bus = s.bus := rfl
@[simp] theorem State.afterAlloc_out (s : State) : (s.afterAlloc).out = s.out := rfl
@[simp] theorem State.afterAlloc_responses (s : State) : (s.afterAlloc).responses = s.responses := rfl
@[simp] theorem State.afterAlloc_raised (s : State) : (s.afterAlloc).raised = s.raised := rfl
@[simp] theorem State.afterAlloc_rejections (s : State) : (s.afterAlloc).rejections = s.rejections := rfl

/-! ### `latch` -/

@[simp] theorem latch_snap (r : ReadReg) (s : State) : (latch r s).snap = s.snap.put r (s.readValue r) := rfl
@[simp] theorem latch_srValid (r : ReadReg) (s : State) : (latch r s).srValid = s.srValid := rfl
@[simp] theorem latch_params (r : ReadReg) (s : State) : (latch r s).params = s.params := rfl
@[simp] theorem latch_timing (r : ReadReg) (s : State) : (latch r s).timing = s.timing := rfl
@[simp] theorem latch_bitrateConfigured (r : ReadReg) (s : State) :
    (latch r s).bitrateConfigured = s.bitrateConfigured := rfl
@[simp] theorem latch_base (r : ReadReg) (s : State) : (latch r s).base = s.base := rfl
@[simp] theorem latch_baseValid (r : ReadReg) (s : State) : (latch r s).baseValid = s.baseValid := rfl
@[simp] theorem latch_mode (r : ReadReg) (s : State) : (latch r s).mode = s.mode := rfl
@[simp] theorem latch_schedBusy (r : ReadReg) (s : State) : (latch r s).schedBusy = s.schedBusy := rfl
@[simp] theorem latch_budgetRemaining (r : ReadReg) (s : State) :
    (latch r s).budgetRemaining = s.budgetRemaining := rfl
@[simp] theorem latch_drained (r : ReadReg) (s : State) : (latch r s).drained = s.drained := rfl
@[simp] theorem latch_timerArmed (r : ReadReg) (s : State) : (latch r s).timerArmed = s.timerArmed := rfl
@[simp] theorem latch_timerDeadline (r : ReadReg) (s : State) : (latch r s).timerDeadline = s.timerDeadline := rfl
@[simp] theorem latch_lastLogValid (r : ReadReg) (s : State) : (latch r s).lastLogValid = s.lastLogValid := rfl
@[simp] theorem latch_lastLogTime (r : ReadReg) (s : State) : (latch r s).lastLogTime = s.lastLogTime := rfl
@[simp] theorem latch_lock (r : ReadReg) (s : State) : (latch r s).lock = s.lock := rfl
@[simp] theorem latch_periph (r : ReadReg) (s : State) : (latch r s).periph = s.periph.afterRead r := rfl
@[simp] theorem latch_inbox (r : ReadReg) (s : State) : (latch r s).inbox = s.inbox := rfl
@[simp] theorem latch_args (r : ReadReg) (s : State) : (latch r s).args = s.args := rfl
@[simp] theorem latch_ret (r : ReadReg) (s : State) : (latch r s).ret = s.ret := rfl
@[simp] theorem latch_agenda (r : ReadReg) (s : State) : (latch r s).agenda = s.agenda := rfl
@[simp] theorem latch_clock (r : ReadReg) (s : State) : (latch r s).clock = s.clock := rfl
@[simp] theorem latch_allocs (r : ReadReg) (s : State) : (latch r s).allocs = s.allocs := rfl
@[simp] theorem latch_reads (r : ReadReg) (s : State) : (latch r s).reads = s.readsLeft r := rfl
@[simp] theorem latch_draws (r : ReadReg) (s : State) : (latch r s).draws = s.draws + 1 := rfl
@[simp] theorem latch_bus (r : ReadReg) (s : State) : (latch r s).bus = s.bus ++ [.read r (s.readValue r)] := rfl
@[simp] theorem latch_out (r : ReadReg) (s : State) : (latch r s).out = s.out := rfl
@[simp] theorem latch_responses (r : ReadReg) (s : State) : (latch r s).responses = s.responses := rfl
@[simp] theorem latch_raised (r : ReadReg) (s : State) : (latch r s).raised = s.raised := rfl
@[simp] theorem latch_rejections (r : ReadReg) (s : State) : (latch r s).rejections = s.rejections := rfl

/-! ### `regWrite` -/

@[simp] theorem regWrite_snap (r : WriteReg) (v : Word) (s : State) : (regWrite r v s).snap = s.snap := rfl
@[simp] theorem regWrite_srValid (r : WriteReg) (v : Word) (s : State) : (regWrite r v s).srValid = s.srValid := rfl
@[simp] theorem regWrite_params (r : WriteReg) (v : Word) (s : State) : (regWrite r v s).params = s.params := rfl
@[simp] theorem regWrite_timing (r : WriteReg) (v : Word) (s : State) : (regWrite r v s).timing = s.timing := rfl
@[simp] theorem regWrite_bitrateConfigured (r : WriteReg) (v : Word) (s : State) :
    (regWrite r v s).bitrateConfigured = s.bitrateConfigured := rfl
@[simp] theorem regWrite_base (r : WriteReg) (v : Word) (s : State) : (regWrite r v s).base = s.base := rfl
@[simp] theorem regWrite_baseValid (r : WriteReg) (v : Word) (s : State) :
    (regWrite r v s).baseValid = s.baseValid := rfl
@[simp] theorem regWrite_mode (r : WriteReg) (v : Word) (s : State) : (regWrite r v s).mode = s.mode := rfl
@[simp] theorem regWrite_schedBusy (r : WriteReg) (v : Word) (s : State) :
    (regWrite r v s).schedBusy = s.schedBusy := rfl
@[simp] theorem regWrite_budgetRemaining (r : WriteReg) (v : Word) (s : State) :
    (regWrite r v s).budgetRemaining = s.budgetRemaining := rfl
@[simp] theorem regWrite_drained (r : WriteReg) (v : Word) (s : State) : (regWrite r v s).drained = s.drained := rfl
@[simp] theorem regWrite_timerArmed (r : WriteReg) (v : Word) (s : State) :
    (regWrite r v s).timerArmed = s.timerArmed := rfl
@[simp] theorem regWrite_timerDeadline (r : WriteReg) (v : Word) (s : State) :
    (regWrite r v s).timerDeadline = s.timerDeadline := rfl
@[simp] theorem regWrite_lastLogValid (r : WriteReg) (v : Word) (s : State) :
    (regWrite r v s).lastLogValid = s.lastLogValid := rfl
@[simp] theorem regWrite_lastLogTime (r : WriteReg) (v : Word) (s : State) :
    (regWrite r v s).lastLogTime = s.lastLogTime := rfl
@[simp] theorem regWrite_lock (r : WriteReg) (v : Word) (s : State) : (regWrite r v s).lock = s.lock := rfl
@[simp] theorem regWrite_periph (r : WriteReg) (v : Word) (s : State) :
    (regWrite r v s).periph = s.periph.write s.params.layout r v (Config.freeMicros s.draws) := rfl
@[simp] theorem regWrite_inbox (r : WriteReg) (v : Word) (s : State) : (regWrite r v s).inbox = s.inbox := rfl
@[simp] theorem regWrite_args (r : WriteReg) (v : Word) (s : State) : (regWrite r v s).args = s.args := rfl
@[simp] theorem regWrite_ret (r : WriteReg) (v : Word) (s : State) : (regWrite r v s).ret = s.ret := rfl
@[simp] theorem regWrite_agenda (r : WriteReg) (v : Word) (s : State) : (regWrite r v s).agenda = s.agenda := rfl
@[simp] theorem regWrite_clock (r : WriteReg) (v : Word) (s : State) : (regWrite r v s).clock = s.clock := rfl
@[simp] theorem regWrite_allocs (r : WriteReg) (v : Word) (s : State) : (regWrite r v s).allocs = s.allocs := rfl
@[simp] theorem regWrite_reads (r : WriteReg) (v : Word) (s : State) : (regWrite r v s).reads = s.reads := rfl
@[simp] theorem regWrite_draws (r : WriteReg) (v : Word) (s : State) : (regWrite r v s).draws = s.draws + 1 := rfl
@[simp] theorem regWrite_bus (r : WriteReg) (v : Word) (s : State) :
    (regWrite r v s).bus = s.bus ++ [.write r v] := rfl
@[simp] theorem regWrite_out (r : WriteReg) (v : Word) (s : State) : (regWrite r v s).out = s.out := rfl
@[simp] theorem regWrite_responses (r : WriteReg) (v : Word) (s : State) :
    (regWrite r v s).responses = s.responses := rfl
@[simp] theorem regWrite_raised (r : WriteReg) (v : Word) (s : State) : (regWrite r v s).raised = s.raised := rfl
@[simp] theorem regWrite_rejections (r : WriteReg) (v : Word) (s : State) :
    (regWrite r v s).rejections = s.rejections := rfl

/-! ### `barrier` -/

@[simp] theorem barrier_snap (s : State) : (barrier s).snap = s.snap := rfl
@[simp] theorem barrier_srValid (s : State) : (barrier s).srValid = s.srValid := rfl
@[simp] theorem barrier_params (s : State) : (barrier s).params = s.params := rfl
@[simp] theorem barrier_timing (s : State) : (barrier s).timing = s.timing := rfl
@[simp] theorem barrier_bitrateConfigured (s : State) : (barrier s).bitrateConfigured = s.bitrateConfigured := rfl
@[simp] theorem barrier_base (s : State) : (barrier s).base = s.base := rfl
@[simp] theorem barrier_baseValid (s : State) : (barrier s).baseValid = s.baseValid := rfl
@[simp] theorem barrier_mode (s : State) : (barrier s).mode = s.mode := rfl
@[simp] theorem barrier_schedBusy (s : State) : (barrier s).schedBusy = s.schedBusy := rfl
@[simp] theorem barrier_budgetRemaining (s : State) : (barrier s).budgetRemaining = s.budgetRemaining := rfl
@[simp] theorem barrier_drained (s : State) : (barrier s).drained = s.drained := rfl
@[simp] theorem barrier_timerArmed (s : State) : (barrier s).timerArmed = s.timerArmed := rfl
@[simp] theorem barrier_timerDeadline (s : State) : (barrier s).timerDeadline = s.timerDeadline := rfl
@[simp] theorem barrier_lastLogValid (s : State) : (barrier s).lastLogValid = s.lastLogValid := rfl
@[simp] theorem barrier_lastLogTime (s : State) : (barrier s).lastLogTime = s.lastLogTime := rfl
@[simp] theorem barrier_lock (s : State) : (barrier s).lock = s.lock := rfl
@[simp] theorem barrier_periph (s : State) : (barrier s).periph = s.periph := rfl
@[simp] theorem barrier_inbox (s : State) : (barrier s).inbox = s.inbox := rfl
@[simp] theorem barrier_args (s : State) : (barrier s).args = s.args := rfl
@[simp] theorem barrier_ret (s : State) : (barrier s).ret = s.ret := rfl
@[simp] theorem barrier_agenda (s : State) : (barrier s).agenda = s.agenda := rfl
@[simp] theorem barrier_clock (s : State) : (barrier s).clock = s.clock := rfl
@[simp] theorem barrier_allocs (s : State) : (barrier s).allocs = s.allocs := rfl
@[simp] theorem barrier_reads (s : State) : (barrier s).reads = s.reads := rfl
@[simp] theorem barrier_draws (s : State) : (barrier s).draws = s.draws := rfl
@[simp] theorem barrier_bus (s : State) : (barrier s).bus = s.bus ++ [.barrier] := rfl
@[simp] theorem barrier_out (s : State) : (barrier s).out = s.out := rfl
@[simp] theorem barrier_responses (s : State) : (barrier s).responses = s.responses := rfl
@[simp] theorem barrier_raised (s : State) : (barrier s).raised = s.raised := rfl
@[simp] theorem barrier_rejections (s : State) : (barrier s).rejections = s.rejections := rfl

/-! ### `takeLock` -/

@[simp] theorem takeLock_snap (l : List Turn) (s : State) : (takeLock l s).snap = s.snap := rfl
@[simp] theorem takeLock_srValid (l : List Turn) (s : State) : (takeLock l s).srValid = s.srValid := rfl
@[simp] theorem takeLock_params (l : List Turn) (s : State) : (takeLock l s).params = s.params := rfl
@[simp] theorem takeLock_timing (l : List Turn) (s : State) : (takeLock l s).timing = s.timing := rfl
@[simp] theorem takeLock_bitrateConfigured (l : List Turn) (s : State) :
    (takeLock l s).bitrateConfigured = s.bitrateConfigured := rfl
@[simp] theorem takeLock_base (l : List Turn) (s : State) : (takeLock l s).base = s.base := rfl
@[simp] theorem takeLock_baseValid (l : List Turn) (s : State) : (takeLock l s).baseValid = s.baseValid := rfl
@[simp] theorem takeLock_mode (l : List Turn) (s : State) : (takeLock l s).mode = s.mode := rfl
@[simp] theorem takeLock_schedBusy (l : List Turn) (s : State) : (takeLock l s).schedBusy = s.schedBusy := rfl
@[simp] theorem takeLock_budgetRemaining (l : List Turn) (s : State) :
    (takeLock l s).budgetRemaining = s.budgetRemaining := rfl
@[simp] theorem takeLock_drained (l : List Turn) (s : State) : (takeLock l s).drained = s.drained := rfl
@[simp] theorem takeLock_timerArmed (l : List Turn) (s : State) : (takeLock l s).timerArmed = s.timerArmed := rfl
@[simp] theorem takeLock_timerDeadline (l : List Turn) (s : State) :
    (takeLock l s).timerDeadline = s.timerDeadline := rfl
@[simp] theorem takeLock_lastLogValid (l : List Turn) (s : State) :
    (takeLock l s).lastLogValid = s.lastLogValid := rfl
@[simp] theorem takeLock_lastLogTime (l : List Turn) (s : State) : (takeLock l s).lastLogTime = s.lastLogTime := rfl
@[simp] theorem takeLock_lock (l : List Turn) (s : State) : (takeLock l s).lock = .held .block := rfl
@[simp] theorem takeLock_periph (l : List Turn) (s : State) : (takeLock l s).periph = s.periph := rfl
@[simp] theorem takeLock_inbox (l : List Turn) (s : State) : (takeLock l s).inbox = s.inbox := rfl
@[simp] theorem takeLock_args (l : List Turn) (s : State) : (takeLock l s).args = s.args := rfl
@[simp] theorem takeLock_ret (l : List Turn) (s : State) : (takeLock l s).ret = s.ret := rfl
@[simp] theorem takeLock_agenda (l : List Turn) (s : State) : (takeLock l s).agenda = l := rfl
@[simp] theorem takeLock_clock (l : List Turn) (s : State) : (takeLock l s).clock = s.clock := rfl
@[simp] theorem takeLock_allocs (l : List Turn) (s : State) : (takeLock l s).allocs = s.allocs := rfl
@[simp] theorem takeLock_reads (l : List Turn) (s : State) : (takeLock l s).reads = s.reads := rfl
@[simp] theorem takeLock_draws (l : List Turn) (s : State) : (takeLock l s).draws = s.draws := rfl
@[simp] theorem takeLock_bus (l : List Turn) (s : State) : (takeLock l s).bus = s.bus ++ [.acquire] := rfl
@[simp] theorem takeLock_out (l : List Turn) (s : State) : (takeLock l s).out = s.out := rfl
@[simp] theorem takeLock_responses (l : List Turn) (s : State) : (takeLock l s).responses = s.responses := rfl
@[simp] theorem takeLock_raised (l : List Turn) (s : State) : (takeLock l s).raised = s.raised := rfl
@[simp] theorem takeLock_rejections (l : List Turn) (s : State) : (takeLock l s).rejections = s.rejections := rfl

/-! ### `release` -/

@[simp] theorem release_snap (s : State) : (release s).snap = s.snap := rfl
@[simp] theorem release_srValid (s : State) : (release s).srValid = s.srValid := rfl
@[simp] theorem release_params (s : State) : (release s).params = s.params := rfl
@[simp] theorem release_timing (s : State) : (release s).timing = s.timing := rfl
@[simp] theorem release_bitrateConfigured (s : State) : (release s).bitrateConfigured = s.bitrateConfigured := rfl
@[simp] theorem release_base (s : State) : (release s).base = s.base := rfl
@[simp] theorem release_baseValid (s : State) : (release s).baseValid = s.baseValid := rfl
@[simp] theorem release_mode (s : State) : (release s).mode = s.mode := rfl
@[simp] theorem release_schedBusy (s : State) : (release s).schedBusy = s.schedBusy := rfl
@[simp] theorem release_budgetRemaining (s : State) : (release s).budgetRemaining = s.budgetRemaining := rfl
@[simp] theorem release_drained (s : State) : (release s).drained = s.drained := rfl
@[simp] theorem release_timerArmed (s : State) : (release s).timerArmed = s.timerArmed := rfl
@[simp] theorem release_timerDeadline (s : State) : (release s).timerDeadline = s.timerDeadline := rfl
@[simp] theorem release_lastLogValid (s : State) : (release s).lastLogValid = s.lastLogValid := rfl
@[simp] theorem release_lastLogTime (s : State) : (release s).lastLogTime = s.lastLogTime := rfl
@[simp] theorem release_lock (s : State) : (release s).lock = .free := rfl
@[simp] theorem release_periph (s : State) : (release s).periph = s.periph := rfl
@[simp] theorem release_inbox (s : State) : (release s).inbox = s.inbox := rfl
@[simp] theorem release_args (s : State) : (release s).args = s.args := rfl
@[simp] theorem release_ret (s : State) : (release s).ret = s.ret := rfl
@[simp] theorem release_agenda (s : State) : (release s).agenda = s.agenda := rfl
@[simp] theorem release_clock (s : State) : (release s).clock = s.clock := rfl
@[simp] theorem release_allocs (s : State) : (release s).allocs = s.allocs := rfl
@[simp] theorem release_reads (s : State) : (release s).reads = s.reads := rfl
@[simp] theorem release_draws (s : State) : (release s).draws = s.draws := rfl
@[simp] theorem release_bus (s : State) : (release s).bus = s.bus ++ [.release] := rfl
@[simp] theorem release_out (s : State) : (release s).out = s.out := rfl
@[simp] theorem release_responses (s : State) : (release s).responses = s.responses := rfl
@[simp] theorem release_raised (s : State) : (release s).raised = s.raised := rfl
@[simp] theorem release_rejections (s : State) : (release s).rejections = s.rejections := rfl

/-! ### `armTimer` -/

@[simp] theorem armTimer_snap (s : State) : (armTimer s).snap = s.snap := rfl
@[simp] theorem armTimer_srValid (s : State) : (armTimer s).srValid = s.srValid := rfl
@[simp] theorem armTimer_params (s : State) : (armTimer s).params = s.params := rfl
@[simp] theorem armTimer_timing (s : State) : (armTimer s).timing = s.timing := rfl
@[simp] theorem armTimer_bitrateConfigured (s : State) : (armTimer s).bitrateConfigured = s.bitrateConfigured := rfl
@[simp] theorem armTimer_base (s : State) : (armTimer s).base = s.base := rfl
@[simp] theorem armTimer_baseValid (s : State) : (armTimer s).baseValid = s.baseValid := rfl
@[simp] theorem armTimer_mode (s : State) : (armTimer s).mode = s.mode := rfl
@[simp] theorem armTimer_schedBusy (s : State) : (armTimer s).schedBusy = s.schedBusy := rfl
@[simp] theorem armTimer_budgetRemaining (s : State) : (armTimer s).budgetRemaining = s.budgetRemaining := rfl
@[simp] theorem armTimer_drained (s : State) : (armTimer s).drained = s.drained := rfl
@[simp] theorem armTimer_timerArmed (s : State) : (armTimer s).timerArmed = true := rfl
@[simp] theorem armTimer_timerDeadline (s : State) :
    (armTimer s).timerDeadline = s.monoNow + Config.pollInterval := rfl
@[simp] theorem armTimer_lastLogValid (s : State) : (armTimer s).lastLogValid = s.lastLogValid := rfl
@[simp] theorem armTimer_lastLogTime (s : State) : (armTimer s).lastLogTime = s.lastLogTime := rfl
@[simp] theorem armTimer_lock (s : State) : (armTimer s).lock = s.lock := rfl
@[simp] theorem armTimer_periph (s : State) : (armTimer s).periph = s.periph := rfl
@[simp] theorem armTimer_inbox (s : State) : (armTimer s).inbox = s.inbox := rfl
@[simp] theorem armTimer_args (s : State) : (armTimer s).args = s.args := rfl
@[simp] theorem armTimer_ret (s : State) : (armTimer s).ret = s.ret := rfl
@[simp] theorem armTimer_agenda (s : State) : (armTimer s).agenda = s.agenda := rfl
@[simp] theorem armTimer_clock (s : State) : (armTimer s).clock = s.clock := rfl
@[simp] theorem armTimer_allocs (s : State) : (armTimer s).allocs = s.allocs := rfl
@[simp] theorem armTimer_reads (s : State) : (armTimer s).reads = s.reads := rfl
@[simp] theorem armTimer_draws (s : State) : (armTimer s).draws = s.draws + 1 := rfl
@[simp] theorem armTimer_bus (s : State) : (armTimer s).bus = s.bus := rfl
@[simp] theorem armTimer_out (s : State) : (armTimer s).out = s.out := rfl
@[simp] theorem armTimer_responses (s : State) : (armTimer s).responses = s.responses := rfl
@[simp] theorem armTimer_raised (s : State) : (armTimer s).raised = s.raised := rfl
@[simp] theorem armTimer_rejections (s : State) : (armTimer s).rejections = s.rejections := rfl

/-! ### `captureBase` -/

@[simp] theorem captureBase_snap (s : State) : (captureBase s).snap = s.snap := rfl
@[simp] theorem captureBase_srValid (s : State) : (captureBase s).srValid = s.srValid := rfl
@[simp] theorem captureBase_params (s : State) : (captureBase s).params = s.params := rfl
@[simp] theorem captureBase_timing (s : State) : (captureBase s).timing = s.timing := rfl
@[simp] theorem captureBase_bitrateConfigured (s : State) :
    (captureBase s).bitrateConfigured = s.bitrateConfigured := rfl
@[simp] theorem captureBase_base (s : State) : (captureBase s).base = s.clockNow.wall - s.clockNow.mono := rfl
@[simp] theorem captureBase_baseValid (s : State) : (captureBase s).baseValid = true := rfl
@[simp] theorem captureBase_mode (s : State) : (captureBase s).mode = s.mode := rfl
@[simp] theorem captureBase_schedBusy (s : State) : (captureBase s).schedBusy = s.schedBusy := rfl
@[simp] theorem captureBase_budgetRemaining (s : State) : (captureBase s).budgetRemaining = s.budgetRemaining := rfl
@[simp] theorem captureBase_drained (s : State) : (captureBase s).drained = s.drained := rfl
@[simp] theorem captureBase_timerArmed (s : State) : (captureBase s).timerArmed = s.timerArmed := rfl
@[simp] theorem captureBase_timerDeadline (s : State) : (captureBase s).timerDeadline = s.timerDeadline := rfl
@[simp] theorem captureBase_lastLogValid (s : State) : (captureBase s).lastLogValid = s.lastLogValid := rfl
@[simp] theorem captureBase_lastLogTime (s : State) : (captureBase s).lastLogTime = s.lastLogTime := rfl
@[simp] theorem captureBase_lock (s : State) : (captureBase s).lock = s.lock := rfl
@[simp] theorem captureBase_periph (s : State) : (captureBase s).periph = s.periph := rfl
@[simp] theorem captureBase_inbox (s : State) : (captureBase s).inbox = s.inbox := rfl
@[simp] theorem captureBase_args (s : State) : (captureBase s).args = s.args := rfl
@[simp] theorem captureBase_ret (s : State) : (captureBase s).ret = s.ret := rfl
@[simp] theorem captureBase_agenda (s : State) : (captureBase s).agenda = s.agenda := rfl
@[simp] theorem captureBase_clock (s : State) : (captureBase s).clock = s.clock := rfl
@[simp] theorem captureBase_allocs (s : State) : (captureBase s).allocs = s.allocs := rfl
@[simp] theorem captureBase_reads (s : State) : (captureBase s).reads = s.reads := rfl
@[simp] theorem captureBase_draws (s : State) : (captureBase s).draws = s.draws + 1 := rfl
@[simp] theorem captureBase_bus (s : State) : (captureBase s).bus = s.bus := rfl
@[simp] theorem captureBase_out (s : State) : (captureBase s).out = s.out := rfl
@[simp] theorem captureBase_responses (s : State) : (captureBase s).responses = s.responses := rfl
@[simp] theorem captureBase_raised (s : State) : (captureBase s).raised = s.raised := rfl
@[simp] theorem captureBase_rejections (s : State) : (captureBase s).rejections = s.rejections := rfl

/-! ### `createPollState` -/

@[simp] theorem createPollState_snap (s : State) : (createPollState s).snap = s.snap := rfl
@[simp] theorem createPollState_srValid (s : State) : (createPollState s).srValid = s.srValid := rfl
@[simp] theorem createPollState_params (s : State) : (createPollState s).params = s.params := rfl
@[simp] theorem createPollState_timing (s : State) : (createPollState s).timing = s.timing := rfl
@[simp] theorem createPollState_bitrateConfigured (s : State) :
    (createPollState s).bitrateConfigured = s.bitrateConfigured := rfl
@[simp] theorem createPollState_base (s : State) : (createPollState s).base = s.base := rfl
@[simp] theorem createPollState_baseValid (s : State) : (createPollState s).baseValid = s.baseValid := rfl
@[simp] theorem createPollState_mode (s : State) : (createPollState s).mode = .armed := rfl
@[simp] theorem createPollState_schedBusy (s : State) : (createPollState s).schedBusy = s.schedBusy := rfl
@[simp] theorem createPollState_budgetRemaining (s : State) : (createPollState s).budgetRemaining = 0 := rfl
@[simp] theorem createPollState_drained (s : State) : (createPollState s).drained = 0 := rfl
@[simp] theorem createPollState_timerArmed (s : State) : (createPollState s).timerArmed = s.timerArmed := rfl
@[simp] theorem createPollState_timerDeadline (s : State) : (createPollState s).timerDeadline = s.timerDeadline := rfl
@[simp] theorem createPollState_lastLogValid (s : State) : (createPollState s).lastLogValid = false := rfl
@[simp] theorem createPollState_lastLogTime (s : State) : (createPollState s).lastLogTime = s.lastLogTime := rfl
@[simp] theorem createPollState_lock (s : State) : (createPollState s).lock = s.lock := rfl
@[simp] theorem createPollState_periph (s : State) : (createPollState s).periph = s.periph := rfl
@[simp] theorem createPollState_inbox (s : State) : (createPollState s).inbox = s.inbox := rfl
@[simp] theorem createPollState_args (s : State) : (createPollState s).args = s.args := rfl
@[simp] theorem createPollState_ret (s : State) : (createPollState s).ret = s.ret := rfl
@[simp] theorem createPollState_agenda (s : State) : (createPollState s).agenda = s.agenda := rfl
@[simp] theorem createPollState_clock (s : State) : (createPollState s).clock = s.clock := rfl
@[simp] theorem createPollState_allocs (s : State) : (createPollState s).allocs = s.allocs := rfl
@[simp] theorem createPollState_reads (s : State) : (createPollState s).reads = s.reads := rfl
@[simp] theorem createPollState_draws (s : State) : (createPollState s).draws = s.draws := rfl
@[simp] theorem createPollState_bus (s : State) : (createPollState s).bus = s.bus := rfl
@[simp] theorem createPollState_out (s : State) : (createPollState s).out = s.out := rfl
@[simp] theorem createPollState_responses (s : State) : (createPollState s).responses = s.responses := rfl
@[simp] theorem createPollState_raised (s : State) : (createPollState s).raised = s.raised := rfl
@[simp] theorem createPollState_rejections (s : State) : (createPollState s).rejections = s.rejections := rfl

/-! ### `countDrained` -/

@[simp] theorem countDrained_snap (s : State) : (countDrained s).snap = s.snap := rfl
@[simp] theorem countDrained_srValid (s : State) : (countDrained s).srValid = s.srValid := rfl
@[simp] theorem countDrained_params (s : State) : (countDrained s).params = s.params := rfl
@[simp] theorem countDrained_timing (s : State) : (countDrained s).timing = s.timing := rfl
@[simp] theorem countDrained_bitrateConfigured (s : State) :
    (countDrained s).bitrateConfigured = s.bitrateConfigured := rfl
@[simp] theorem countDrained_base (s : State) : (countDrained s).base = s.base := rfl
@[simp] theorem countDrained_baseValid (s : State) : (countDrained s).baseValid = s.baseValid := rfl
@[simp] theorem countDrained_mode (s : State) : (countDrained s).mode = s.mode := rfl
@[simp] theorem countDrained_schedBusy (s : State) : (countDrained s).schedBusy = s.schedBusy := rfl
@[simp] theorem countDrained_budgetRemaining (s : State) :
    (countDrained s).budgetRemaining = s.budgetRemaining - 1 := rfl
@[simp] theorem countDrained_drained (s : State) : (countDrained s).drained = s.drained + 1 := rfl
@[simp] theorem countDrained_timerArmed (s : State) : (countDrained s).timerArmed = s.timerArmed := rfl
@[simp] theorem countDrained_timerDeadline (s : State) : (countDrained s).timerDeadline = s.timerDeadline := rfl
@[simp] theorem countDrained_lastLogValid (s : State) : (countDrained s).lastLogValid = s.lastLogValid := rfl
@[simp] theorem countDrained_lastLogTime (s : State) : (countDrained s).lastLogTime = s.lastLogTime := rfl
@[simp] theorem countDrained_lock (s : State) : (countDrained s).lock = s.lock := rfl
@[simp] theorem countDrained_periph (s : State) : (countDrained s).periph = s.periph := rfl
@[simp] theorem countDrained_inbox (s : State) : (countDrained s).inbox = s.inbox := rfl
@[simp] theorem countDrained_args (s : State) : (countDrained s).args = s.args := rfl
@[simp] theorem countDrained_ret (s : State) : (countDrained s).ret = s.ret := rfl
@[simp] theorem countDrained_agenda (s : State) : (countDrained s).agenda = s.agenda := rfl
@[simp] theorem countDrained_clock (s : State) : (countDrained s).clock = s.clock := rfl
@[simp] theorem countDrained_allocs (s : State) : (countDrained s).allocs = s.allocs := rfl
@[simp] theorem countDrained_reads (s : State) : (countDrained s).reads = s.reads := rfl
@[simp] theorem countDrained_draws (s : State) : (countDrained s).draws = s.draws := rfl
@[simp] theorem countDrained_bus (s : State) : (countDrained s).bus = s.bus := rfl
@[simp] theorem countDrained_out (s : State) : (countDrained s).out = s.out := rfl
@[simp] theorem countDrained_responses (s : State) : (countDrained s).responses = s.responses := rfl
@[simp] theorem countDrained_raised (s : State) : (countDrained s).raised = s.raised := rfl
@[simp] theorem countDrained_rejections (s : State) : (countDrained s).rejections = s.rejections := rfl

/-! ### `statusReads`: the fields its accesses do not touch -/

@[simp] theorem statusReads_srValid (s : State) : (statusReads s).srValid = s.srValid := by simp [statusReads]
@[simp] theorem statusReads_params (s : State) : (statusReads s).params = s.params := by simp [statusReads]
@[simp] theorem statusReads_timing (s : State) : (statusReads s).timing = s.timing := by simp [statusReads]
@[simp] theorem statusReads_bitrateConfigured (s : State) :
    (statusReads s).bitrateConfigured = s.bitrateConfigured := by simp [statusReads]
@[simp] theorem statusReads_base (s : State) : (statusReads s).base = s.base := by simp [statusReads]
@[simp] theorem statusReads_baseValid (s : State) : (statusReads s).baseValid = s.baseValid := by simp [statusReads]
@[simp] theorem statusReads_mode (s : State) : (statusReads s).mode = s.mode := by simp [statusReads]
@[simp] theorem statusReads_schedBusy (s : State) : (statusReads s).schedBusy = s.schedBusy := by simp [statusReads]
@[simp] theorem statusReads_budgetRemaining (s : State) :
    (statusReads s).budgetRemaining = s.budgetRemaining := by simp [statusReads]
@[simp] theorem statusReads_drained (s : State) : (statusReads s).drained = s.drained := by simp [statusReads]
@[simp] theorem statusReads_timerArmed (s : State) :
    (statusReads s).timerArmed = s.timerArmed := by simp [statusReads]
@[simp] theorem statusReads_timerDeadline (s : State) :
    (statusReads s).timerDeadline = s.timerDeadline := by simp [statusReads]
@[simp] theorem statusReads_lastLogValid (s : State) :
    (statusReads s).lastLogValid = s.lastLogValid := by simp [statusReads]
@[simp] theorem statusReads_lastLogTime (s : State) :
    (statusReads s).lastLogTime = s.lastLogTime := by simp [statusReads]
@[simp] theorem statusReads_lock (s : State) : (statusReads s).lock = s.lock := by simp [statusReads]
@[simp] theorem statusReads_inbox (s : State) : (statusReads s).inbox = s.inbox := by simp [statusReads]
@[simp] theorem statusReads_args (s : State) : (statusReads s).args = s.args := by simp [statusReads]
@[simp] theorem statusReads_ret (s : State) : (statusReads s).ret = s.ret := by simp [statusReads]
@[simp] theorem statusReads_agenda (s : State) : (statusReads s).agenda = s.agenda := by simp [statusReads]
@[simp] theorem statusReads_clock (s : State) : (statusReads s).clock = s.clock := by simp [statusReads]
@[simp] theorem statusReads_allocs (s : State) : (statusReads s).allocs = s.allocs := by simp [statusReads]
@[simp] theorem statusReads_out (s : State) : (statusReads s).out = s.out := by simp [statusReads]
@[simp] theorem statusReads_responses (s : State) : (statusReads s).responses = s.responses := by simp [statusReads]
@[simp] theorem statusReads_raised (s : State) : (statusReads s).raised = s.raised := by simp [statusReads]
@[simp] theorem statusReads_rejections (s : State) :
    (statusReads s).rejections = s.rejections := by simp [statusReads]

/-! ### `entryReads`: the fields its accesses do not touch -/

@[simp] theorem entryReads_srValid (s : State) : (entryReads s).srValid = s.srValid := by simp [entryReads]
@[simp] theorem entryReads_params (s : State) : (entryReads s).params = s.params := by simp [entryReads]
@[simp] theorem entryReads_timing (s : State) : (entryReads s).timing = s.timing := by simp [entryReads]
@[simp] theorem entryReads_bitrateConfigured (s : State) :
    (entryReads s).bitrateConfigured = s.bitrateConfigured := by simp [entryReads]
@[simp] theorem entryReads_base (s : State) : (entryReads s).base = s.base := by simp [entryReads]
@[simp] theorem entryReads_baseValid (s : State) : (entryReads s).baseValid = s.baseValid := by simp [entryReads]
@[simp] theorem entryReads_mode (s : State) : (entryReads s).mode = s.mode := by simp [entryReads]
@[simp] theorem entryReads_schedBusy (s : State) : (entryReads s).schedBusy = s.schedBusy := by simp [entryReads]
@[simp] theorem entryReads_budgetRemaining (s : State) :
    (entryReads s).budgetRemaining = s.budgetRemaining := by simp [entryReads]
@[simp] theorem entryReads_drained (s : State) : (entryReads s).drained = s.drained := by simp [entryReads]
@[simp] theorem entryReads_timerArmed (s : State) : (entryReads s).timerArmed = s.timerArmed := by simp [entryReads]
@[simp] theorem entryReads_timerDeadline (s : State) :
    (entryReads s).timerDeadline = s.timerDeadline := by simp [entryReads]
@[simp] theorem entryReads_lastLogValid (s : State) :
    (entryReads s).lastLogValid = s.lastLogValid := by simp [entryReads]
@[simp] theorem entryReads_lastLogTime (s : State) :
    (entryReads s).lastLogTime = s.lastLogTime := by simp [entryReads]
@[simp] theorem entryReads_lock (s : State) : (entryReads s).lock = s.lock := by simp [entryReads]
@[simp] theorem entryReads_inbox (s : State) : (entryReads s).inbox = s.inbox := by simp [entryReads]
@[simp] theorem entryReads_args (s : State) : (entryReads s).args = s.args := by simp [entryReads]
@[simp] theorem entryReads_ret (s : State) : (entryReads s).ret = s.ret := by simp [entryReads]
@[simp] theorem entryReads_agenda (s : State) : (entryReads s).agenda = s.agenda := by simp [entryReads]
@[simp] theorem entryReads_clock (s : State) : (entryReads s).clock = s.clock := by simp [entryReads]
@[simp] theorem entryReads_allocs (s : State) : (entryReads s).allocs = s.allocs := by simp [entryReads]
@[simp] theorem entryReads_out (s : State) : (entryReads s).out = s.out := by simp [entryReads]
@[simp] theorem entryReads_responses (s : State) : (entryReads s).responses = s.responses := by simp [entryReads]
@[simp] theorem entryReads_raised (s : State) : (entryReads s).raised = s.raised := by simp [entryReads]
@[simp] theorem entryReads_rejections (s : State) : (entryReads s).rejections = s.rejections := by simp [entryReads]

/-! ### `timingWrites`: the fields its accesses do not touch -/

@[simp] theorem timingWrites_snap (tp : Timing) (s : State) :
    (timingWrites tp s).snap = s.snap := by simp [timingWrites]
@[simp] theorem timingWrites_srValid (tp : Timing) (s : State) :
    (timingWrites tp s).srValid = s.srValid := by simp [timingWrites]
@[simp] theorem timingWrites_params (tp : Timing) (s : State) :
    (timingWrites tp s).params = s.params := by simp [timingWrites]
@[simp] theorem timingWrites_timing (tp : Timing) (s : State) :
    (timingWrites tp s).timing = s.timing := by simp [timingWrites]
@[simp] theorem timingWrites_bitrateConfigured (tp : Timing) (s : State) :
    (timingWrites tp s).bitrateConfigured = s.bitrateConfigured := by simp [timingWrites]
@[simp] theorem timingWrites_base (tp : Timing) (s : State) :
    (timingWrites tp s).base = s.base := by simp [timingWrites]
@[simp] theorem timingWrites_baseValid (tp : Timing) (s : State) :
    (timingWrites tp s).baseValid = s.baseValid := by simp [timingWrites]
@[simp] theorem timingWrites_mode (tp : Timing) (s : State) :
    (timingWrites tp s).mode = s.mode := by simp [timingWrites]
@[simp] theorem timingWrites_schedBusy (tp : Timing) (s : State) :
    (timingWrites tp s).schedBusy = s.schedBusy := by simp [timingWrites]
@[simp] theorem timingWrites_budgetRemaining (tp : Timing) (s : State) :
    (timingWrites tp s).budgetRemaining = s.budgetRemaining := by simp [timingWrites]
@[simp] theorem timingWrites_drained (tp : Timing) (s : State) :
    (timingWrites tp s).drained = s.drained := by simp [timingWrites]
@[simp] theorem timingWrites_timerArmed (tp : Timing) (s : State) :
    (timingWrites tp s).timerArmed = s.timerArmed := by simp [timingWrites]
@[simp] theorem timingWrites_timerDeadline (tp : Timing) (s : State) :
    (timingWrites tp s).timerDeadline = s.timerDeadline := by simp [timingWrites]
@[simp] theorem timingWrites_lastLogValid (tp : Timing) (s : State) :
    (timingWrites tp s).lastLogValid = s.lastLogValid := by simp [timingWrites]
@[simp] theorem timingWrites_lastLogTime (tp : Timing) (s : State) :
    (timingWrites tp s).lastLogTime = s.lastLogTime := by simp [timingWrites]
@[simp] theorem timingWrites_lock (tp : Timing) (s : State) :
    (timingWrites tp s).lock = s.lock := by simp [timingWrites]
@[simp] theorem timingWrites_inbox (tp : Timing) (s : State) :
    (timingWrites tp s).inbox = s.inbox := by simp [timingWrites]
@[simp] theorem timingWrites_args (tp : Timing) (s : State) :
    (timingWrites tp s).args = s.args := by simp [timingWrites]
@[simp] theorem timingWrites_ret (tp : Timing) (s : State) : (timingWrites tp s).ret = s.ret := by simp [timingWrites]
@[simp] theorem timingWrites_agenda (tp : Timing) (s : State) :
    (timingWrites tp s).agenda = s.agenda := by simp [timingWrites]
@[simp] theorem timingWrites_clock (tp : Timing) (s : State) :
    (timingWrites tp s).clock = s.clock := by simp [timingWrites]
@[simp] theorem timingWrites_allocs (tp : Timing) (s : State) :
    (timingWrites tp s).allocs = s.allocs := by simp [timingWrites]
@[simp] theorem timingWrites_reads (tp : Timing) (s : State) :
    (timingWrites tp s).reads = s.reads := by simp [timingWrites]
@[simp] theorem timingWrites_out (tp : Timing) (s : State) : (timingWrites tp s).out = s.out := by simp [timingWrites]
@[simp] theorem timingWrites_responses (tp : Timing) (s : State) :
    (timingWrites tp s).responses = s.responses := by simp [timingWrites]
@[simp] theorem timingWrites_raised (tp : Timing) (s : State) :
    (timingWrites tp s).raised = s.raised := by simp [timingWrites]
@[simp] theorem timingWrites_rejections (tp : Timing) (s : State) :
    (timingWrites tp s).rejections = s.rejections := by simp [timingWrites]

/-! ### `pulseWrites`: the fields its accesses do not touch -/

@[simp] theorem pulseWrites_snap (s : State) : (pulseWrites s).snap = s.snap := by simp [pulseWrites]
@[simp] theorem pulseWrites_srValid (s : State) : (pulseWrites s).srValid = s.srValid := by simp [pulseWrites]
@[simp] theorem pulseWrites_params (s : State) : (pulseWrites s).params = s.params := by simp [pulseWrites]
@[simp] theorem pulseWrites_timing (s : State) : (pulseWrites s).timing = s.timing := by simp [pulseWrites]
@[simp] theorem pulseWrites_bitrateConfigured (s : State) :
    (pulseWrites s).bitrateConfigured = s.bitrateConfigured := by simp [pulseWrites]
@[simp] theorem pulseWrites_base (s : State) : (pulseWrites s).base = s.base := by simp [pulseWrites]
@[simp] theorem pulseWrites_baseValid (s : State) : (pulseWrites s).baseValid = s.baseValid := by simp [pulseWrites]
@[simp] theorem pulseWrites_mode (s : State) : (pulseWrites s).mode = s.mode := by simp [pulseWrites]
@[simp] theorem pulseWrites_schedBusy (s : State) : (pulseWrites s).schedBusy = s.schedBusy := by simp [pulseWrites]
@[simp] theorem pulseWrites_budgetRemaining (s : State) :
    (pulseWrites s).budgetRemaining = s.budgetRemaining := by simp [pulseWrites]
@[simp] theorem pulseWrites_drained (s : State) : (pulseWrites s).drained = s.drained := by simp [pulseWrites]
@[simp] theorem pulseWrites_timerArmed (s : State) :
    (pulseWrites s).timerArmed = s.timerArmed := by simp [pulseWrites]
@[simp] theorem pulseWrites_timerDeadline (s : State) :
    (pulseWrites s).timerDeadline = s.timerDeadline := by simp [pulseWrites]
@[simp] theorem pulseWrites_lastLogValid (s : State) :
    (pulseWrites s).lastLogValid = s.lastLogValid := by simp [pulseWrites]
@[simp] theorem pulseWrites_lastLogTime (s : State) :
    (pulseWrites s).lastLogTime = s.lastLogTime := by simp [pulseWrites]
@[simp] theorem pulseWrites_lock (s : State) : (pulseWrites s).lock = s.lock := by simp [pulseWrites]
@[simp] theorem pulseWrites_inbox (s : State) : (pulseWrites s).inbox = s.inbox := by simp [pulseWrites]
@[simp] theorem pulseWrites_args (s : State) : (pulseWrites s).args = s.args := by simp [pulseWrites]
@[simp] theorem pulseWrites_ret (s : State) : (pulseWrites s).ret = s.ret := by simp [pulseWrites]
@[simp] theorem pulseWrites_agenda (s : State) : (pulseWrites s).agenda = s.agenda := by simp [pulseWrites]
@[simp] theorem pulseWrites_clock (s : State) : (pulseWrites s).clock = s.clock := by simp [pulseWrites]
@[simp] theorem pulseWrites_allocs (s : State) : (pulseWrites s).allocs = s.allocs := by simp [pulseWrites]
@[simp] theorem pulseWrites_reads (s : State) : (pulseWrites s).reads = s.reads := by simp [pulseWrites]
@[simp] theorem pulseWrites_out (s : State) : (pulseWrites s).out = s.out := by simp [pulseWrites]
@[simp] theorem pulseWrites_responses (s : State) : (pulseWrites s).responses = s.responses := by simp [pulseWrites]
@[simp] theorem pulseWrites_raised (s : State) : (pulseWrites s).raised = s.raised := by simp [pulseWrites]
@[simp] theorem pulseWrites_rejections (s : State) :
    (pulseWrites s).rejections = s.rejections := by simp [pulseWrites]

/-! ### `logThrottled`: the fields neither of its branches touches -/

@[simp] theorem logThrottled_snap (c : LogCategory) (s : State) : (logThrottled c s).snap = s.snap := by
  unfold logThrottled; split <;> rfl
@[simp] theorem logThrottled_srValid (c : LogCategory) (s : State) : (logThrottled c s).srValid = s.srValid := by
  unfold logThrottled; split <;> rfl
@[simp] theorem logThrottled_params (c : LogCategory) (s : State) : (logThrottled c s).params = s.params := by
  unfold logThrottled; split <;> rfl
@[simp] theorem logThrottled_timing (c : LogCategory) (s : State) : (logThrottled c s).timing = s.timing := by
  unfold logThrottled; split <;> rfl
@[simp] theorem logThrottled_bitrateConfigured (c : LogCategory) (s : State) : (logThrottled c s).bitrateConfigured = s.bitrateConfigured := by
  unfold logThrottled; split <;> rfl
@[simp] theorem logThrottled_base (c : LogCategory) (s : State) : (logThrottled c s).base = s.base := by
  unfold logThrottled; split <;> rfl
@[simp] theorem logThrottled_baseValid (c : LogCategory) (s : State) : (logThrottled c s).baseValid = s.baseValid := by
  unfold logThrottled; split <;> rfl
@[simp] theorem logThrottled_mode (c : LogCategory) (s : State) : (logThrottled c s).mode = s.mode := by
  unfold logThrottled; split <;> rfl
@[simp] theorem logThrottled_schedBusy (c : LogCategory) (s : State) : (logThrottled c s).schedBusy = s.schedBusy := by
  unfold logThrottled; split <;> rfl
@[simp] theorem logThrottled_budgetRemaining (c : LogCategory) (s : State) : (logThrottled c s).budgetRemaining = s.budgetRemaining := by
  unfold logThrottled; split <;> rfl
@[simp] theorem logThrottled_drained (c : LogCategory) (s : State) : (logThrottled c s).drained = s.drained := by
  unfold logThrottled; split <;> rfl
@[simp] theorem logThrottled_timerArmed (c : LogCategory) (s : State) : (logThrottled c s).timerArmed = s.timerArmed := by
  unfold logThrottled; split <;> rfl
@[simp] theorem logThrottled_timerDeadline (c : LogCategory) (s : State) : (logThrottled c s).timerDeadline = s.timerDeadline := by
  unfold logThrottled; split <;> rfl
@[simp] theorem logThrottled_lock (c : LogCategory) (s : State) : (logThrottled c s).lock = s.lock := by
  unfold logThrottled; split <;> rfl
@[simp] theorem logThrottled_periph (c : LogCategory) (s : State) : (logThrottled c s).periph = s.periph := by
  unfold logThrottled; split <;> rfl
@[simp] theorem logThrottled_inbox (c : LogCategory) (s : State) : (logThrottled c s).inbox = s.inbox := by
  unfold logThrottled; split <;> rfl
@[simp] theorem logThrottled_args (c : LogCategory) (s : State) : (logThrottled c s).args = s.args := by
  unfold logThrottled; split <;> rfl
@[simp] theorem logThrottled_ret (c : LogCategory) (s : State) : (logThrottled c s).ret = s.ret := by
  unfold logThrottled; split <;> rfl
@[simp] theorem logThrottled_agenda (c : LogCategory) (s : State) : (logThrottled c s).agenda = s.agenda := by
  unfold logThrottled; split <;> rfl
@[simp] theorem logThrottled_clock (c : LogCategory) (s : State) : (logThrottled c s).clock = s.clock := by
  unfold logThrottled; split <;> rfl
@[simp] theorem logThrottled_allocs (c : LogCategory) (s : State) : (logThrottled c s).allocs = s.allocs := by
  unfold logThrottled; split <;> rfl
@[simp] theorem logThrottled_reads (c : LogCategory) (s : State) : (logThrottled c s).reads = s.reads := by
  unfold logThrottled; split <;> rfl
@[simp] theorem logThrottled_bus (c : LogCategory) (s : State) : (logThrottled c s).bus = s.bus := by
  unfold logThrottled; split <;> rfl
@[simp] theorem logThrottled_responses (c : LogCategory) (s : State) : (logThrottled c s).responses = s.responses := by
  unfold logThrottled; split <;> rfl
@[simp] theorem logThrottled_raised (c : LogCategory) (s : State) : (logThrottled c s).raised = s.raised := by
  unfold logThrottled; split <;> rfl
@[simp] theorem logThrottled_rejections (c : LogCategory) (s : State) : (logThrottled c s).rejections = s.rejections := by
  unfold logThrottled; split <;> rfl
@[simp] theorem logThrottled_draws (c : LogCategory) (s : State) : (logThrottled c s).draws = s.draws + 1 := by
  unfold logThrottled; split <;> rfl

end Sys2Proof.Machine
end

