-- ==== Sys2Proof/Laws/Ops.lean ====
section
/-!
SUPPORT. What the shared operations can do, said once: sequencing, the environment's moves, the lock, and the
holding registers.  Later proofs cite these instead of unfolding the operations.
-/

namespace Sys2Proof.Machine

/-! ### Sequencing -/

@[simp] theorem andThen_next (s : State) (f : State → Answer) : andThen (.next s) f = f s := rfl
@[simp] theorem andThen_fault (r : Fault) (f : State → Answer) : andThen (.fault r) f = .fault r := rfl
@[simp] theorem andThen_refused (r : Refusal) (f : State → Answer) : andThen (.refused r) f = .refused r := rfl

/-- A sequence answers a next state exactly when both parts do. -/
theorem andThen_eq_next {o : Answer} {f : State → Answer} {t : State} :
    andThen o f = .next t ↔ ∃ s, o = .next s ∧ f s = .next t := by
  cases o <;> simp [andThen]

/-! ### The environment -/

/-- What no move of the environment touches: the block state, the observations, the call registers (R15, R45), and
the parameters. -/
def SameBlock (s t : State) : Prop :=
  t.block = s.block ∧ t.observed = s.observed ∧ t.callRegs = s.callRegs ∧ t.params = s.params

theorem SameBlock.rfl {s : State} : SameBlock s s := ⟨Eq.refl _, Eq.refl _, Eq.refl _, Eq.refl _⟩

theorem SameBlock.trans {s t u : State} (h : SameBlock s t) (k : SameBlock t u) : SameBlock s u :=
  ⟨k.1.trans h.1, k.2.1.trans h.2.1, k.2.2.1.trans h.2.2.1, k.2.2.2.trans h.2.2.2⟩

/-- A move of the environment leaves the block's own part of the state alone. -/
theorem envStep_sameBlock (e : EnvStep) (s : State) : SameBlock s (envStep e s) := by
  cases e <;> simp only [envStep] <;> (repeat' split) <;> exact ⟨rfl, rfl, rfl, rfl⟩

/-- A move of the environment does not take the lock for the block. -/
theorem envStep_lock (e : EnvStep) {s : State} (hl : s.lock ≠ .held .block) :
    (envStep e s).lock ≠ .held .block := by
  cases e <;> simp only [envStep] <;> (repeat' split) <;> simp_all

/-- A move of the environment has nothing to do with the turns to come. -/
theorem envStep_agenda (e : EnvStep) (a : List Turn) (s : State) :
    envStep e { s with agenda := a } = { envStep e s with agenda := a } := by
  cases e <;> simp only [envStep, State.reject] <;> (repeat' split) <;> rfl

/-- Finitely many moves of the environment. -/
inductive EnvMoves : State → State → Prop where
  | refl (s : State) : EnvMoves s s
  | step {s t : State} (e : EnvStep) : EnvMoves (envStep e s) t → EnvMoves s t

theorem EnvMoves.sameBlock {s t : State} (h : EnvMoves s t) : SameBlock s t := by
  induction h with
  | refl s => exact .rfl
  | step e _ ih => exact (envStep_sameBlock e _).trans ih

/-! ### The lock -/

/-- Everything an Acquire that succeeds does: moves of the environment, then the block takes a free lock. -/
theorem acquireFrom_next {l : List Turn} {s t : State} (h : acquireFrom l s = .next t) :
    ∃ rest u, EnvMoves s u ∧ u.lock = .free ∧ t = takeLock rest u := by
  induction l generalizing s with
  | nil =>
    simp only [acquireFrom] at h
    split at h
    · cases h; exact ⟨[], s, .refl s, by assumption, rfl⟩
    · cases h
  | cons x rest ih =>
    cases x with
    | env e =>
      obtain ⟨r, u, hm, hl, rfl⟩ := ih h
      exact ⟨r, u, .step e hm, hl, rfl⟩
    | timer => exact ih h
    | block =>
      simp only [acquireFrom] at h
      split at h
      · cases h; exact ⟨rest, s, .refl s, by assumption, rfl⟩
      · exact ih h

/-- What an Acquire does depends on the turns it is given, not on the list they were taken from. -/
theorem acquireFrom_agenda (l a : List Turn) (s : State) : acquireFrom l { s with agenda := a } = acquireFrom l s := by
  induction l generalizing s a with
  | nil => rfl
  | cons x rest ih =>
    cases x with
    | env e =>
      simp only [acquireFrom]
      rw [envStep_agenda, ih]
    | timer => exact ih a s
    | block =>
      simp only [acquireFrom]
      split
      · rfl
      · exact ih a s

theorem acquire_next {s t : State} (h : acquire s = .next t) :
    ∃ rest u, EnvMoves s u ∧ u.lock = .free ∧ t = takeLock rest u := acquireFrom_next h

/-- What an Acquire leaves of the block's own part: only the trace grows, by the Acquire. -/
structure Acquired (s t : State) : Prop where
  block     : t.block = s.block
  bus       : t.bus = s.bus ++ [.acquire]
  out       : t.out = s.out
  responses : t.responses = s.responses
  raised    : t.raised = s.raised
  callRegs  : t.callRegs = s.callRegs
  lock      : t.lock = .held .block
  params    : t.params = s.params

theorem acquire_acquired {s t : State} (h : acquire s = .next t) : Acquired s t := by
  obtain ⟨rest, u, hm, -, rfl⟩ := acquire_next h
  obtain ⟨hb, ho, hc, hp⟩ := hm.sameBlock
  have hbus := congrArg Observed.bus ho
  have hout := congrArg Observed.out ho
  have hres := congrArg Observed.responses ho
  have hrai := congrArg Observed.raised ho
  simp only [State.observed] at hbus hout hres hrai
  exact ⟨hb, by simp [hbus], by simp [hout], by simp [hres], by simp [hrai], hc, rfl, hp⟩

/-- Undisturbed, the block takes the lock at once. -/
theorem acquire_undisturbed {s : State} (h : s.Undisturbed) : acquire s = .next (takeLock [] s) := by
  obtain ⟨ha, hl⟩ := h
  simp [acquire, ha, acquireFrom, hl]

theorem withLock_next {f : State → State} {s t : State} :
    withLock f s = .next t ↔ ∃ s1, acquire s = .next s1 ∧ t = release (f s1) := by
  rw [withLock, andThen_eq_next]
  exact exists_congr fun s1 => and_congr_right fun _ => by rw [Host.Outcome.next.injEq, eq_comm]

theorem withLock_undisturbed {f : State → State} {s : State} (h : s.Undisturbed) :
    withLock f s = .next (release (f (takeLock [] s))) := by
  simp [withLock, acquire_undisturbed h]

/-! ### Holding registers -/

@[simp] theorem Snapshot.get_put (r : ReadReg) (v : Word) (sr : Snapshot) : (sr.put r v).get r = v := by
  cases r <;> rfl

theorem Snapshot.get_put_of_ne {r q : ReadReg} (v : Word) (sr : Snapshot) (h : r ≠ q) :
    (sr.put r v).get q = sr.get q := by
  cases r <;> cases q <;> first | rfl | exact absurd rfl h

/-- With every valid bit set no read of a holding register faults. -/
theorem srFault_allValid {s : State} (rs : List ReadReg) (h : s.srValid = allValidBits) : srFault rs s = none := by
  have : ∀ r ∈ rs, ¬ (!srValidBit r s.srValid) = true := by
    intro r _
    rw [h]
    cases r <;> decide
  simp only [srFault, List.find?_eq_none.mpr this, Option.map_none]

/-- A read faults on no register exactly when all their valid bits are set. -/
theorem srFault_eq_none {s : State} {rs : List ReadReg} :
    srFault rs s = none ↔ ∀ r ∈ rs, srValidBit r s.srValid = true := by
  simp [srFault]

end Sys2Proof.Machine
end

