-- ==== Sys2Proof/Laws/RegisterModel.lean ====
section
/-!
SUPPORT. What the four Register Model operations do, said once (41_register_model.md R151 to R156).
-/

namespace Sys2Proof.Machine

/-! ### The reads -/

/-- The snapshot after the three status reads. -/
theorem statusReads_snap (s : State) :
    (statusReads s).snap = { s.snap with
      bufferStatus := (statusReads s).snap.bufferStatus
      errorStatus := (statusReads s).snap.errorStatus
      missedStatus := (statusReads s).snap.missedStatus } := by
  simp [statusReads, Snapshot.put]

/-- The bus trace of the three status reads. -/
theorem statusReads_bus (s : State) :
    (statusReads s).bus = s.bus ++ [.read .bufferStatus (statusReads s).snap.bufferStatus,
      .read .errorStatus (statusReads s).snap.errorStatus, .read .missedStatus (statusReads s).snap.missedStatus] := by
  simp [statusReads, Snapshot.put]

/-- The bus trace of the eight per-entry reads. -/
theorem entryReads_bus (s : State) :
    (entryReads s).bus = s.bus ++ [.read .frameType (entryReads s).snap.frameType,
      .read .timestampLow (entryReads s).snap.timestampLow, .read .timestampHigh (entryReads s).snap.timestampHigh,
      .read .canId (entryReads s).snap.canId, .read .dlc (entryReads s).snap.dlc, .read .crc (entryReads s).snap.crc,
      .read .dataLow (entryReads s).snap.dataLow, .barrier, .read .dataHigh (entryReads s).snap.dataHigh] := by
  simp [entryReads, Snapshot.put]

/-- The per-entry reads leave the status words as the status reads put them. -/
theorem entryReads_status (s : State) :
    (entryReads s).snap.bufferStatus = s.snap.bufferStatus ∧ (entryReads s).snap.errorStatus = s.snap.errorStatus ∧
      (entryReads s).snap.missedStatus = s.snap.missedStatus := by
  simp [entryReads, Snapshot.put]

/-- A read that is not of data-high changes nothing in the peripheral (R65, R81). -/
theorem afterRead_of_ne {r : ReadReg} (p : Peripheral) (h : r ≠ .dataHigh) : p.afterRead r = p := by
  cases r <;> first | exact absurd rfl h | (cases hs : p.source <;> simp [Peripheral.afterRead, hs])

/-- The status reads change nothing in the peripheral (R65). -/
theorem statusReads_periph (s : State) : (statusReads s).periph = s.periph := by
  simp [statusReads, afterRead_of_ne]

/-- The per-entry reads discard the head entry (R78). -/
theorem entryReads_periph (s : State) : (entryReads s).periph = s.periph.afterRead .dataHigh := by
  simp [entryReads, afterRead_of_ne]

/-! ### READ_STATUS -/

theorem readStatus_next {s t : State} :
    readStatus s = .next t ↔ ∃ s1, acquire s = .next s1 ∧
      t = { release (statusReads s1) with srValid := s1.srValid ||| statusValidBits } := by
  rw [readStatus, andThen_eq_next]
  constructor
  · rintro ⟨u, hu, ht⟩
    obtain ⟨s1, h1, rfl⟩ := withLock_next.mp hu
    exact ⟨s1, h1, (Host.Outcome.next.inj ht).symm⟩
  · rintro ⟨s1, h1, rfl⟩
    exact ⟨_, withLock_next.mpr ⟨s1, h1, rfl⟩, rfl⟩

theorem readStatus_undisturbed {s : State} (h : s.Undisturbed) :
    readStatus s = .next { release (statusReads (takeLock [] s)) with srValid := s.srValid ||| statusValidBits } :=
  readStatus_next.mpr ⟨_, acquire_undisturbed h, rfl⟩

/-- What READ_STATUS leaves of the block's own part (R151). -/
structure StatusRead (s t : State) : Prop where
  block     : t.block = { s.block with snap := t.snap, srValid := s.srValid ||| statusValidBits }
  snap      : t.snap = { s.snap with bufferStatus := t.snap.bufferStatus, errorStatus := t.snap.errorStatus,
                                     missedStatus := t.snap.missedStatus }
  bus       : t.bus = s.bus ++ statusHold t.snap
  out       : t.out = s.out
  responses : t.responses = s.responses
  raised    : t.raised = s.raised
  callRegs  : t.callRegs = s.callRegs
  lock      : t.lock = .free
  params    : t.params = s.params

theorem readStatus_spec {s t : State} (h : readStatus s = .next t) : StatusRead s t := by
  obtain ⟨s1, h1, rfl⟩ := readStatus_next.mp h
  obtain ⟨hb, hbus, hout, hres, hrai, hc, -, hp⟩ := acquire_acquired h1
  have hsnap : s1.snap = s.snap := congrArg BlockState.snap hb
  have hvalid : s1.srValid = s.srValid := congrArg BlockState.srValid hb
  refine ⟨?_, ?_, ?_, ?_, ?_, ?_, ?_, ?_, ?_⟩
  · rw [← hb, ← hvalid]
    simp [State.block]
  · simp only [release_snap]
    rw [statusReads_snap s1, hsnap]
  · simp only [release_bus, release_snap]
    rw [statusReads_bus, hbus]
    simp [statusHold]
  all_goals simp_all [State.callRegs]

/-! ### READ_FRAME -/

theorem readFrame_next {s t : State} :
    readFrame s = .next t ↔ ∃ s1, acquire s = .next s1 ∧
      t = { release (entryReads (statusReads s1)) with srValid := allValidBits } := by
  rw [readFrame, andThen_eq_next]
  constructor
  · rintro ⟨u, hu, ht⟩
    obtain ⟨s1, h1, rfl⟩ := withLock_next.mp hu
    exact ⟨s1, h1, (Host.Outcome.next.inj ht).symm⟩
  · rintro ⟨s1, h1, rfl⟩
    exact ⟨_, withLock_next.mpr ⟨s1, h1, rfl⟩, rfl⟩

theorem readFrame_undisturbed {s : State} (h : s.Undisturbed) :
    readFrame s = .next { release (entryReads (statusReads (takeLock [] s))) with srValid := allValidBits } :=
  readFrame_next.mpr ⟨_, acquire_undisturbed h, rfl⟩

/-- What READ_FRAME leaves of the block's own part (R153). -/
structure FrameRead (s t : State) : Prop where
  block     : t.block = { s.block with snap := t.snap, srValid := allValidBits }
  bus       : t.bus = s.bus ++ frameHold t.snap
  out       : t.out = s.out
  responses : t.responses = s.responses
  raised    : t.raised = s.raised
  callRegs  : t.callRegs = s.callRegs
  lock      : t.lock = .free
  params    : t.params = s.params

theorem readFrame_spec {s t : State} (h : readFrame s = .next t) : FrameRead s t := by
  obtain ⟨s1, h1, rfl⟩ := readFrame_next.mp h
  obtain ⟨hb, hbus, hout, hres, hrai, hc, -, hp⟩ := acquire_acquired h1
  obtain ⟨e0, e1, e2⟩ := entryReads_status (statusReads s1)
  refine ⟨?_, ?_, ?_, ?_, ?_, ?_, ?_, ?_⟩
  · rw [← hb]
    simp [State.block]
  · simp only [release_bus, release_snap]
    rw [entryReads_bus, statusReads_bus, hbus, ← e0, ← e1, ← e2]
    simp [frameHold]
  all_goals simp_all [State.callRegs]

/-! ### WRITE_TIMING and PULSE_RESET -/

/-- The bus trace of the five timing writes. -/
theorem timingWrites_bus (tp : Timing) (s : State) :
    (timingWrites tp s).bus = s.bus ++ [.write .syncSeg (fieldWord s.params.layout.syncSeg tp.syncSeg),
      .write .propSeg (fieldWord s.params.layout.propSeg tp.propSeg),
      .write .phaseSeg1 (fieldWord s.params.layout.phaseSeg1 tp.phaseSeg1),
      .write .phaseSeg2 (fieldWord s.params.layout.phaseSeg2 tp.phaseSeg2),
      .write .prescaler (fieldWord s.params.layout.prescaler tp.brp)] := by
  simp [timingWrites]

/-- The five timing registers take the values, the rest of the peripheral stays (R155, R83). -/
theorem timingWrites_periph (tp : Timing) (s : State) :
    (timingWrites tp s).periph = { s.periph with regs := tp } := by
  have h (n : Fin 25) (v : Byte) : fieldAt n 8 (fieldWord n v) = v :=
    fieldAt_fieldWord v (by have := n.isLt; omega)
  simp [timingWrites, Peripheral.write, h]

/-- The bus trace of a reset pulse. -/
theorem pulseWrites_bus (s : State) :
    (pulseWrites s).bus = s.bus ++ [.write .resetStrobe (fieldWord s.params.layout.strobe 1#1), .barrier,
      .write .resetStrobe 0] := by
  simp [pulseWrites, strobeAssert]

/-- A reset pulse of the block is a pulse of the peripheral (R82, R156). -/
theorem pulseWrites_periph (s : State) :
    (pulseWrites s).periph = s.periph.pulse (Config.freeMicros (s.draws + 1)) := by
  cases hs : s.periph.source <;>
    simp [pulseWrites, Peripheral.write, Peripheral.pulse, hs]

/-- What an operation that only writes registers leaves of the block's own part: its hold in the trace. -/
structure OnlyBus (hold : List BusEvent) (s t : State) : Prop where
  block     : t.block = s.block
  bus       : t.bus = s.bus ++ hold
  out       : t.out = s.out
  responses : t.responses = s.responses
  raised    : t.raised = s.raised
  callRegs  : t.callRegs = s.callRegs
  lock      : t.lock = .free
  params    : t.params = s.params

theorem writeTiming_spec {tp : Timing} {s t : State} (h : writeTiming tp s = .next t) :
    OnlyBus (timingHold s.params.layout tp) s t := by
  obtain ⟨s1, h1, rfl⟩ := withLock_next.mp h
  obtain ⟨hb, hbus, hout, hres, hrai, hc, -, hp⟩ := acquire_acquired h1
  refine ⟨?_, ?_, ?_, ?_, ?_, ?_, ?_, ?_⟩
  · rw [← hb]
    simp [State.block]
  · rw [release_bus, timingWrites_bus, hbus, hp]
    simp [timingHold]
  all_goals simp_all [State.callRegs]

theorem pulseReset_spec {s t : State} (h : pulseReset s = .next t) :
    OnlyBus (pulseHold s.params.layout) s t := by
  obtain ⟨s1, h1, rfl⟩ := withLock_next.mp h
  obtain ⟨hb, hbus, hout, hres, hrai, hc, -, hp⟩ := acquire_acquired h1
  refine ⟨?_, ?_, ?_, ?_, ?_, ?_, ?_, ?_⟩
  · rw [← hb]
    simp [State.block]
  · rw [release_bus, pulseWrites_bus, hbus, hp]
    simp [pulseHold]
  all_goals simp_all [State.callRegs]

theorem writeTiming_undisturbed {s : State} (tp : Timing) (h : s.Undisturbed) :
    writeTiming tp s = .next (release (timingWrites tp (takeLock [] s))) := withLock_undisturbed h

theorem pulseReset_undisturbed {s : State} (h : s.Undisturbed) :
    pulseReset s = .next (release (pulseWrites (takeLock [] s))) := withLock_undisturbed h

/-- Every Register Model operation leaves an undisturbed state undisturbed. -/
theorem undisturbed_after {s : State} (f : State → State) (h : s.Undisturbed)
    (hf : (f (takeLock [] s)).agenda = s.agenda) : (release (f (takeLock [] s))).Undisturbed :=
  ⟨by rw [release_agenda, hf]; exact h.1, rfl⟩

end Sys2Proof.Machine
end

