-- ==== Sys2Proof/Laws/ErrorLog.lean ====
section
/-!
SUPPORT. What LOG_THROTTLED and CHECK_STATUS do, said once (45_error_log_throttle.md R216, R221).
-/

namespace Sys2Proof.Machine

/-! ### The output without its Log events -/

@[simp] theorem withoutLogs_append (l m : List OutEvent) : withoutLogs (l ++ m) = withoutLogs l ++ withoutLogs m :=
  List.filter_append ..

/-- Leaving out the Log events leaves out no delivery. -/
theorem delivered_withoutLogs (l : List OutEvent) : delivered (withoutLogs l) = delivered l := by
  induction l with
  | nil => rfl
  | cons e l ih => cases e <;> simp_all [delivered, withoutLogs]

/-- Leaving out the Log events leaves out no poll request. -/
theorem pollRequest_mem_withoutLogs (l : List OutEvent) : .pollRequest ∈ withoutLogs l ↔ .pollRequest ∈ l := by
  simp [withoutLogs]

/-- A report of CHECK_STATUS delivers nothing and asks for no poll. -/
theorem delivered_missedReport (lay : Layout) (w : Word) : delivered (missedReport lay w) = [] := by
  unfold missedReport; split <;> rfl

theorem pollRequest_notMem_missedReport (lay : Layout) (w : Word) : .pollRequest ∉ missedReport lay w := by
  unfold missedReport; split <;> simp

/-! ### LOG_THROTTLED -/

theorem logThrottled_out (c : LogCategory) (s : State) :
    (logThrottled c s).out = s.out ++ (if logEmits s then [.log c] else []) := by
  unfold logThrottled; split <;> simp_all

theorem logThrottled_lastLogValid (c : LogCategory) (s : State) :
    (logThrottled c s).lastLogValid = (s.lastLogValid || logEmits s) := by
  unfold logThrottled; split <;> simp_all

theorem logThrottled_lastLogTime (c : LogCategory) (s : State) :
    (logThrottled c s).lastLogTime = if logEmits s then s.monoNow else s.lastLogTime := by
  unfold logThrottled; split <;> simp_all

/-- LOG_THROTTLED writes no block state but the throttle's (R216). -/
theorem logThrottled_block (c : LogCategory) (s : State) :
    (logThrottled c s).block = { s.block with
      lastLogValid := (logThrottled c s).lastLogValid, lastLogTime := (logThrottled c s).lastLogTime } := by
  simp [State.block]

/-- Reporting an exception plays no part in the throttle. -/
@[simp] theorem logEmits_raise (x : Exception) (s : State) : logEmits (s.raise x) = logEmits s := rfl

@[simp] theorem monoNow_raise (x : Exception) (s : State) : (s.raise x).monoNow = s.monoNow := rfl

/-- Pinned clocks read the pinned value. -/
theorem monoNow_pinned {s : State} {r : ClockReading} (h : s.clock = some r) : s.monoNow = r.mono := by
  simp [State.monoNow, State.clockNow, h]

/-- While the clock stands still, nothing is emitted right after a call of LOG_THROTTLED, whatever its category
(R217). -/
theorem logEmits_logThrottled {c : LogCategory} {s : State} {r : ClockReading} (h : s.clock = some r) :
    logEmits (logThrottled c s) = false := by
  have hm : ∀ u : State, u.clock = s.clock → u.monoNow = r.mono := by
    intro u hu
    rw [h] at hu
    simp [State.monoNow, State.clockNow, hu]
  have h1 := hm (logThrottled c s) (by simp)
  have h0 := hm s rfl
  unfold logEmits
  rw [h1, logThrottled_lastLogValid, logThrottled_lastLogTime, h0]
  by_cases hE : logEmits s = true
  · simp [hE, windowOpen, cooldownNs]
  · have hE' := Bool.eq_false_iff.mpr hE
    rw [logEmits, h0] at hE'
    simp [hE, hE']

/-! ### CHECK_STATUS -/

/-- What CHECK_STATUS leaves of the block's own part before the pulse: the throttle, the outputs (`kept`, and any
Log events between them) and the reports. -/
structure Reported (kept : List OutEvent) (s t : State) : Prop where
  block     : t.block = { s.block with lastLogValid := t.lastLogValid, lastLogTime := t.lastLogTime }
  bus       : t.bus = s.bus
  out       : ∃ l, t.out = s.out ++ l ∧ withoutLogs l = kept
  responses : t.responses = s.responses
  callRegs  : t.callRegs = s.callRegs
  lock      : t.lock = s.lock
  agenda    : t.agenda = s.agenda
  allocs    : t.allocs = s.allocs
  inbox     : t.inbox = s.inbox
  clock     : t.clock = s.clock
  periph    : t.periph = s.periph
  reads     : t.reads = s.reads
  params    : t.params = s.params

theorem Reported.refl (s : State) : Reported [] s s :=
  ⟨rfl, rfl, ⟨[], by simp, rfl⟩, rfl, rfl, rfl, rfl, rfl, rfl, rfl, rfl, rfl, rfl⟩

theorem Reported.trans {a b : List OutEvent} {s t u : State} (h : Reported a s t) (k : Reported b t u) :
    Reported (a ++ b) s u := by
  obtain ⟨l, hl, rfl⟩ := h.out
  obtain ⟨m, hm, rfl⟩ := k.out
  refine ⟨?_, k.bus.trans h.bus, ⟨l ++ m, by rw [hm, hl, List.append_assoc], by simp⟩,
    k.responses.trans h.responses, k.callRegs.trans h.callRegs, k.lock.trans h.lock, k.agenda.trans h.agenda,
    k.allocs.trans h.allocs, k.inbox.trans h.inbox, k.clock.trans h.clock, k.periph.trans h.periph, k.reads.trans h.reads,
    k.params.trans h.params⟩
  rw [k.block, h.block]

theorem reported_logThrottled (c : LogCategory) (s : State) : Reported [] s (logThrottled c s) := by
  refine ⟨logThrottled_block c s, by simp, ⟨_, logThrottled_out c s, ?_⟩, by simp, by simp [State.callRegs],
    by simp, by simp, by simp, by simp, by simp, by simp, by simp, by simp⟩
  split <;> rfl

theorem reported_raise (x : Exception) (s : State) : Reported [] s (s.raise x) :=
  ⟨rfl, rfl, ⟨[], by simp, rfl⟩, rfl, rfl, rfl, rfl, rfl, rfl, rfl, rfl, rfl, rfl⟩

theorem reported_recordMissed (n : Word) (o : Bool) (s : State) :
    Reported [.recordMissed n o] s (s.emit (.recordMissed n o)) :=
  ⟨rfl, rfl, ⟨_, rfl, rfl⟩, rfl, rfl, rfl, rfl, rfl, rfl, rfl, rfl, rfl, rfl⟩

theorem reported_checkPeripheral (s : State) : Reported [] s (checkPeripheral s) := by
  unfold checkPeripheral
  split
  · exact .refl s
  · exact (reported_raise _ s).trans (reported_logThrottled _ _)

theorem reported_reportMissed (n : BitVec 31) (o : Bool) (s : State) :
    Reported [.recordMissed (n.setWidth 32) o] s (reportMissed n o s) := by
  have h2 : Reported [] (s.raise (.missedFrames n o))
      (if n = 0 then s.raise (.missedFrames n o) else logThrottled .missed (s.raise (.missedFrames n o))) := by
    split
    · exact .refl _
    · exact reported_logThrottled _ _
  have h3 : ∀ u : State, Reported [] u (if o then logThrottled .missedOverflow u else u) := by
    intro u
    split
    · exact reported_logThrottled _ _
    · exact .refl _
  exact (((reported_raise _ s).trans h2).trans (h3 _)).trans (reported_recordMissed _ _ _)

/-- The snapshot is not touched by a report. -/
theorem Reported.snap_eq {kept : List OutEvent} {s t : State} (h : Reported kept s t) : t.snap = s.snap :=
  congrArg BlockState.snap h.block

/-- Everything a CHECK_STATUS that answers does: both words are valid, the reports are made, and exactly on a
missed-frame condition the reset is pulsed (R221). -/
theorem checkStatus_next {s t : State} (h : checkStatus s = .next t) :
    srFault checkReads s = none ∧
    ((missedCondition s.params.layout s.snap.missedStatus = false ∧ t = checkPeripheral s) ∨
     (missedCondition s.params.layout s.snap.missedStatus = true ∧
      ∃ u, Reported (missedReport s.params.layout s.snap.missedStatus) s u ∧ pulseReset u = .next t)) := by
  unfold checkStatus at h
  split at h
  · cases h
  · next hf =>
    refine ⟨hf, ?_⟩
    have hs := (reported_checkPeripheral s).snap_eq
    have hp := (reported_checkPeripheral s).params
    simp only [checkMissed, hs, hp] at h
    split at h
    · next hm =>
      rw [missedReport, if_pos hm]
      exact .inr ⟨hm, _, (reported_checkPeripheral s).trans (reported_reportMissed _ _ _), h⟩
    · next hm => cases h; exact .inl ⟨by simpa using hm, rfl⟩

/-- What CHECK_STATUS leaves of the block's own part. -/
structure StatusChecked (s t : State) : Prop where
  block     : t.block = { s.block with lastLogValid := t.lastLogValid, lastLogTime := t.lastLogTime }
  bus       : t.bus = s.bus ++
    if missedCondition s.params.layout s.snap.missedStatus then pulseHold s.params.layout else []
  out       : ∃ l, t.out = s.out ++ l ∧ withoutLogs l = missedReport s.params.layout s.snap.missedStatus
  responses : t.responses = s.responses
  callRegs  : t.callRegs = s.callRegs
  lock      : t.lock = s.lock ∨ t.lock = .free
  params    : t.params = s.params

theorem checkStatus_spec {s t : State} (h : checkStatus s = .next t) : StatusChecked s t := by
  obtain ⟨-, ⟨hm, rfl⟩ | ⟨hm, u, hr, hp⟩⟩ := checkStatus_next h
  · have hr := reported_checkPeripheral s
    exact ⟨hr.block, by simp [hm, hr.bus], by simpa [missedReport, hm] using hr.out,
      hr.responses, hr.callRegs, .inl hr.lock, hr.params⟩
  · have ho := pulseReset_spec hp
    have hv : t.lastLogValid = u.lastLogValid := congrArg BlockState.lastLogValid ho.block
    have ht : t.lastLogTime = u.lastLogTime := congrArg BlockState.lastLogTime ho.block
    exact ⟨by rw [ho.block, hr.block, hv, ht], by simp [hm, ho.bus, hr.bus, hr.params], by rw [ho.out]; exact hr.out,
      ho.responses.trans hr.responses, ho.callRegs.trans hr.callRegs, .inr ho.lock,
      ho.params.trans hr.params⟩

/-- The missed-frame condition in the words of the rule (R221). -/
theorem missedCondition_iff (lay : Layout) (w : Word) :
    missedCondition lay w = true ↔ missedCount lay w ≠ 0 ∨ missedOverflow lay w = true := by
  simp [missedCondition]

/-- Clear status words make CHECK_STATUS do nothing (R221). -/
theorem checkStatus_clear {s : State} (hv : srFault checkReads s = none) (he : s.snap.errorStatus = 0)
    (hm : s.snap.missedStatus = 0) : checkStatus s = .next s := by
  simp [checkStatus, hv, checkMissed, checkPeripheral, he, hm]

/-- Undisturbed, CHECK_STATUS completes when its words are valid; the state stays undisturbed and the clocks as they
were. -/
theorem checkStatus_undisturbed {s : State} (h : s.Undisturbed) (hv : srFault checkReads s = none) :
    ∃ t, checkStatus s = .next t ∧ t.Undisturbed ∧ t.clock = s.clock := by
  have hs := (reported_checkPeripheral s).snap_eq
  have hp := (reported_checkPeripheral s).params
  simp only [checkStatus, hv, checkMissed, hs, hp]
  split
  · have hr := (reported_checkPeripheral s).trans
      (reported_reportMissed (missedCount s.params.layout s.snap.missedStatus)
        (missedOverflow s.params.layout s.snap.missedStatus) _)
    have hu : (reportMissed (missedCount s.params.layout s.snap.missedStatus)
        (missedOverflow s.params.layout s.snap.missedStatus) (checkPeripheral s)).Undisturbed :=
      ⟨hr.agenda.trans h.1, hr.lock.trans h.2⟩
    exact ⟨_, pulseReset_undisturbed hu, by simp [State.Undisturbed], by simpa using hr.clock⟩
  · have hr := reported_checkPeripheral s
    exact ⟨_, rfl, ⟨hr.agenda.trans h.1, hr.lock.trans h.2⟩, hr.clock⟩

end Sys2Proof.Machine
end

