-- ==== Sys2Proof/Laws/PerInstr.lean ====
section
/-!
SUPPORT. One statement about every operation as syntax: its word carries its tag in bits 39:32 and its operand in
bits 31:0 (30_encoding.md R130, R131).
-/

namespace Sys2Proof.Laws.EncodeFields

open Sys2Proof

/-- The two fields of the operation's word (R131). -/
def Statement (i : Instr) : Prop := wordOp (encode i) = opTag i ∧ wordArg (encode i) = opArg i

theorem readStatus : Statement .readStatus :=
  ⟨wordOp_makeWord _ _, wordArg_makeWord _ _⟩

theorem readFrame : Statement .readFrame :=
  ⟨wordOp_makeWord _ _, wordArg_makeWord _ _⟩

theorem writeTiming : Statement .writeTiming :=
  ⟨wordOp_makeWord _ _, wordArg_makeWord _ _⟩

theorem pulseReset : Statement .pulseReset :=
  ⟨wordOp_makeWord _ _, wordArg_makeWord _ _⟩

theorem captureBase : Statement .captureBase :=
  ⟨wordOp_makeWord _ _, wordArg_makeWord _ _⟩

theorem toAbsolute : Statement .toAbsolute :=
  ⟨wordOp_makeWord _ _, wordArg_makeWord _ _⟩

theorem decode : Statement .decode :=
  ⟨wordOp_makeWord _ _, wordArg_makeWord _ _⟩

theorem resolve (b : Word) : Statement (.resolve b) :=
  ⟨wordOp_makeWord _ _, wordArg_makeWord _ _⟩

theorem setBitRate (b : Word) : Statement (.setBitRate b) :=
  ⟨wordOp_makeWord _ _, wordArg_makeWord _ _⟩

theorem logThrottled : Statement .logThrottled :=
  ⟨wordOp_makeWord _ _, wordArg_makeWord _ _⟩

theorem checkStatus : Statement .checkStatus :=
  ⟨wordOp_makeWord _ _, wordArg_makeWord _ _⟩

theorem start (a : Word) : Statement (.start a) :=
  ⟨wordOp_makeWord _ _, wordArg_makeWord _ _⟩

theorem timerFire (a : Word) : Statement (.timerFire a) :=
  ⟨wordOp_makeWord _ _, wordArg_makeWord _ _⟩

theorem drain (b : Word) : Statement (.drain b) :=
  ⟨wordOp_makeWord _ _, wordArg_makeWord _ _⟩

theorem stop (a : Word) : Statement (.stop a) :=
  ⟨wordOp_makeWord _ _, wordArg_makeWord _ _⟩

end Sys2Proof.Laws.EncodeFields
end

