-- ==== Sys2Proof/Laws/PollScheduler.lean ====
section
/-!
SUPPORT. What the procedures of the Poll Scheduler do, said once (46_poll_scheduler.md R236, R238, R239): the two
procedures taken apart, and the induction over the burst.
-/

namespace Sys2Proof.Machine

/-! ### `process_event` -/

/-- What handing over an event leaves of the block's own part: output, a report, the throttle. -/
structure Handed (ev : DecodedEvent) (s t : State) : Prop where
  block     : t.block = { s.block with lastLogValid := t.lastLogValid, lastLogTime := t.lastLogTime }
  bus       : t.bus = s.bus
  kept      : withoutLogs t.out = withoutLogs s.out ++ handedOver ev
  out       : delivered t.out = delivered s.out ++ [ev]
  responses : t.responses = s.responses
  callRegs  : t.callRegs = s.callRegs
  lock      : t.lock = s.lock
  agenda    : t.agenda = s.agenda
  clock     : t.clock = s.clock
  allocs    : t.allocs = s.allocs
  periph    : t.periph = s.periph
  params    : t.params = s.params

theorem handOver_handed (ev : DecodedEvent) (s : State) : Handed ev s (handOver ev s) := by
  cases ev with
  | frame f =>
    exact ⟨rfl, rfl, by simp [handOver, handedOver, withoutLogs], by simp [handOver, delivered], rfl, rfl, rfl, rfl, rfl, rfl, rfl, rfl⟩
  | error e =>
    refine ⟨?_, by simp [handOver], ?_, ?_, by simp [handOver], ?_, by simp [handOver], by simp [handOver],
      by simp [handOver], by simp [handOver], by simp [handOver], by simp [handOver]⟩
    · simp [handOver, State.block]
    · simp only [handOver, State.emit_out, logThrottled_out, State.raise_out, withoutLogs_append, List.append_assoc]
      split <;> rfl
    · simp only [handOver, State.emit_out, logThrottled_out, State.raise_out]
      simp only [delivered, List.filterMap_append, List.append_assoc]
      split <;> rfl
    · simp [handOver, State.callRegs]

/-- DECODE's event, when it has one, is that of the snapshot (R180). -/
theorem decodeEvent_ok {s : State} {ev : DecodedEvent} (h : decodeEvent s = .ok ev) :
    ev = decodedEventOf s.params s.snap s.base ∧ s.baseValid = true := by
  unfold decodeEvent at h
  (repeat' split at h) <;> simp_all

/-- With the whole snapshot and the base valid DECODE has an event. -/
theorem decodeEvent_of_valid {s : State} (hv : s.srValid = allValidBits) (hb : s.baseValid = true) :
    decodeEvent s = .ok (decodedEventOf s.params s.snap s.base) := by
  simp [decodeEvent, srFault_allValid _ hv, hb]

/-! ### The burst of DRAIN -/

/-- Everything one iteration of the burst can do (R238). -/
theorem drainIteration_next {again : State → Answer} {s t : State} (h : drainIteration again s = .next t) :
    ∃ s1, readFrame s = .next s1 ∧
      ((bufferUsage s1.params.layout s1.snap.bufferStatus = 0 ∧ t = s1) ∨
       (bufferUsage s1.params.layout s1.snap.bufferStatus ≠ 0 ∧ ∃ s2, checkStatus s1 = .next s2 ∧
         ((s2.allocOk = false ∧ t = countDrained (s2.afterAlloc.raise .allocationFailure)) ∨
          (s2.allocOk = true ∧ ∃ ev, decodeEvent s2.afterAlloc = .ok ev ∧
            again (countDrained (handOver ev s2.afterAlloc)) = .next t)))) := by
  obtain ⟨s1, h1, h⟩ := andThen_eq_next.mp h
  refine ⟨s1, h1, ?_⟩
  split at h
  · next hu => cases h; exact .inl ⟨hu, rfl⟩
  · next hu =>
    obtain ⟨s2, h2, h⟩ := andThen_eq_next.mp h
    refine .inr ⟨hu, s2, h2, ?_⟩
    unfold drainEvent at h
    split at h
    · next ha =>
      obtain ⟨s3, h3, h⟩ := andThen_eq_next.mp h
      unfold processEvent at h3
      split at h3
      · next ev he => cases h3; exact .inr ⟨ha, ev, he, h⟩
      · cases h3
    · next ha => cases h; exact .inl ⟨by simpa using ha, rfl⟩

/-- What every piece of the burst keeps, the burst keeps. -/
structure BurstKeeps (P : State → Prop) : Prop where
  read  : ∀ {s t : State}, readFrame s = .next t → P s → P t
  check : ∀ {s t : State}, checkStatus s = .next t → P s → P t
  fail  : ∀ {s : State}, P s → P (s.afterAlloc.raise .allocationFailure)
  alloc : ∀ {s : State}, P s → P s.afterAlloc
  hand  : ∀ {s : State} (ev : DecodedEvent), P s → P (handOver ev s)
  count : ∀ {s : State}, s.budgetRemaining ≠ 0 → P s → P (countDrained s)

/-- The induction over the burst. -/
theorem drainLoop_keeps {P : State → Prop} (k : BurstKeeps P) {n : Nat} {s t : State}
    (h : drainLoop n s = .next t) (hp : P s) : P t := by
  induction n generalizing s with
  | zero => cases h; exact hp
  | succ n ih =>
    simp only [drainLoop] at h
    split at h
    · cases h; exact hp
    · next hb =>
      obtain ⟨s1, h1, ⟨-, rfl⟩ | ⟨-, s2, h2, hc⟩⟩ := drainIteration_next h
      · exact k.read h1 hp
      · have p2 := k.check h2 (k.read h1 hp)
        have b2 : s2.budgetRemaining = s.budgetRemaining :=
          (congrArg BlockState.budgetRemaining (checkStatus_spec h2).block).trans
            (congrArg BlockState.budgetRemaining (readFrame_spec h1).block)
        obtain ⟨-, rfl⟩ | ⟨-, ev, -, hr⟩ := hc
        · exact k.count (by simpa [b2] using hb) (k.fail p2)
        · refine ih hr (k.count ?_ (k.hand ev (k.alloc p2)))
          have hh := congrArg BlockState.budgetRemaining (handOver_handed ev s2.afterAlloc).block
          simp only [State.block, State.afterAlloc_budgetRemaining, b2] at hh
          rw [hh]; exact hb

/-- Running alone with a base, every burst completes, the block still runs alone, the clocks are as they were. -/
theorem drainLoop_undisturbed (n : Nat) {s : State} (h : s.Undisturbed) (hb : s.baseValid = true) :
    ∃ t, drainLoop n s = .next t ∧ t.Undisturbed ∧ t.clock = s.clock := by
  induction n generalizing s with
  | zero => exact ⟨s, rfl, h, rfl⟩
  | succ n ih =>
    simp only [drainLoop]
    split
    · exact ⟨s, rfl, h, rfl⟩
    · have h1 := readFrame_undisturbed h
      set s1 : State := { release (entryReads (statusReads (takeLock [] s))) with srValid := allValidBits } with hs1
      have u1 : s1.Undisturbed := by simp [hs1, State.Undisturbed]
      have b1 : s1.baseValid = true := by simp [hs1, hb]
      have v1 : s1.srValid = allValidBits := rfl
      have k1 : s1.clock = s.clock := by simp [hs1]
      simp only [drainIteration, h1, andThen_next]
      split
      · exact ⟨_, rfl, u1, k1⟩
      · obtain ⟨s2, h2, u2, k2⟩ := checkStatus_undisturbed u1 (srFault_allValid _ v1)
        have c2 := (checkStatus_spec h2).block
        have b2 : s2.baseValid = true := (congrArg BlockState.baseValid c2).trans b1
        have v2 : s2.srValid = allValidBits := (congrArg BlockState.srValid c2).trans v1
        simp only [h2, andThen_next, drainEvent]
        split
        · have hd : decodeEvent s2.afterAlloc = _ := decodeEvent_of_valid (s := s2.afterAlloc) v2 b2
          simp only [processEvent, hd, andThen_next]
          let ev := decodedEventOf s2.afterAlloc.params s2.afterAlloc.snap s2.afterAlloc.base
          have hh := handOver_handed ev s2.afterAlloc
          obtain ⟨t, ht, ut, kt⟩ := ih (s := countDrained (handOver ev s2.afterAlloc))
            ⟨hh.agenda.trans u2.1, hh.lock.trans u2.2⟩ ((congrArg BlockState.baseValid hh.block).trans b2)
          exact ⟨t, ht, ut, kt.trans (hh.clock.trans (k2.trans k1))⟩
        · exact ⟨_, rfl, u2, k2.trans k1⟩

/-! ### The procedures -/

/-- Everything a TIMER_FIRE procedure can do (R236). -/
theorem timerProcedure_next {s t : State} (h : timerProcedure s = .next t) :
    ∃ s1 s2, readStatus { s with timerArmed := false, schedBusy := true } = .next s1 ∧
      checkStatus s1 = .next s2 ∧ t = timerDecision s2 := by
  obtain ⟨s1, h1, h⟩ := andThen_eq_next.mp h
  obtain ⟨s2, h2, h⟩ := andThen_eq_next.mp h
  exact ⟨s1, s2, h1, h2, (Host.Outcome.next.inj h).symm⟩

/-- Everything a DRAIN procedure can do (R238). -/
theorem drainProcedure_next {b : Word} {s t : State} (h : drainProcedure b s = .next t) :
    ∃ s1, drainLoop b.toNat { s with schedBusy := true, budgetRemaining := b, drained := 0 } = .next s1 ∧
      t = finishDrain b s1 := by
  obtain ⟨s1, h1, h⟩ := andThen_eq_next.mp h
  exact ⟨s1, h1, (Host.Outcome.next.inj h).symm⟩

end Sys2Proof.Machine
end

