-- ==== Sys2Proof/Laws/Step.lean ====
section
/-!
SUPPORT. What an operation and a step can do, said once: what the accesses keep, every operation keeps
(41_register_model.md R157); what each operation may make of the block state; and the three things a step can be.
-/

namespace Sys2Proof.Machine

/-! ### What every operation keeps -/

/-- The parts of a state that the register accesses alone change: trace, peripheral, lock; and the parameters, which
nothing changes. -/
structure SameBus (s t : State) : Prop where
  bus    : t.bus = s.bus
  periph : t.periph = s.periph
  lock   : t.lock = s.lock
  params : t.params = s.params

/-- What the four operations of the Register Model keep and what depends on trace, peripheral, lock and parameters alone. -/
structure AccessesKeep (P : State → Prop) : Prop where
  readFrame   : ∀ {s t : State}, Machine.readFrame s = .next t → P s → P t
  readStatus  : ∀ {s t : State}, Machine.readStatus s = .next t → P s → P t
  writeTiming : ∀ {tp : Timing} {s t : State}, Machine.writeTiming tp s = .next t → P s → P t
  pulseReset  : ∀ {s t : State}, Machine.pulseReset s = .next t → P s → P t
  sameBus     : ∀ {s t : State}, SameBus s t → P s → P t

variable {P : State → Prop}

theorem AccessesKeep.logThrottled (k : AccessesKeep P) (c : LogCategory) {s : State} (p : P s) :
    P (Machine.logThrottled c s) := k.sameBus ⟨by simp, by simp, by simp, by simp⟩ p

theorem AccessesKeep.checkStatus (k : AccessesKeep P) {s t : State} (h : Machine.checkStatus s = .next t) (p : P s) :
    P t := by
  obtain ⟨-, ⟨-, rfl⟩ | ⟨-, u, hr, hu⟩⟩ := checkStatus_next h
  · have r := reported_checkPeripheral s
    exact k.sameBus ⟨r.bus, r.periph, r.lock, r.params⟩ p
  · exact k.pulseReset hu (k.sameBus ⟨hr.bus, hr.periph, hr.lock, hr.params⟩ p)

theorem AccessesKeep.burst (k : AccessesKeep P) : BurstKeeps P where
  read  := k.readFrame
  check := k.checkStatus
  fail {s} p := k.sameBus (s := s) ⟨rfl, rfl, rfl, rfl⟩ p
  alloc {s} p := k.sameBus (s := s) ⟨rfl, rfl, rfl, rfl⟩ p
  hand {s} ev p :=
    have h := handOver_handed ev s
    k.sameBus ⟨h.bus, h.periph, h.lock, h.params⟩ p
  count {s} _ p := k.sameBus (s := s) ⟨rfl, rfl, rfl, rfl⟩ p

/-- What the register accesses keep, every operation keeps. -/
theorem AccessesKeep.exec (k : AccessesKeep P) {i : Instr} {s t : State} (h : Machine.exec i s = .next t) (hp : P s) :
    P t := by
  have same : ∀ {u : State}, SameBus s u → P u := fun q => k.sameBus q hp
  cases i with
  | readStatus => exact k.readStatus h hp
  | readFrame => exact k.readFrame h hp
  | writeTiming => exact k.writeTiming h hp
  | pulseReset => exact k.pulseReset h hp
  | captureBase => cases h; exact same ⟨rfl, rfl, rfl, rfl⟩
  | toAbsolute => simp only [Machine.exec, execToAbsolute] at h; split at h <;> cases h; exact same ⟨rfl, rfl, rfl, rfl⟩
  | decode => simp only [Machine.exec, execDecode] at h; split at h <;> cases h; exact same ⟨rfl, rfl, rfl, rfl⟩
  | resolve b =>
    simp only [Machine.exec, execResolve] at h
    split at h <;> cases h <;> exact same ⟨rfl, rfl, rfl, rfl⟩
  | setBitRate b =>
    simp only [Machine.exec, execSetBitRate] at h
    split at h
    · split at h
      · cases h; exact same ⟨rfl, rfl, rfl, rfl⟩
      · obtain ⟨s1, h1, h⟩ := andThen_eq_next.mp h
        obtain ⟨s2, h2, h⟩ := andThen_eq_next.mp h
        cases h
        exact k.sameBus (s := s2) ⟨rfl, rfl, rfl, rfl⟩ (k.pulseReset h2 (k.writeTiming h1 hp))
    · cases h; exact same ⟨rfl, rfl, rfl, rfl⟩
  | logThrottled => cases h; exact same ⟨by simp, by simp, by simp, by simp⟩
  | checkStatus => exact k.checkStatus h hp
  | start a =>
    simp only [Machine.exec, execStart] at h
    (repeat' split at h) <;> cases h <;> exact same ⟨rfl, rfl, rfl, rfl⟩
  | timerFire a =>
    simp only [Machine.exec, execTimerFire] at h
    (repeat' split at h) <;> first | (cases h; exact same ⟨rfl, rfl, rfl, rfl⟩) | skip
    obtain ⟨s1, s2, h1, h2, rfl⟩ := timerProcedure_next h
    have p2 : P s2 := k.checkStatus h2 (k.readStatus h1 (same ⟨rfl, rfl, rfl, rfl⟩))
    unfold timerDecision
    split <;> exact k.sameBus (s := s2) ⟨rfl, rfl, rfl, rfl⟩ p2
  | drain b =>
    simp only [Machine.exec, execDrain] at h
    (repeat' split at h) <;> first | (cases h; exact same ⟨rfl, rfl, rfl, rfl⟩) | skip
    obtain ⟨s1, h1, rfl⟩ := drainProcedure_next h
    have p1 : P s1 := drainLoop_keeps k.burst h1 (same ⟨rfl, rfl, rfl, rfl⟩)
    unfold finishDrain
    split <;> exact k.sameBus (s := s1) ⟨rfl, rfl, rfl, rfl⟩ p1
  | stop a =>
    simp only [Machine.exec, execStop] at h
    (repeat' split at h) <;> cases h <;> exact same ⟨rfl, rfl, rfl, rfl⟩

/-- No operation leaves the lock with the block. -/
theorem exec_lock {i : Instr} {s t : State} (h : exec i s = .next t) (hl : s.lock ≠ .held .block) :
    t.lock ≠ .held .block := by
  have k : AccessesKeep (fun u => u.lock ≠ .held .block) := {
    readFrame := fun h _ => by rw [(readFrame_spec h).lock]; nofun
    readStatus := fun h _ => by rw [(readStatus_spec h).lock]; nofun
    writeTiming := fun h _ => by rw [(writeTiming_spec h).lock]; nofun
    pulseReset := fun h _ => by rw [(pulseReset_spec h).lock]; nofun
    sameBus := fun q p => by rw [q.lock]; exact p }
  exact k.exec h hl

/-- No operation changes the parameters (R8). -/
theorem exec_params {i : Instr} {s t : State} (h : exec i s = .next t) : t.params = s.params := by
  have k : AccessesKeep (fun u => u.params = s.params) := {
    readFrame := fun h p => (readFrame_spec h).params.trans p
    readStatus := fun h p => (readStatus_spec h).params.trans p
    writeTiming := fun h p => (writeTiming_spec h).params.trans p
    pulseReset := fun h p => (pulseReset_spec h).params.trans p
    sameBus := fun q p => q.params.trans p }
  exact k.exec h rfl

/-! ### What an operation makes of the block state -/

/-- The registers READ_FRAME, CHECK_STATUS and `process_event` write, and the budget registers: what a burst may
change of the block state (R45). -/
structure BurstEffect (b c : BlockState) : Prop where
  timing            : c.timing = b.timing
  bitrateConfigured : c.bitrateConfigured = b.bitrateConfigured
  base              : c.base = b.base
  baseValid         : c.baseValid = b.baseValid
  mode              : c.mode = b.mode
  schedBusy         : c.schedBusy = b.schedBusy
  timerArmed        : c.timerArmed = b.timerArmed
  timerDeadline     : c.timerDeadline = b.timerDeadline

theorem BurstEffect.trans {b c d : BlockState} (h : BurstEffect b c) (k : BurstEffect c d) : BurstEffect b d :=
  ⟨k.1.trans h.1, k.2.trans h.2, k.3.trans h.3, k.4.trans h.4, k.5.trans h.5, k.6.trans h.6, k.7.trans h.7,
    k.8.trans h.8⟩

/-- What a burst may change of the block state. -/
theorem drainLoop_block {n : Nat} {s t : State} (h : drainLoop n s = .next t) : BurstEffect s.block t.block := by
  have k : BurstKeeps (fun u => BurstEffect s.block u.block) := {
    read := fun h p => p.trans (by rw [(readFrame_spec h).block]; exact ⟨rfl, rfl, rfl, rfl, rfl, rfl, rfl, rfl⟩)
    check := fun h p => p.trans (by rw [(checkStatus_spec h).block]; exact ⟨rfl, rfl, rfl, rfl, rfl, rfl, rfl, rfl⟩)
    fail := fun p => p
    alloc := fun p => p
    hand := fun {u} ev p => p.trans (by
      rw [(handOver_handed ev u).block]; exact ⟨rfl, rfl, rfl, rfl, rfl, rfl, rfl, rfl⟩)
    count := fun _ p => p.trans ⟨rfl, rfl, rfl, rfl, rfl, rfl, rfl, rfl⟩ }
  exact drainLoop_keeps k h ⟨rfl, rfl, rfl, rfl, rfl, rfl, rfl, rfl⟩

/-- What an operation may make of the block state (R45): the registers it writes, the others as they were. -/
def BlockEffect (i : Instr) (b c : BlockState) : Prop :=
  match i with
  | .readStatus => c = { b with snap := c.snap, srValid := c.srValid }
  | .readFrame => c = { b with snap := c.snap, srValid := c.srValid }
  | .writeTiming => c = b
  | .pulseReset => c = b
  | .captureBase => c = { b with base := c.base, baseValid := true }
  | .toAbsolute => c = b
  | .decode => c = b
  | .resolve _ => c = b
  | .setBitRate _ => c = b ∨ b.mode = .stopped ∧ c = { b with timing := c.timing, bitrateConfigured := true }
  | .logThrottled => c = { b with lastLogValid := c.lastLogValid, lastLogTime := c.lastLogTime }
  | .checkStatus => c = { b with lastLogValid := c.lastLogValid, lastLogTime := c.lastLogTime }
  | .start a => c = b ∨ a = 0 ∧ b.mode = .stopped ∧ b.bitrateConfigured = true ∧
      c = { b with base := c.base, baseValid := true, budgetRemaining := 0, drained := 0, lastLogValid := false,
                   mode := .armed, timerDeadline := c.timerDeadline, timerArmed := true }
  | .timerFire a => c = b ∨ a = 0 ∧ b.schedBusy = false ∧ b.timerArmed = true ∧
      c = { b with snap := c.snap, srValid := c.srValid, mode := c.mode, timerArmed := c.timerArmed,
                   timerDeadline := c.timerDeadline, lastLogValid := c.lastLogValid, lastLogTime := c.lastLogTime } ∧
      (c.mode = b.mode ∧ c.timerArmed = true ∨ c.mode = .draining ∧ c.timerArmed = false)
  | .drain _ => c = b ∨ b.schedBusy = false ∧ b.mode = .draining ∧
      c = { b with snap := c.snap, srValid := c.srValid, mode := c.mode, timerArmed := c.timerArmed,
                   timerDeadline := c.timerDeadline, lastLogValid := c.lastLogValid, lastLogTime := c.lastLogTime,
                   budgetRemaining := c.budgetRemaining, drained := c.drained } ∧
      (c.mode = .armed ∧ c.timerArmed = true ∨ c.mode = .draining ∧ c.timerArmed = b.timerArmed)
  | .stop a => c = b ∨ a = 0 ∧ b.mode ≠ .stopped ∧ c = { b with timerArmed := false, mode := .stopped }

theorem exec_block {i : Instr} {s t : State} (h : exec i s = .next t) : BlockEffect i s.block t.block := by
  cases i with
  | readStatus =>
    have a := (readStatus_spec h).block
    show t.block = _
    rw [a]
  | readFrame =>
    have a := (readFrame_spec h).block
    show t.block = _
    rw [a]
  | writeTiming => exact (writeTiming_spec h).block
  | pulseReset => exact (pulseReset_spec h).block
  | captureBase => cases h; rfl
  | toAbsolute => simp only [exec, execToAbsolute] at h; split at h <;> cases h; rfl
  | decode => simp only [exec, execDecode] at h; split at h <;> cases h; rfl
  | resolve b => simp only [exec, execResolve] at h; split at h <;> cases h <;> rfl
  | setBitRate b =>
    simp only [exec, execSetBitRate] at h
    split at h
    · next hm =>
      split at h
      · cases h; exact .inl rfl
      · obtain ⟨s1, h1, h⟩ := andThen_eq_next.mp h
        obtain ⟨s2, h2, h⟩ := andThen_eq_next.mp h
        cases h
        have e : s2.block = s.block := (pulseReset_spec h2).block.trans (writeTiming_spec h1).block
        exact .inr ⟨hm, by rw [← e]; rfl⟩
    · cases h; exact .inl rfl
  | logThrottled => cases h; exact logThrottled_block _ _
  | checkStatus => exact (checkStatus_spec h).block
  | start a =>
    simp only [exec, execStart] at h
    split at h
    · cases h; exact .inl rfl
    · next ha =>
      split at h
      · cases h; exact .inl rfl
      · next hm =>
        split at h
        · next hb => cases h; exact .inr ⟨by simpa using ha, not_not.mp hm, hb, rfl⟩
        · cases h; exact .inl rfl
  | timerFire a =>
    simp only [exec, execTimerFire] at h
    split at h
    · cases h; exact .inl rfl
    · next ha =>
      split at h
      · cases h; exact .inl rfl
      · next hb =>
        split at h
        · next ht =>
          obtain ⟨s1, s2, h1, h2, rfl⟩ := timerProcedure_next h
          have e1 := (readStatus_spec h1).block
          have e2 := (checkStatus_spec h2).block
          have hb' : s.schedBusy = false := by simpa using hb
          have hm : s2.mode = s.mode :=
            (congrArg BlockState.mode e2).trans (congrArg BlockState.mode e1)
          refine .inr ⟨by simpa using ha, hb', ht, ?_, ?_⟩
          · have e : ∀ u : State, u.block = { s2.block with
                mode := u.mode, schedBusy := false, timerArmed := u.timerArmed,
                timerDeadline := u.timerDeadline } → u.block = { s.block with
                snap := u.snap, srValid := u.srValid, mode := u.mode, timerArmed := u.timerArmed,
                timerDeadline := u.timerDeadline, lastLogValid := u.lastLogValid, lastLogTime := u.lastLogTime } := by
              intro u hu
              simp only [State.block, BlockState.mk.injEq] at hu e1 e2 ⊢
              simp_all
            refine e (timerDecision s2) ?_
            unfold timerDecision
            split <;> rfl
          · unfold timerDecision
            split
            · exact .inl ⟨hm, rfl⟩
            · refine .inr ⟨rfl, ?_⟩
              exact (congrArg BlockState.timerArmed e2).trans (congrArg BlockState.timerArmed e1)
        · cases h; exact .inl rfl
  | drain b =>
    simp only [exec, execDrain] at h
    split at h
    · cases h; exact .inl rfl
    · next hb =>
      split at h
      · next hm =>
        obtain ⟨s1, h1, rfl⟩ := drainProcedure_next h
        have e1 := drainLoop_block h1
        have hb' : s.schedBusy = false := by simpa using hb
        refine .inr ⟨hb', hm, ?_, ?_⟩
        · have e : ∀ u : State, u.block = { s1.block with
              mode := u.mode, schedBusy := false, timerArmed := u.timerArmed,
              timerDeadline := u.timerDeadline } → u.block = { s.block with
              snap := u.snap, srValid := u.srValid, mode := u.mode, timerArmed := u.timerArmed,
              timerDeadline := u.timerDeadline, lastLogValid := u.lastLogValid, lastLogTime := u.lastLogTime,
              budgetRemaining := u.budgetRemaining, drained := u.drained } := by
            intro u hu
            obtain ⟨f1, f2, f3, f4, -, -, -, -⟩ := e1
            simp only [State.block, BlockState.mk.injEq] at hu f1 f2 f3 f4 ⊢
            simp_all
          refine e (finishDrain b s1) ?_
          unfold finishDrain
          split <;> rfl
        · unfold finishDrain
          split
          · exact .inl ⟨rfl, rfl⟩
          · exact .inr ⟨e1.mode.trans hm, e1.timerArmed⟩
      · cases h; exact .inl rfl
  | stop a =>
    simp only [exec, execStop] at h
    split at h
    · cases h; exact .inl rfl
    · next ha =>
      split at h
      · cases h; exact .inl rfl
      · split at h
        · cases h; exact .inl rfl
        · next hm => cases h; exact .inr ⟨by simpa using ha, hm, rfl⟩

/-! ### What a step can be -/

/-- The parts of a state that taking a turn or a waiting word does not touch. -/
structure SameMachine (s t : State) : Prop extends SameBus s t where
  block     : t.block = s.block
  out       : t.out = s.out
  responses : t.responses = s.responses
  raised    : t.raised = s.raised
  callRegs  : t.callRegs = s.callRegs

/-- What the block's own turn is: an operation that a waiting word or the timer asks for, or nothing of its own. -/
theorem blockTurn_cases (s : State) :
    (∃ i u, blockTurn s = .run i u ∧ SameMachine s u ∧
      ((∃ c ∈ s.inbox, decode c.word = .ok i ∧ issuer i = c.via) ∨ (i = .timerFire 0 ∧ timerEnabled s = true))) ∨
    (∃ u, blockTurn s = .settled u ∧ SameMachine s u) := by
  unfold blockTurn
  split
  · next c rest hi =>
    unfold serve
    split
    · exact .inr ⟨_, rfl, ⟨rfl, rfl, rfl, rfl⟩, rfl, rfl, rfl, rfl, rfl⟩
    · next i hd =>
      split
      · next hv => exact .inl ⟨_, _, rfl, ⟨⟨rfl, rfl, rfl, rfl⟩, rfl, rfl, rfl, rfl, rfl⟩, .inl ⟨c, by simp [hi], hd, hv⟩⟩
      · exact .inr ⟨_, rfl, ⟨rfl, rfl, rfl, rfl⟩, rfl, rfl, rfl, rfl, rfl⟩
  · split
    · next ht => exact .inl ⟨_, _, rfl, ⟨⟨rfl, rfl, rfl, rfl⟩, rfl, rfl, rfl, rfl, rfl⟩, .inr ⟨rfl, ht⟩⟩
    · exact .inr ⟨_, rfl, ⟨rfl, rfl, rfl, rfl⟩, rfl, rfl, rfl, rfl, rfl⟩

/-- The three things a step that answers can be: one operation, on a state that differs only in the inputs; a move
of the environment; or nothing but an input taken. -/
def StepIs (s t : State) : Prop :=
  (∃ i u, exec i u = .next t ∧ SameMachine s u ∧
    ((∃ c ∈ s.inbox, decode c.word = .ok i ∧ issuer i = c.via) ∨ (i = .timerFire 0 ∧ timerEnabled s = true))) ∨
  (∃ e rest, t = envStep e { s with agenda := rest }) ∨
  SameMachine s t

/-- What a step makes of what it fetched. -/
def carryOut (f : Fetched) : Answer :=
  match f with
  | .run i u => exec i u
  | .settled u => .next u

theorem step_eq (s : State) : step s = carryOut (fetch s) := by
  unfold step carryOut
  rfl

theorem blockTurn_step {s t : State} {l : List Turn} (h : carryOut (blockTurn { s with agenda := l }) = .next t) :
    StepIs s t := by
  rcases blockTurn_cases { s with agenda := l } with ⟨i, u, hb, hs, hi⟩ | ⟨u, hb, hs⟩
  · rw [hb] at h
    exact .inl ⟨i, u, h, ⟨⟨hs.bus, hs.periph, hs.lock, hs.params⟩, hs.block, hs.out, hs.responses, hs.raised, hs.callRegs⟩, hi⟩
  · rw [hb] at h
    cases h
    exact .inr (.inr ⟨⟨hs.bus, hs.periph, hs.lock, hs.params⟩, hs.block, hs.out, hs.responses, hs.raised, hs.callRegs⟩)

theorem step_cases {s t : State} (h : step s = .next t) : StepIs s t := by
  rw [step_eq, fetch] at h
  split at h
  · exact blockTurn_step (l := s.agenda) h
  · exact blockTurn_step h
  · next rest _ =>
    split at h
    · next ht =>
      exact .inl ⟨.timerFire 0, { s with agenda := rest }, h, ⟨⟨rfl, rfl, rfl, rfl⟩, rfl, rfl, rfl, rfl, rfl⟩, .inr ⟨rfl, ht⟩⟩
    · cases h; exact .inr (.inr ⟨⟨rfl, rfl, rfl, rfl⟩, rfl, rfl, rfl, rfl, rfl⟩)
  · next e rest _ => cases h; exact .inr (.inl ⟨e, rest, rfl⟩)

/-- No step changes the parameters (R8). -/
theorem step_params {s t : State} (h : step s = .next t) : t.params = s.params := by
  obtain ⟨i, u, hx, hm, -⟩ | ⟨e, rest, rfl⟩ | hm := step_cases h
  · exact (exec_params hx).trans hm.params
  · exact (envStep_sameBlock e _).2.2.2
  · exact hm.params

end Sys2Proof.Machine
end

