-- ==== Sys2Proof/Tests/Slice0.lean ====
section
/-!
SUPPORT. The model's own tests.  Expected results are taken from spec/95_test_vectors.md (its V and P numbers) and from
the rules named; each operation's test runs one step or one operation on a small state.  The last part gives, for
every statement with hypotheses, a state and operands that meet them.
-/

namespace Sys2Proof.Tests

open Sys2Proof Sys2Proof.Machine

/-! ### Helpers -/

/-- The answer is a next state of which `p` holds. -/
def after (o : Answer) (p : State → Bool) : Bool :=
  match o with
  | .next t => p t
  | .fault _ => false
  | .refused _ => false

/-- The answer is this fault. -/
def faults (o : Answer) (r : Fault) : Bool :=
  match o with
  | .next _ => false
  | .fault q => q == r
  | .refused _ => false

/-- A queued data frame (vectors V14, V15, P1). -/
def entryOf (id dlc lo hi : Word) (ts : Time) : Entry := ⟨0, ts, id, dlc, 0x1234, lo, hi⟩

/-- The reference peripheral holding these entries, FIFO_DEPTH 32 (vectors, part 3). -/
def holding (q : List Entry) : Peripheral := { Peripheral.reset with source := .reference, depth := 32, fifo := q }

/-- Power-on with the spec's own parameters (R8). -/
def atDefaults : State := { State.reset with params := Params.default }

/-- Power-on with the reference peripheral. -/
def withFifo (q : List Entry) : State := { atDefaults with periph := holding q }

/-- The clocks of vector V8. -/
def clockV8 : ClockReading := ⟨1700000000000000000, 5000000000⟩

/-- The monotonic clock at `ns` (the wall clock plays no part). -/
def monoAt (ns : Time) : Option ClockReading := some ⟨0, ns⟩

/-- A started block in this mode with a captured base, the timer armed in Armed only (R46). -/
def started (m : Mode) (q : List Entry) : State :=
  { withFifo q with
    mode := m
    timerArmed := m == .armed
    bitrateConfigured := true
    baseValid := true
    base := 1699999995000000000
    clock := monoAt 100000000000
    allocs := [true, true, true, true, true] }

/-- The three frames of program P1. -/
def threeFrames : List Entry :=
  [entryOf 0x00000123 3 0x11223344 0xAABBCCDD 5000000, entryOf 0x5ABCDEF0 8 0x11223344 0xAABBCCDD 5000001,
   entryOf 0x200007FF 0 0 0 5000250]

/-- The status words read and valid (V33). -/
def statusRead (err missed : Word) : State :=
  { withFifo [] with
    snap := { Snapshot.zero with errorStatus := err, missedStatus := missed }
    srValid := 0b111
    clock := monoAt 100000000000 }

/-- A whole snapshot held, with a base. -/
def snapshotHeld (sr : Snapshot) : State :=
  { atDefaults with snap := sr, srValid := 0b11111111111, baseValid := true }

/-! ### Ill-formed terms -/

/-- A format N operation with a nonzero arg is ill-formed (R131). -/
theorem test_wf_start_refuses_arg : wellFormed (.start 1) = false := by decide
theorem test_wf_timerFire_refuses_arg : wellFormed (.timerFire 0x80000000) = false := by decide
theorem test_wf_stop_refuses_arg : wellFormed (.stop 2) = false := by decide
theorem test_wf_drain_takes_any_budget : wellFormed (.drain 0xFFFFFFFF) = true := by decide

/-! ### Decoding, each word written out from R130 and R131 (op in bits 39:32, arg in bits 31:0) -/

theorem test_decode_readStatus : decode 0b00000001_00000000000000000000000000000000 = .ok .readStatus := by decide
theorem test_decode_readFrame : decode 0b00000010_00000000000000000000000000000000 = .ok .readFrame := by decide
theorem test_decode_writeTiming : decode 0b00000011_00000000000000000000000000000000 = .ok .writeTiming := by decide
theorem test_decode_pulseReset : decode 0b00000100_00000000000000000000000000000000 = .ok .pulseReset := by decide
theorem test_decode_captureBase : decode 0b00010000_00000000000000000000000000000000 = .ok .captureBase := by decide
theorem test_decode_toAbsolute : decode 0b00010001_00000000000000000000000000000000 = .ok .toAbsolute := by decide
theorem test_decode_decode : decode 0b00100000_00000000000000000000000000000000 = .ok .decode := by decide
theorem test_decode_resolve : decode 0b00110000_00000000000001111010000100100000 = .ok (.resolve 500000) := by decide
theorem test_decode_setBitRate :
    decode 0b00110001_00000000000011110100001001000000 = .ok (.setBitRate 1000000) := by decide
theorem test_decode_logThrottled : decode 0b01000000_00000000000000000000000000000000 = .ok .logThrottled := by decide
theorem test_decode_checkStatus : decode 0b01000001_00000000000000000000000000000000 = .ok .checkStatus := by decide
theorem test_decode_start : decode 0b01010000_00000000000000000000000000000000 = .ok (.start 0) := by decide
theorem test_decode_timerFire : decode 0b01010001_00000000000000000000000000000000 = .ok (.timerFire 0) := by decide
theorem test_decode_drain : decode 0b01010010_00000000000000000000000000000101 = .ok (.drain 5) := by decide
theorem test_decode_stop : decode 0b01010011_00000000000000000000000000000000 = .ok (.stop 0) := by decide

/-- V39: the unassigned tags and the nonzero arg. -/
theorem test_decode_rejects :
    decode 0x6000000000 = .error .unassignedTag ∧ decode 0xFF00000000 = .error .unassignedTag ∧
    decode 0x0000000000 = .error .unassignedTag ∧ decode 0x5000000001 = .error .nonzeroArg := by decide

/-- opcode_table.json numbers `op` as bits 39:32. -/
theorem test_tableWord : decodeTableWord 40 0x520000000A = some (.drain 10) ∧
    decodeTableWord 40 0x6000000000 = none := by decide

/-- R145, R146: the trace lines of the requests. -/
theorem test_requestLine : requestLine (.setBitRate 250000) = some "set_bit_rate 250000" ∧
    requestUp = 0x5000000000 ∧ requestDown = 0x5300000000 ∧ requestTick = 0x5100000000 ∧
    requestDrain 10 = 0x520000000A ∧ requestSetBitRate 500000 = 0x310007A120 := by decide

/-! ### One step from reset -/

/-- V39: READ_FRAME's tag at the request port is refused, without effect. -/
theorem test_port_refuses_internal :
    after (step { State.reset with inbox := [⟨.port, 0x0200000000⟩] })
      (fun t => t.rejections == [.notIssuable] && t.bus == [] && t.responses == []) = true := by decide

/-- The host's placed word runs as the first instruction (here SET_BIT_RATE 1 000 000, V28). -/
theorem test_placed_word_runs :
    after (step (State.reset.withFetchWord 40 0x31000F4240)) (fun t => t.timing == ⟨1, 2, 4, 3, 4⟩) = true := by decide

/-! ### Register Model -/

/-- V1. -/
theorem test_readStatus : after (exec .readStatus (withFifo threeFrames)) (fun t =>
    t.bus == [.acquire, .read .bufferStatus 3, .read .errorStatus 0, .read .missedStatus 0, .release] &&
    t.srValid == 0b00000000111 && t.periph.fifo.length == 3) = true := by decide

/-- V3. -/
theorem test_readFrame : after (exec .readFrame (withFifo (threeFrames.take 2))) (fun t =>
    t.snap == ⟨2, 0, 0, 0, 0x004C4B40, 0, 0x123, 3, 0x1234, 0x11223344, 0xAABBCCDD⟩ &&
    t.periph.fifo.length == 1 && t.srValid == 0b11111111111) = true := by decide

/-- V4: an empty FIFO, the per-entry words arbitrary. -/
theorem test_readFrame_empty : after (exec .readFrame { withFifo [] with reads := [1, 2, 3, 4, 5, 6, 7, 8] }) (fun t =>
    t.snap == ⟨0, 0, 0, 1, 2, 3, 4, 5, 6, 7, 8⟩ && t.periph.fifo == [] && t.bus == frameHold t.snap) = true := by decide

/-- V5. -/
theorem test_writeTiming : after (exec .writeTiming { withFifo [] with args := ⟨⟨1, 5, 7, 7, 4⟩, 0, .missed⟩ }) (fun t =>
    t.bus == [.acquire, .write .syncSeg 1, .write .propSeg 5, .write .phaseSeg1 7, .write .phaseSeg2 7,
      .write .prescaler 4, .release] && t.periph.latched == ⟨0, 0, 0, 0, 0⟩) = true := by decide

/-- V6. -/
theorem test_pulseReset : after (exec .pulseReset (withFifo threeFrames)) (fun t =>
    t.bus == [.acquire, .write .resetStrobe 1, .barrier, .write .resetStrobe 0, .release] &&
    t.periph.fifo == []) = true := by decide

/-- The default offsets of R101. -/
theorem test_offsets :
    allReadRegs.map ReadReg.offset = [0x00, 0x04, 0x08, 0x0C, 0x10, 0x14, 0x18, 0x1C, 0x20, 0x24, 0x28] ∧
    ReadReg.canId.offset = 0x18 ∧ WriteReg.syncSeg.defaultOffset = 0x2C ∧
    WriteReg.resetStrobe.defaultOffset = 0x40 ∧ admissibleOffsets WriteReg.defaultOffset = true := by decide

/-- V7: register words under the default layout. -/
theorem test_layout :
    let lay := Layout.default
    missedCount lay 0x80000007 = 7 ∧ missedOverflow lay 0x80000007 = true ∧
    frameTypeCode lay 0x00000059 = 0x05 ∧ flagSet lay 0x00000059 = 0b1001 ∧ rtrFlag lay 0x20000123 = true ∧
    idField lay 0x5ABCDEF0 = 0x1ABCDEF0 ∧ effFlag lay 0x5ABCDEF0 = true ∧ errFlag lay 0x80000001 = true ∧
    missedStatusWord lay 7 true = 0x80000007 ∧ bufferStatusWord lay 3 = 3 ∧ strobeAssert lay = 1 := by decide

/-- Another admissible choice of the parameters: the fields packed from bit 31 downward, other error values (R8,
R102, R125). -/
def otherParams : Params where
  layout := { Layout.default with
    bufferUsage := 16, missedCount := 1, missedOverflow := 0, stuff := 31, form := 30, sample := 29, crcErr := 28,
    frameType := 0, ident := 3, rtr := 2, eff := 1, err := 0, dlc := 28, syncSeg := 24, propSeg := 24, phaseSeg1 := 24,
    phaseSeg2 := 24, prescaler := 24, strobe := 31 }
  payloadFill := 0xEE
  errRecordAll := false
  errPos := ⟨7, 6, 5, 4⟩
  errVal := ⟨0x11, 0x22, 0x33, 0x44⟩

/-- Two fields that overlap, a position used twice and a zero value are no choice (R102, R125). -/
theorem test_admissible : admissibleParams Params.default = true ∧ admissibleParams otherParams = true ∧
    admissibleLayout { Layout.default with missedOverflow := 30 } = false ∧
    admissibleParams { Params.default with errPos := ⟨0, 1, 2, 0⟩ } = false ∧
    admissibleParams { Params.default with errVal := ⟨1, 1, 0, 1⟩ } = false := by decide

/-- The same frame and error under the other choice: the words of V15 and V22 with their fields moved. -/
theorem test_otherParams :
    frameOf otherParams (0x1ABCDEF0 * 8 + 2) 0x20000000 0x11223344 0 0 =
      ⟨0x9ABCDEF0, 0b100, 2, ⟨0x11, 0x22, 0xEE, 0xEE, 0xEE, 0xEE, 0xEE, 0xEE⟩, 0⟩ ∧
    errorEventOf otherParams 0x90000000 0 = ⟨true, 0, 0b0001, ⟨0, 0, 0, 0, 0, 0, 0, 0x11⟩, 0⟩ ∧
    timingHold otherParams.layout ⟨1, 5, 7, 7, 4⟩ = [.acquire, .write .syncSeg 0x01000000, .write .propSeg 0x05000000,
      .write .phaseSeg1 0x07000000, .write .phaseSeg2 0x07000000, .write .prescaler 0x04000000, .release] ∧
    strobeAssert otherParams.layout = 0x80000000 := by decide

/-! ### Timestamp Base -/

/-- V8, V9. -/
theorem test_captureBase :
    after (exec .captureBase { State.reset with clock := some clockV8 }) (fun t =>
      t.base == 0x17979CFD0C240E00 && t.baseValid) = true ∧
    after (exec .captureBase { State.reset with clock := some ⟨1000, 5000⟩ }) (fun t =>
      t.base == 0xFFFFFFFFFFFFF060) = true := by decide

/-- V12: the product and the sum wrap. -/
theorem test_toAbsolute_wraps :
    after (exec .toAbsolute { State.reset with
      base := 0x17979CFD0C240E00
      baseValid := true
      args := ⟨Timing.zero, 0x0123456789ABCDEF, .missed⟩ }) (fun t =>
        t.ret == .time 0x895EB96ED3407B98) = true := by decide

/-! ### Frame Decoder -/

/-- V15: an extended frame of eight bytes. -/
theorem test_decode_frame :
    after (exec .decode (snapshotHeld ⟨1, 0, 0, 0, 1, 0, 0x5ABCDEF0, 8, 0, 0x11223344, 0xAABBCCDD⟩)) (fun t =>
      t.ret == .event (.frame ⟨0x9ABCDEF0, 0b100, 8, ⟨0xAA, 0xBB, 0xCC, 0xDD, 0x11, 0x22, 0x33, 0x44⟩, 1000⟩)) = true := by
  decide

/-- V22: an error snapshot. -/
theorem test_decode_error :
    after (exec .decode (snapshotHeld ⟨1, 0, 0, 0x59, 1, 0, 7, 7, 7, 7, 7⟩)) (fun t =>
      t.ret == .event (.error ⟨true, 0, 0b1001, ⟨1, 0, 0, 1, 0, 0, 0, 0⟩, 1000⟩) &&
      t.raised == [.protocolError 0 0b1001]) = true := by decide

/-- V16, V17, V19, V21: identifiers, pass-through flags, lengths. -/
theorem test_frameOf :
    let frame := frameOf Params.default
    (frame 0x1ABCDEF0 1 0xFF000000 0 0).id = 0x000006F0 ∧ (frame 0x80000001 0 0 0 0).id = 0x20000001 ∧
    (frame 0xE0000001 0 0 0 0).flags = 0b111 ∧ (frame 0x10 12 0x11223344 0xAABBCCDD 0).dlc = 12 ∧
    (frame 0 4 0x01020304 0x05060708 0).payload = ⟨1, 2, 3, 4, 0, 0, 0, 0⟩ ∧
    (frame 0 5 0x01020304 0x05060708 0).payload = ⟨5, 6, 7, 8, 1, 2, 3, 4⟩ := by decide

/-- R11: the byte order operators. -/
theorem test_byteOrder : beBytes32 0x11223344 = [0x11, 0x22, 0x33, 0x44] ∧ swap32 0x11223344 = 0x44332211 := by decide

/-! ### Bit-Timing Table -/

/-- V25. -/
theorem test_resolve :
    after (exec (.resolve 500000) State.reset) (fun t => t.ret == .timing ⟨1, 5, 7, 7, 4⟩) = true ∧
    after (exec (.resolve 499999) State.reset) (fun t => t.ret == .unsupported && t.bus == []) = true := by decide

/-- V26. -/
theorem test_timingValid : timingValid ⟨1, 5, 7, 7, 4⟩ = true ∧ timingValid ⟨1, 20, 13, 7, 4⟩ = false ∧
    timingValid ⟨1, 5, 7, 9, 4⟩ = false ∧ timingValid ⟨1, 5, 7, 7, 65⟩ = false := by decide

/-- V28. -/
theorem test_setBitRate : after (exec (.setBitRate 1000000) (withFifo [])) (fun t =>
    t.bus == [.acquire, .write .syncSeg 1, .write .propSeg 2, .write .phaseSeg1 4, .write .phaseSeg2 3,
      .write .prescaler 4, .release, .acquire, .write .resetStrobe 1, .barrier, .write .resetStrobe 0, .release] &&
    t.timing == ⟨1, 2, 4, 3, 4⟩ && t.bitrateConfigured && t.responses == [0x0000000000]) = true := by decide

/-- V27, and P4 line 6: unsupported in Stopped, refused in Armed. -/
theorem test_setBitRate_fails :
    after (exec (.setBitRate 250000) (withFifo [])) (fun t => t.bus == [] && t.responses == [0x0100000000]) = true ∧
    after (exec (.setBitRate 500000) (started .armed [])) (fun t =>
      t.bus == [] && t.responses == [] && t.rejections == [.outsideMode]) = true := by decide

/-! ### Error-Log Throttle -/

/-- S7: the boundary of the window. -/
theorem test_logThrottled_window :
    after (exec .logThrottled { statusRead 0 0 with
      lastLogValid := true
      lastLogTime := 100000000000
      clock := monoAt 115000000000 }) (fun t => t.ret == .logged true && t.out.length == 1) = true ∧
    after (exec .logThrottled { statusRead 0 0 with
      lastLogValid := true
      lastLogTime := 100000000000
      clock := monoAt 114999999999 }) (fun t =>
        t.ret == .logged false && t.out == [] && t.lastLogTime == 100000000000) = true := by decide

/-- V31: the clock going backwards. -/
theorem test_logThrottled_backwards :
    after (exec .logThrottled { statusRead 0 0 with
      lastLogValid := true
      lastLogTime := 100000000000
      clock := monoAt 50000000000 }) (fun t => t.lastLogTime == 50000000000) = true := by decide

/-- V33, last row. -/
theorem test_checkStatus_all : after (exec .checkStatus (statusRead 1 0x80000007)) (fun t =>
    t.out == [.log .peripheral, .recordMissed 7 true] && t.bus == pulseHold Layout.default) = true := by decide

/-- V33, second row. -/
theorem test_checkStatus_peripheral : after (exec .checkStatus (statusRead 4 0)) (fun t =>
    t.out == [.log .peripheral] && t.bus == []) = true := by decide

/-! ### Poll Scheduler -/

/-- V35. -/
theorem test_start :
    after (exec (.start 0) { withFifo [] with bitrateConfigured := true, clock := some clockV8 }) (fun t =>
      t.mode == .armed && t.base == 1699999995000000000 && t.timerArmed && !t.lastLogValid &&
      t.responses == [0x0000000000]) = true ∧
    after (exec (.start 0) (withFifo [])) (fun t => t.mode == .stopped && t.responses == [0x0600000000]) = true := by
  decide

/-- V36. -/
theorem test_timerFire :
    after (exec (.timerFire 0) (started .armed [])) (fun t => t.mode == .armed && t.timerArmed && t.out == []) = true ∧
    after (exec (.timerFire 0) (started .armed threeFrames)) (fun t =>
      t.mode == .draining && !t.timerArmed && t.out == [.pollRequest]) = true := by decide

/-- P3 line 3: missed frames at tick time. -/
theorem test_timerFire_missed :
    after (exec (.timerFire 0) { started .armed [] with
      periph := { holding (threeFrames.take 2) with missed := 7, missedOvf := true } }) (fun t =>
        t.out == [.log .missed, .recordMissed 7 true, .pollRequest] && t.periph.fifo == [] &&
        t.mode == .draining) = true := by decide

/-- P1 line 9, S5; and R243 (5): the pulse in the first iteration empties the FIFO, the snapshot in hand is delivered,
the next read finds occupancy 0. -/
theorem test_drain : after (exec (.drain 10) (started .draining threeFrames)) (fun t =>
    t.out == [
      .deliver (.frame ⟨0x123, 0, 3, ⟨0x11, 0x22, 0x33, 0, 0, 0, 0, 0⟩, 1700000000000000000⟩), .recordStats 3,
      .deliver (.frame ⟨0x9ABCDEF0, 0b100, 8, ⟨0xAA, 0xBB, 0xCC, 0xDD, 0x11, 0x22, 0x33, 0x44⟩,
        1700000000000001000⟩), .recordStats 8,
      .deliver (.frame ⟨0x400007FF, 0b010, 0, ⟨0, 0, 0, 0, 0, 0, 0, 0⟩, 1700000000000250000⟩), .recordStats 0] &&
    t.mode == .armed && t.budgetRemaining == 7 && t.responses == [0x0000000003]) = true ∧
    after (exec (.drain 10) { started .draining [] with
      periph := { holding (threeFrames.take 2) with missed := 7 } }) (fun t =>
        t.out == [.log .missed, .recordMissed 7 false,
          .deliver (.frame ⟨0x123, 0, 3, ⟨0x11, 0x22, 0x33, 0, 0, 0, 0, 0⟩, 1700000000000000000⟩), .recordStats 3] &&
        t.drained == 1 && t.mode == .armed && holdCount t.bus == 3) = true := by decide

/-- V37, sixth row (P5 line 1) and seventh row: an allocation failure ends the burst. -/
theorem test_drain_allocation_fails :
    let s : State := { started .draining threeFrames with allocs := [true, false] }
    after (exec (.drain 4) s) (fun t =>
      t.drained == 2 && t.periph.fifo.length == 1 && t.mode == .armed && t.responses == [0x0000000002]) = true ∧
    after (exec (.drain 2) s) (fun t => t.drained == 2 && t.mode == .draining && !t.timerArmed) = true := by decide

/-- V38. -/
theorem test_stop : after (exec (.stop 0) (started .armed [])) (fun t =>
    t.mode == .stopped && !t.timerArmed && t.bus == [] && t.responses == [0x0000000000]) = true := by decide

/-- V40. -/
theorem test_stop_refused : after (exec (.stop 0) State.reset) (fun t =>
    t.rejections == [.outsideMode] && t.responses == []) = true := by decide

/-! ### Witnesses: for every statement with hypotheses, a state and operands that meet them

Each theorem is named after the statement and gives the hypotheses of its clauses at concrete values, boundary values
where the clauses have a range. -/

/-- A state that another master's hold precedes. -/
def lockedBy (n : Nat) (turns : List Turn) : State := { State.reset with lock := .held (.other n), agenda := turns }

theorem witness_DecodeOfEncodeIsTheOperation :
    WellFormed (.start 0) ∧ WellFormed (.drain 0xFFFFFFFF) ∧ WellFormed .readFrame := by decide

theorem witness_DecodedWordKeepsItsBits :
    decode 0x31FFFFFFFF = .ok (.setBitRate 0xFFFFFFFF) ∧ decode 0x01FFFFFFFF = .ok .readStatus := by decide

theorem witness_RequestPortAdmission :
    ∃ s r : State, (s.agenda = [] ∧ s.inbox = [⟨.port, 0x5300000000⟩] ∧ wordOp 0x5300000000 = 0x53 ∧
      wordArg 0x5300000000 = 0) ∧
    (r.agenda = [] ∧ r.inbox = [⟨.port, 0x5300000001⟩] ∧ wordArg 0x5300000001 ≠ 0) :=
  ⟨{ State.reset with inbox := [⟨.port, 0x5300000000⟩] }, { State.reset with inbox := [⟨.port, 0x5300000001⟩] },
    ⟨rfl, rfl, rfl, rfl⟩, rfl, rfl, by decide⟩

theorem witness_StepRunsTheWaitingOperation :
    (∃ s : State, s.agenda = [] ∧ s.inbox = [⟨.port, 0x5000000000⟩]) ∧
    (∃ s : State, s.agenda = [.block, .timer] ∧ s.inbox = [⟨.port, 0x5000000000⟩]) ∧ decode 0x5000000000 = .ok (.start 0) ∧
    issuer (.start 0) = .port ∧ decode (tableWord 40 0x0200000000) = .ok .readFrame :=
  ⟨⟨{ State.reset with inbox := [⟨.port, 0x5000000000⟩] }, rfl, rfl⟩,
    ⟨{ State.reset with inbox := [⟨.port, 0x5000000000⟩], agenda := [.block, .timer] }, rfl, rfl⟩, by decide, rfl,
    by decide⟩

/-- Armed and not, with no turn set; and a timer's turn before a waiting STOP, armed and not. -/
theorem witness_IdleBlockFiresItsTimer :
    ((started .armed []).agenda = [] ∧ (started .armed []).inbox = [] ∧ (started .armed []).timerArmed = true ∧
      (started .armed []).schedBusy = false) ∧
    (State.reset.agenda = [] ∧ State.reset.inbox = [] ∧ State.reset.timerArmed = false) ∧
    (∃ s : State, s.agenda = .timer :: [.block] ∧ s.inbox = [⟨.port, 0x5300000000⟩] ∧ s.timerArmed = true ∧
      s.schedBusy = false) ∧
    (∃ s : State, s.agenda = .block :: [] ∧ s.inbox = [] ∧ s.timerArmed = false) :=
  ⟨⟨rfl, rfl, rfl, rfl⟩, ⟨rfl, rfl, rfl⟩,
    ⟨{ started .armed [] with agenda := [.timer, .block], inbox := [⟨.port, 0x5300000000⟩] }, rfl, rfl, rfl, rfl⟩,
    ⟨{ State.reset with agenda := [.block] }, rfl, rfl, rfl⟩⟩

theorem witness_EnvironmentLeavesTheBlockAlone :
    ∃ t, (lockedBy 1 [.env (.foreignRead 1 .dataHigh)]).agenda = [.env (.foreignRead 1 .dataHigh)] ∧
      step (lockedBy 1 [.env (.foreignRead 1 .dataHigh)]) = .next t := ⟨_, rfl, rfl⟩

theorem witness_AcquireTakesTheLock :
    (∃ t, acquire State.reset = .next t) ∧ (∃ t, acquire (lockedBy 1 [.block, .env (.free 1)]) = .next t) :=
  ⟨⟨_, rfl⟩, _, rfl⟩

/-- Each clause: a free lock with no move left, at the block's turn, after a move of the environment and after a
timer's turn; a held lock at the block's turn and with no move left; a hold that ends after other moves and a turn of
the block; one that never ends; an access by one who does not hold the lock. -/
theorem witness_TheLockSerialisesAccess :
    let before : List Turn := [.block, .env (.tickUs 5), .env (.free 2), .timer]
    (State.reset.lock = .free ∧ State.reset.agenda = []) ∧
    (∃ s : State, s.lock = .free ∧ s.agenda = .block :: [.timer]) ∧
    (lockedBy 1 [.env (.free 1)]).agenda = .env (.free 1) :: [] ∧
    (∃ s : State, s.lock = .free ∧ s.agenda = .timer :: [.block]) ∧
    ((lockedBy 1 [.block]).lock ≠ .free ∧ (lockedBy 1 [.block]).agenda = .block :: []) ∧
    ((lockedBy 1 []).lock ≠ .free ∧ (lockedBy 1 []).agenda = []) ∧
    ((lockedBy 1 (before ++ .env (.free 1) :: [.block])).lock = .held (.other 1) ∧
      (lockedBy 1 (before ++ .env (.free 1) :: [.block])).agenda = before ++ .env (.free 1) :: [.block] ∧
      .env (.free 1) ∉ before) ∧
    ((lockedBy 1 before).lock = .held (.other 1) ∧ .env (.free 1) ∉ (lockedBy 1 before).agenda) ∧
    ((lockedBy 2 []).lock ≠ .held (.other 1) ∧ State.reset.lock ≠ .held (.other 1)) :=
  ⟨⟨rfl, rfl⟩, ⟨{ State.reset with agenda := [.block, .timer] }, rfl, rfl⟩, rfl,
    ⟨{ State.reset with agenda := [.timer, .block] }, rfl, rfl⟩, ⟨nofun, rfl⟩, ⟨nofun, rfl⟩, ⟨rfl, rfl, by decide⟩,
    ⟨rfl, by decide⟩, by decide, by decide⟩

/-- A free lock and one another agent holds; the reference peripheral under the default layout; unconstrained reads
with three words to come. -/
theorem witness_ReadStatusResult :
    (State.reset.Undisturbed ∧ ∃ s1, acquire (lockedBy 1 [.env (.free 1)]) = .next s1) ∧
    (∃ s1, acquire (withFifo threeFrames) = .next s1 ∧ s1.periph.source = .reference ∧
      s1.periph.fifo.length < 65536) ∧
    (admissibleParams (withFifo threeFrames).params = true ∧
      (withFifo threeFrames).params.layout = Layout.default) ∧
    ∃ s1, acquire { State.reset with reads := [3, 0xFFFFFFFF, 5, 6] } = .next s1 ∧ s1.periph.source = .arbitrary ∧
      s1.reads = [3, 0xFFFFFFFF, 5] ++ [6] :=
  ⟨⟨⟨rfl, rfl⟩, _, rfl⟩, ⟨_, rfl, rfl, by decide⟩, ⟨admissible_default, rfl⟩, _, rfl, rfl, rfl⟩

theorem witness_ReadFrameResult :
    State.reset.Undisturbed ∧ ∃ s1, acquire (lockedBy 1 [.env (.free 1)]) = .next s1 := ⟨⟨rfl, rfl⟩, _, rfl⟩

theorem witness_ReadFrameLatchesTheAnswers :
    let s : State := { State.reset with reads := [0, 1, 2, 3, 4, 5, 6, 7, 8, 9, 0xFFFFFFFF, 11] }
    s.Undisturbed ∧ s.periph.source = .arbitrary ∧ s.reads = [0, 1, 2, 3, 4, 5, 6, 7, 8, 9, 0xFFFFFFFF] ++ [11] :=
  ⟨⟨rfl, rfl⟩, rfl, rfl⟩

theorem witness_ReadFrameTakesTheHeadEntry :
    (∃ s1, acquire (withFifo threeFrames) = .next s1 ∧ s1.periph.source = .reference ∧
      ∃ e, s1.periph.fifo = e :: threeFrames.tail) ∧
    (∃ s1, acquire (withFifo []) = .next s1 ∧ s1.periph.source = .reference ∧ s1.periph.fifo = []) :=
  ⟨⟨_, rfl, rfl, _, rfl⟩, _, rfl, rfl, rfl⟩

theorem witness_WriteTimingResult :
    (State.reset.Undisturbed ∧ ∃ s1, acquire State.reset = .next s1) ∧ atDefaults.params.layout = Layout.default :=
  ⟨⟨⟨rfl, rfl⟩, _, rfl⟩, rfl⟩

theorem witness_PulseResetResult :
    (withFifo threeFrames).Undisturbed ∧ (withFifo threeFrames).params.layout = Layout.default ∧
    ∃ s1, acquire (withFifo threeFrames) = .next s1 ∧ s1.periph.source = .reference := ⟨⟨rfl, rfl⟩, rfl, _, rfl, rfl⟩

/-- One entry short of a full FIFO, a full FIFO with the count at its maximum and one below it. -/
theorem witness_ArrivalQueuesOrCounts :
    let p : Peripheral := { holding (threeFrames.take 1) with depth := 2 }
    let full : Peripheral := { holding (threeFrames.take 2) with depth := 2, missed := 0x7FFFFFFF }
    let nearly : Peripheral := { full with missed := 0x7FFFFFFE }
    p.fifo.length < p.depth.toNat ∧
    (full.depth.toNat ≤ full.fifo.length ∧ full.missed.toNat = 2 ^ 31 - 1) ∧
    (nearly.depth.toNat ≤ nearly.fifo.length ∧ nearly.missed.toNat < 2 ^ 31 - 1) := by decide

theorem witness_ToAbsoluteResult : (started .armed []).baseValid = true ∧ State.reset.baseValid = false := by decide

theorem witness_TimestampArithmetic :
    let s : State := { State.reset with clock := some clockV8 }
    (∃ t, exec .captureBase s = .next t) ∧ s.clockNow.mono = 5000000 * 1000 := ⟨⟨_, rfl⟩, by decide⟩

/-- The frame branch with the whole snapshot valid, and the error branch with the frame words invalid. -/
theorem witness_DecodeResult :
    let s := snapshotHeld Snapshot.zero
    let e : State := { snapshotHeld { Snapshot.zero with frameType := 1 } with srValid := 0b00000111000 }
    ((∀ r ∈ [ReadReg.frameType, .timestampLow, .timestampHigh, .canId, .dlc, .dataLow, .dataHigh],
        srValidBit r s.srValid = true) ∧ s.baseValid = true ∧
        anyProtocolError s.params.layout s.snap.frameType = false) ∧
    ((∀ r ∈ [ReadReg.frameType, .timestampLow, .timestampHigh], srValidBit r e.srValid = true) ∧
      e.baseValid = true ∧ anyProtocolError e.params.layout e.snap.frameType = true) := by decide

/-- Nothing loaded; SR[4] alone invalid; no base, on the error branch with the frame words invalid; SR[10] alone invalid
on the frame branch; and SR[2] alone invalid for CHECK_STATUS. -/
theorem witness_InvalidRegistersFaultDecodeAndCheckStatus :
    let common : List ReadReg := [.frameType, .timestampLow, .timestampHigh]
    let part (v : BitVec 11) (ft : Word) : State :=
      { snapshotHeld { Snapshot.zero with frameType := ft } with srValid := v }
    srValidBit .frameType State.reset.srValid = false ∧
    srValidBit .timestampLow (part 0b11111101111 0).srValid = false ∧
    ((∀ r ∈ common, ¬ srValidBit r (part 0b00000111000 1).srValid = false) ∧
      ({ part 0b00000111000 1 with baseValid := false } : State).baseValid = false) ∧
    ((∀ r ∈ common, ¬ srValidBit r (part 0b01111111111 0).srValid = false) ∧
      (part 0b01111111111 0).baseValid = true ∧
      anyProtocolError (part 0b01111111111 0).params.layout (part 0b01111111111 0).snap.frameType = false ∧
      srValidBit .dataHigh (part 0b01111111111 0).srValid = false) ∧
    srValidBit .missedStatus (part 0b11111111011 0).srValid = false := by decide

/-- One frame-type word per row of the priority table (R183), under the default layout. -/
theorem witness_ErrorFlagsDecideTheEvent :
    let flags (w : Word) : List Bool := [0, 1, 2, 3].map w.getLsbD
    Params.default.layout = Layout.default ∧ (0xF#32).getLsbD 0 = true ∧
    (flags 0xE).take 2 = [false, true] ∧ (flags 0xC).take 3 = [false, false, true] ∧
    flags 0xFFFFFFF8 = [false, false, false, true] ∧ flags 0xFFFFFFF0 = [false, false, false, false] := by decide

/-- One flag set, under the spec's own parameters and under another choice. -/
theorem witness_ErrorEventContents :
    (admissibleParams Params.default = true ∧ anyProtocolError Params.default.layout 0x59 = true) ∧
    admissibleParams otherParams = true ∧ anyProtocolError otherParams.layout 0x10000000 = true := by decide

theorem witness_ErrorEventIgnoresThePayloadWords :
    let s := snapshotHeld { Snapshot.zero with frameType := 0x59 }
    anyProtocolError s.params.layout s.snap.frameType = true ∧ s.baseValid = true ∧
    ∀ r ∈ [ReadReg.frameType, .timestampLow, .timestampHigh],
      srValidBit r s.srValid = true ∧ srValidBit r 0b00000111000 = true := by decide

/-- No flag set, under both choices of the parameters. -/
theorem witness_FrameIdentifierAndFlags :
    anyProtocolError Params.default.layout 0xFF0 = false ∧ anyProtocolError otherParams.layout 0x0FFFFFFF = false := by
  decide

/-- dlc 4 and index 3, dlc 0 and index 0, dlc 5 and indices 3 and 4, dlc 15, with no flag set. -/
theorem witness_FramePayloadPacking :
    let dlc (w : Word) : Nat := (frameOf Params.default 0 w 0 0 0).dlc.toNat
    anyProtocolError Params.default.layout Snapshot.zero.frameType = false ∧
    (dlc 4 ≤ 4 ∧ 3 < dlc 4) ∧ (dlc 0 ≤ 4 ∧ dlc 0 ≤ 0) ∧ 4 < dlc 5 ∧ 4 < dlc 15 := by decide

theorem witness_LongPayloadIsOneBigEndianUnit :
    anyProtocolError Params.default.layout Snapshot.zero.frameType = false ∧
    4 < (dlcField Layout.default 5).toNat ∧ 4 < (dlcField Layout.default 0xF).toNat ∧
    dlcField Layout.default 0xFFFFFFF4 = 4 := by decide

theorem witness_FrameTypeCodeAndCrcAreIgnored :
    let lay := Layout.default
    ∀ position ∈ [lay.stuff, lay.form, lay.sample, lay.crcErr],
      (0xFF0#32).getLsbD position.val = Snapshot.zero.frameType.getLsbD position.val := by decide

theorem witness_ResolveResult :
    (499999 : Word) ≠ 500000 ∧ (499999 : Word) ≠ 1000000 ∧ (1000001 : Word) ≠ 500000 ∧
    (1000001 : Word) ≠ 1000000 := by decide

theorem witness_ResolvedTimingIsWithinLimits :
    resolveRate 500000 = some ⟨1, 5, 7, 7, 4⟩ ∧ resolveRate 1000000 = some ⟨1, 2, 4, 3, 4⟩ := by decide

theorem witness_SetBitRateProgramsAndPulses :
    State.reset.Undisturbed ∧ State.reset.mode = .stopped ∧ resolveRate 500000 = some ⟨1, 5, 7, 7, 4⟩ :=
  ⟨⟨rfl, rfl⟩, rfl, by decide⟩

theorem witness_TimingIsNeverWrittenWithoutThePulse :
    (∃ t, exec (.setBitRate 1000000) (lockedBy 1 [.env (.free 1)]) = .next t) ∧
    (∃ t, exec (.setBitRate 0) State.reset = .next t) := ⟨⟨_, rfl⟩, _, rfl⟩

theorem witness_UnsupportedRateChangesNothing :
    State.reset.mode = .stopped ∧ (250000 : Word) ≠ 500000 ∧ (250000 : Word) ≠ 1000000 := by decide

theorem witness_RequestsOutsideTheirMode :
    (started .armed []).mode ≠ .stopped ∧
    ((started .armed []).schedBusy = false ∧ (started .armed []).mode ≠ .draining) ∧
    (State.reset.schedBusy = false ∧ State.reset.mode = .stopped) ∧
    ((started .draining []).schedBusy = false ∧ (started .draining []).timerArmed = false) ∧ (1 : Word) ≠ 0 := by
  decide

theorem witness_CallsAreHeldWhileBusy :
    ({ started .draining [] with schedBusy := true } : State).schedBusy = true := by decide

/-- No report yet; exactly the window; one nanosecond less. -/
theorem witness_LogThrottledResult :
    let s (ns : Time) : State := { statusRead 0 0 with
      lastLogValid := true
      lastLogTime := 100000000000
      clock := monoAt ns }
    State.reset.lastLogValid = false ∧ 15000000000 ≤ (s 115000000000).clockNow.mono - (s 115000000000).lastLogTime ∧
    ((s 114999999999).lastLogValid = true ∧
      (s 114999999999).clockNow.mono - (s 114999999999).lastLogTime < 15000000000) := by decide

theorem witness_OneWindowForAllCategories :
    logEmits { State.reset with clock := some ⟨0, 100000000000⟩ } = true ∧
    (114999999999 : Time) - 100000000000 < 15000000000 ∧
    (15000000000 : Time) ≤ 115000000000 - 100000000000 := by decide

theorem witness_CheckStatusWithoutMissedFrames :
    let s (err : Word) := statusRead err 0
    (srValidBit .errorStatus (s 0).srValid = true ∧ srValidBit .missedStatus (s 0).srValid = true ∧
      missedCount (s 0).params.layout (s 0).snap.missedStatus = 0 ∧
      missedOverflow (s 0).params.layout (s 0).snap.missedStatus = false ∧ (s 0).snap.errorStatus = 0) ∧
    (s 4).snap.errorStatus ≠ 0 := by decide

/-- The overflow alone, and the count alone. -/
theorem witness_CheckStatusWithMissedFrames :
    let s (missed : Word) := statusRead 0 missed
    ((s 0x80000000).agenda = [] ∧ (s 0x80000000).lock = .free) ∧
    (s 0x80000000).clock = some ⟨0, 100000000000⟩ ∧ srValidBit .errorStatus (s 0x80000000).srValid = true ∧
    srValidBit .missedStatus (s 0x80000000).srValid = true ∧
    missedOverflow (s 0x80000000).params.layout (s 0x80000000).snap.missedStatus = true ∧
    missedCount (s 1).params.layout (s 1).snap.missedStatus ≠ 0 := by decide

theorem witness_MissedFramesAlwaysPulse :
    (∃ t, exec .checkStatus (statusRead 0 1) = .next t) ∧ (∃ t, exec .checkStatus (statusRead 0 0) = .next t) :=
  ⟨⟨_, rfl⟩, _, rfl⟩

theorem witness_StartResult :
    let s : State := { State.reset with bitrateConfigured := true }
    s.mode = .stopped ∧ s.bitrateConfigured = true := by decide

theorem witness_StartWithoutABitRate :
    State.reset.mode = .stopped ∧ State.reset.bitrateConfigured = false := by decide

/-- Armed with an empty FIFO and with queued entries: both branches answer, with the clocks pinned. -/
theorem witness_TimerFireResult :
    ((started .armed []).timerArmed = true ∧ (started .armed []).schedBusy = false ∧
      (started .armed []).agenda = [] ∧ (started .armed []).lock = .free ∧
      (started .armed []).clock = some ⟨0, 100000000000⟩) ∧
    after (exec (.timerFire 0) (started .armed []))
      (fun t => bufferUsage t.params.layout t.snap.bufferStatus == 0) = true ∧
    after (exec (.timerFire 0) (started .armed threeFrames))
      (fun t => bufferUsage t.params.layout t.snap.bufferStatus != 0) = true := by decide

/-- A short burst, with the clocks pinned, and a full budget. -/
theorem witness_DrainResult :
    ((started .draining threeFrames).mode = .draining ∧ (started .draining threeFrames).schedBusy = false ∧
      (started .draining threeFrames).agenda = [] ∧ (started .draining threeFrames).lock = .free ∧
      (started .draining threeFrames).baseValid = true ∧
      (started .draining threeFrames).clock = some ⟨0, 100000000000⟩) ∧
    after (exec (.drain 4) (started .draining threeFrames)) (fun t => t.drained == 3) = true ∧
    after (exec (.drain 3) (started .draining threeFrames)) (fun t => t.drained == 3) = true := by decide

theorem witness_DrainHoldsAreBounded :
    (started .draining threeFrames).mode = .draining ∧ (started .draining threeFrames).schedBusy = false ∧
    after (exec (.drain 4) (started .draining threeFrames)) (fun t => holdCount t.bus == 4) = true := by decide

theorem witness_DrainOfBudgetZero :
    (started .draining threeFrames).mode = .draining ∧ (started .draining threeFrames).schedBusy = false := by decide

/-- The state a DRAIN of this budget runs its burst from. -/
def bursting (q : List Entry) (budget : Word) : State :=
  { started .draining q with schedBusy := true, budgetRemaining := budget, drained := 0 }

theorem witness_DrainOfAnEmptyFifoStopsEarly :
    (started .draining []).mode = .draining ∧ (started .draining []).schedBusy = false ∧ (1 : Word) ≠ 0 ∧
    after (readFrame (bursting [] 1)) (fun t => bufferUsage t.params.layout t.snap.bufferStatus == 0) = true := by decide

theorem witness_FailedAllocationEndsTheBurst :
    (started .draining threeFrames).mode = .draining ∧ (started .draining threeFrames).schedBusy = false ∧
    (1 : Word) ≠ 0 ∧
    after (andThen (readFrame { bursting threeFrames 1 with allocs := [false] }) checkStatus) (fun t =>
      bufferUsage t.params.layout t.snap.bufferStatus != 0 && !t.allocOk) = true := by decide

/-- The second of two allocations fails: with budget to spare, and in the last slot of the budget (V37); and the very
first one. -/
theorem witness_FailedAllocationEndsTheBurst_later :
    let s : State := { started .draining threeFrames with allocs := [true, false, true] }
    ((s.agenda = [] ∧ s.lock = .free) ∧ s.mode = .draining ∧ s.schedBusy = false ∧ s.baseValid = true ∧
      s.periph.source = .reference ∧ s.periph.fifo.length < 65536 ∧ s.periph.errst = 0 ∧ s.periph.missed = 0 ∧
      s.periph.missedOvf = false ∧ s.allocs = List.replicate 1 true ++ false :: [true]) ∧
    1 < min s.periph.fifo.length (4 : Word).toNat ∧ 1 < min s.periph.fifo.length (2 : Word).toNat ∧
    [false] = List.replicate 0 true ++ false :: [] := by decide

/-- A frame and an error event. -/
theorem witness_DrainedEventIsHandedOver :
    (∃ f, decodeEvent (snapshotHeld Snapshot.zero) = .ok (.frame f)) ∧
    (∃ e, decodeEvent (snapshotHeld { Snapshot.zero with frameType := 8 }) = .ok (.error e)) := ⟨⟨_, rfl⟩, _, rfl⟩

/-- Fewer entries than the budget, and exactly the budget. -/
theorem witness_DrainDeliversTheQueuedFrames :
    let s := started .draining threeFrames
    (s.agenda = [] ∧ s.lock = .free) ∧ s.mode = .draining ∧ s.schedBusy = false ∧ s.baseValid = true ∧
    s.periph.source = .reference ∧ s.periph.fifo.length < 65536 ∧ s.periph.errst = 0 ∧ s.periph.missed = 0 ∧
    s.periph.missedOvf = false ∧
    s.allocs = List.replicate (min s.periph.fifo.length (10 : Word).toNat) true ++ [true, true] ∧
    s.allocs = List.replicate (min s.periph.fifo.length (3 : Word).toNat) true ++ [true, true] := by decide

theorem witness_StopResult :
    ((started .armed []).schedBusy = false ∧ (started .armed []).mode ≠ .stopped) ∧
    ((started .draining []).schedBusy = false ∧ (started .draining []).mode ≠ .stopped) := by decide

theorem witness_StoppedBlockIsQuiet :
    let s : State := { State.reset with inbox := [⟨.port, 0x5000000000⟩] }
    s.mode = .stopped ∧ s.timerArmed = false ∧ (∀ c ∈ s.inbox, c.via ≠ .internal ∧ wordOp c.word ≠ 0x31) ∧
    after (step s) (fun _ => true) = true := by decide

/-- Each of the four changes of mode, from a state that meets the invariants. -/
theorem witness_ModeChangesOnlyByTheScheduler :
    (started .armed []).Inv ∧ (started .draining []).Inv ∧ ({ withFifo [] with bitrateConfigured := true } : State).Inv ∧
    after (exec (.start 0) { withFifo [] with bitrateConfigured := true }) (fun t => t.mode == .armed) = true ∧
    after (exec (.timerFire 0) (started .armed threeFrames)) (fun t => t.mode == .draining) = true ∧
    after (exec (.drain 1) (started .draining [])) (fun t => t.mode == .armed) = true ∧
    after (exec (.stop 0) (started .draining [])) (fun t => t.mode == .stopped) = true :=
  ⟨⟨rfl, nofun, fun _ => rfl, fun _ => ⟨rfl, rfl⟩, nofun, admissible_default⟩,
    ⟨rfl, nofun, nofun, fun _ => ⟨rfl, rfl⟩, nofun, admissible_default⟩,
    ⟨rfl, fun _ => rfl, nofun, fun h => absurd rfl h, nofun, admissible_default⟩, by decide, by decide, by decide, by decide⟩

/-- Each kind of register is changed by one of the named operations. -/
theorem witness_EachRegisterHasItsWriters :
    after (exec .captureBase { State.reset with clock := some clockV8 }) (fun t => t.base != State.reset.base) = true ∧
    after (exec (.setBitRate 500000) State.reset) (fun t => t.timing != State.reset.timing) = true ∧
    after (exec .readStatus State.reset) (fun t => t.srValid != State.reset.srValid) = true ∧
    after (exec .checkStatus (statusRead 1 0)) (fun t => t.lastLogValid) = true ∧
    after (exec (.drain 5) (started .draining threeFrames)) (fun t => t.drained == 3 && t.timerArmed) = true ∧
    after (exec (.stop 0) (started .armed [])) (fun t => !t.timerArmed) = true := by decide

theorem witness_StepKeepsTheInvariants :
    State.reset.Inv ∧ (started .armed threeFrames).Inv ∧ (started .draining threeFrames).Inv ∧
    (∃ t, step State.reset = .next t) ∧ after (step (started .armed threeFrames)) (fun t => t.mode == .draining) = true :=
  ⟨⟨rfl, fun _ => rfl, nofun, fun h => absurd rfl h, nofun, admissible_params⟩,
    ⟨rfl, nofun, fun _ => rfl, fun _ => ⟨rfl, rfl⟩, nofun, admissible_default⟩,
    ⟨rfl, nofun, nofun, fun _ => ⟨rfl, rfl⟩, nofun, admissible_default⟩, ⟨_, rfl⟩, by decide⟩

theorem witness_StepKeepsTheBusDiscipline :
    WholeHolds State.reset.params.layout State.reset.bus ∧
    WholeHolds Layout.default (statusHold Snapshot.zero) ∧
    after (step (started .armed threeFrames)) (fun t => t.bus != []) = true :=
  ⟨.nil, .snoc (l := []) .nil (.status _), by decide⟩

theorem witness_StepKeepsTheFifoBounded :
    (holding threeFrames).Bounded ∧ ({ holding threeFrames with depth := 3 } : Peripheral).Bounded ∧
    after (step { withFifo threeFrames with agenda := [.env (.arrive (entryOf 1 1 1 1 0))] })
      (fun t => t.periph.fifo.length == 4) = true :=
  ⟨⟨by decide, by decide⟩, ⟨by decide, by decide⟩, by decide⟩

end Sys2Proof.Tests
end

section
/-!
PROOFS. A step at a turn of the environment (00_scope.md R15; 10_state.md R45).
-/

namespace Sys2Proof.Machine

/-- At a turn of the environment a step is that move alone: no operation of the block runs (log 10). -/
theorem step_env {s : State} {e : EnvStep} {rest : List Turn} (ha : s.agenda = .env e :: rest) :
    step s = .next (envStep e { s with agenda := rest }) := by
  have hf : fetch s = .settled (envStep e { s with agenda := rest }) := by rw [fetch, ha]
  rw [step_eq, hf, carryOut]

/-- Settles O8: the step is the move of the environment (`step_env`), which leaves the block's part of the state alone
(`envStep_sameBlock`); taking the turn from the agenda changes no field of that part. -/
theorem environmentLeavesTheBlockAlone : Obligations.EnvironmentLeavesTheBlockAlone := by
  intro s t e rest ha hs
  rw [step_env ha] at hs
  cases hs
  exact envStep_sameBlock e { s with agenda := rest }

end Sys2Proof.Machine
end

section
/-!
PROOFS. What every operation keeps of the invariants of 10_state.md R46, and the modes and registers it may write
(R30, R45).
-/

namespace Sys2Proof.Machine

/-! ### The invariants as a property of the block state -/

/-- The clauses of `State.Inv` that speak of the block state (R46, R34). -/
structure BlockInv (b : BlockState) : Prop where
  notBusy         : b.schedBusy = false
  stoppedDisarmed : b.mode = .stopped → b.timerArmed = false
  armedMode       : b.timerArmed = true → b.mode = .armed
  running         : b.mode ≠ .stopped → b.bitrateConfigured = true ∧ b.baseValid = true

/-- The invariants are those of the block state, and one each on the lock and the parameters. -/
theorem inv_iff {s : State} :
    s.Inv ↔ BlockInv s.block ∧ s.lock ≠ .held .block ∧ admissibleParams s.params = true := by
  constructor
  · rintro ⟨hbusy, hstop, harm, hrun, hlock, hparams⟩
    exact ⟨⟨hbusy, hstop, harm, hrun⟩, hlock, hparams⟩
  · rintro ⟨⟨hbusy, hstop, harm, hrun⟩, hlock, hparams⟩
    exact ⟨hbusy, hstop, harm, hrun, hlock, hparams⟩

/-- A pending timer means that the block is not stopped. -/
theorem BlockInv.mode_ne_stopped {b : BlockState} (hb : BlockInv b) (ht : b.timerArmed = true) : b.mode ≠ .stopped := by
  rw [hb.armedMode ht]; nofun

/-- No operation breaks the invariants of the block state: START establishes what a running block needs, TIMER_FIRE and
DRAIN leave the timer armed in Armed only, STOP disarms it, the others write no register an invariant speaks of. -/
theorem BlockEffect.keeps_inv {i : Instr} {b c : BlockState} (h : BlockEffect i b c) (hb : BlockInv b) : BlockInv c := by
  have ⟨hbusy, hstop, harm, hrun⟩ := hb
  cases i with
  | writeTiming | pulseReset | toAbsolute | decode | resolve _ => cases h; exact hb
  | readStatus | readFrame | logThrottled | checkStatus => rw [h]; exact ⟨hbusy, hstop, harm, hrun⟩
  | captureBase => rw [h]; exact ⟨hbusy, hstop, harm, fun hm => ⟨(hrun hm).1, rfl⟩⟩
  | setBitRate _ =>
    rcases h with rfl | ⟨-, h⟩
    · exact hb
    · rw [h]; exact ⟨hbusy, hstop, harm, fun hm => ⟨rfl, (hrun hm).2⟩⟩
  | start _ =>
    rcases h with rfl | ⟨-, -, hrate, h⟩
    · exact hb
    · rw [h]; exact ⟨hbusy, nofun, fun _ => rfl, fun _ => ⟨hrate, rfl⟩⟩
  | timerFire _ =>
    rcases h with rfl | ⟨-, -, ht, h, hmode⟩
    · exact hb
    · have hr := hrun (hb.mode_ne_stopped ht)
      rw [h]
      rcases hmode with ⟨hm, ha⟩ | ⟨hm, ha⟩ <;> constructor <;> simp [hm, ha, hbusy, hr, harm ht]
  | drain _ =>
    rcases h with rfl | ⟨-, hd, h, hmode⟩
    · exact hb
    · have hr := hrun (by rw [hd]; nofun)
      have ht : b.timerArmed = false := Bool.eq_false_iff.mpr fun ht => by simpa [hd] using harm ht
      rw [h]
      rcases hmode with ⟨hm, ha⟩ | ⟨hm, ha⟩ <;> constructor <;> simp [hm, ha, hbusy, hr, ht]
  | stop _ =>
    rcases h with rfl | ⟨-, -, h⟩
    · exact hb
    · rw [h]; exact ⟨hbusy, fun _ => rfl, nofun, fun hm => absurd rfl hm⟩

/-- Every operation keeps the invariants. -/
theorem exec_inv {i : Instr} {s t : State} (h : exec i s = .next t) (hs : s.Inv) : t.Inv := by
  obtain ⟨hb, hl, hp⟩ := inv_iff.mp hs
  exact inv_iff.mpr ⟨(exec_block h).keeps_inv hb, exec_lock h hl, by rw [exec_params h]; exact hp⟩

/-- Taking a turn or a waiting word keeps the invariants. -/
theorem SameMachine.inv {s t : State} (h : SameMachine s t) (hs : s.Inv) : t.Inv := by
  rw [inv_iff] at hs ⊢
  rwa [h.block, h.lock, h.params]

/-- A move of the environment keeps the invariants. -/
theorem envStep_inv (e : EnvStep) {s : State} (hs : s.Inv) : (envStep e s).Inv := by
  obtain ⟨hb, hl, hp⟩ := inv_iff.mp hs
  obtain ⟨hblock, -, -, hparams⟩ := envStep_sameBlock e s
  exact inv_iff.mpr ⟨by rwa [hblock], envStep_lock e hl, by rwa [hparams]⟩

/-- Settles O57: a step is an operation, a move of the environment, or an input taken (`step_cases`), and each of the
three keeps the invariants. -/
theorem stepKeepsTheInvariants : Obligations.StepKeepsTheInvariants := by
  intro s t hs hstep
  obtain ⟨i, u, hexec, hsame, -⟩ | ⟨e, rest, rfl⟩ | hsame := step_cases hstep
  · exact exec_inv hexec (hsame.inv hs)
  · have hrest : SameMachine s { s with agenda := rest } := ⟨⟨rfl, rfl, rfl, rfl⟩, rfl, rfl, rfl, rfl, rfl⟩
    exact envStep_inv e (hrest.inv hs)
  · exact hsame.inv hs

/-! ### The mode -/

/-- The changes of the mode that an operation may make when the invariants hold (R30, R231). -/
theorem BlockEffect.mode_cases {i : Instr} {b c : BlockState} (h : BlockEffect i b c) (hb : BlockInv b)
    (hne : c.mode ≠ b.mode) :
    (i = .start 0 ∧ b.mode = .stopped ∧ c.mode = .armed) ∨
    (i = .timerFire 0 ∧ b.mode = .armed ∧ c.mode = .draining) ∨
    (∃ n, i = .drain n ∧ b.mode = .draining ∧ c.mode = .armed) ∨
    (i = .stop 0 ∧ b.mode ≠ .stopped ∧ c.mode = .stopped) := by
  cases i with
  | writeTiming | pulseReset | toAbsolute | decode | resolve _ | readStatus | readFrame | logThrottled | checkStatus
  | captureBase => exact absurd (congrArg BlockState.mode h) hne
  | setBitRate _ =>
    obtain h | ⟨-, h⟩ := h
    · exact absurd (congrArg BlockState.mode h) hne
    · exact absurd (congrArg BlockState.mode h) hne
  | start _ =>
    obtain h | ⟨rfl, hm, -, h⟩ := h
    · exact absurd (congrArg BlockState.mode h) hne
    · exact .inl ⟨rfl, hm, congrArg BlockState.mode h⟩
  | timerFire _ =>
    obtain h | ⟨rfl, -, ht, -, ⟨hm, -⟩ | ⟨hm, -⟩⟩ := h
    · exact absurd (congrArg BlockState.mode h) hne
    · exact absurd hm hne
    · exact .inr (.inl ⟨rfl, hb.armedMode ht, hm⟩)
  | drain n =>
    obtain h | ⟨-, hd, -, ⟨hm, -⟩ | ⟨hm, -⟩⟩ := h
    · exact absurd (congrArg BlockState.mode h) hne
    · exact .inr (.inr (.inl ⟨n, rfl, hd, hm⟩))
    · exact absurd (hm.trans hd.symm) hne
  | stop _ =>
    obtain h | ⟨rfl, hm, h⟩ := h
    · exact absurd (congrArg BlockState.mode h) hne
    · exact .inr (.inr (.inr ⟨rfl, hm, congrArg BlockState.mode h⟩))

/-- Settles O55: what an operation may make of the block state (`exec_block`) allows these four changes of the mode. -/
theorem modeChangesOnlyByTheScheduler : Obligations.ModeChangesOnlyByTheScheduler :=
  fun _ _ _ hs hexec hne => (exec_block hexec).mode_cases (inv_iff.mp hs).1 hne

/-! ### The writers -/

/-- Which operations may write which registers of the block state (R24, R30 to R37, R39, R45). -/
structure Writers (i : Instr) (b c : BlockState) : Prop where
  base     : c.base ≠ b.base ∨ c.baseValid ≠ b.baseValid → i = .captureBase ∨ i = .start 0
  timing   : c.timing ≠ b.timing ∨ c.bitrateConfigured ≠ b.bitrateConfigured → ∃ n, i = .setBitRate n
  snap     : c.snap ≠ b.snap ∨ c.srValid ≠ b.srValid →
    i = .readStatus ∨ i = .readFrame ∨ i = .timerFire 0 ∨ ∃ n, i = .drain n
  throttle : c.lastLogValid ≠ b.lastLogValid ∨ c.lastLogTime ≠ b.lastLogTime →
    i = .logThrottled ∨ i = .checkStatus ∨ i = .start 0 ∨ i = .timerFire 0 ∨ ∃ n, i = .drain n
  budget   : c.budgetRemaining ≠ b.budgetRemaining ∨ c.drained ≠ b.drained → i = .start 0 ∨ ∃ n, i = .drain n
  mode     : c.mode ≠ b.mode ∨ c.timerArmed ≠ b.timerArmed →
    i = .start 0 ∨ i = .timerFire 0 ∨ i = .stop 0 ∨ ∃ n, i = .drain n
  deadline : c.timerDeadline ≠ b.timerDeadline → i = .start 0 ∨ i = .timerFire 0 ∨ ∃ n, i = .drain n
  busy     : c.schedBusy = b.schedBusy

/-- Writing nothing is allowed to every operation. -/
theorem Writers.refl (i : Instr) (b : BlockState) : Writers i b b := by
  constructor <;> simp

/-- What an operation may make of the block state stays within the registers it may write. -/
theorem BlockEffect.writers {i : Instr} {b c : BlockState} (h : BlockEffect i b c) : Writers i b c := by
  cases i with
  | writeTiming | pulseReset | toAbsolute | decode | resolve _ => cases h; exact .refl _ _
  | readStatus | readFrame | captureBase | logThrottled | checkStatus => rw [h]; constructor <;> simp
  | setBitRate _ =>
    obtain rfl | ⟨-, h⟩ := h
    · exact .refl _ _
    · rw [h]; constructor <;> simp
  | start _ =>
    obtain rfl | ⟨rfl, -, -, h⟩ := h
    · exact .refl _ _
    · rw [h]; constructor <;> simp
  | timerFire _ =>
    obtain rfl | ⟨rfl, -, -, h, -⟩ := h
    · exact .refl _ _
    · rw [h]; constructor <;> simp
  | drain _ =>
    obtain rfl | ⟨-, -, h, -⟩ := h
    · exact .refl _ _
    · rw [h]; constructor <;> simp
  | stop _ =>
    obtain rfl | ⟨rfl, -, h⟩ := h
    · exact .refl _ _
    · rw [h]; constructor <;> simp

/-- Settles O56: the registers an operation writes are those its effect on the block state names (`exec_block`), and the
parameters are never written (`exec_params`). -/
theorem eachRegisterHasItsWriters : Obligations.EachRegisterHasItsWriters := by
  intro i s t hexec
  obtain ⟨hbase, htiming, hsnap, hthrottle, hbudget, hmode, hdeadline, hbusy⟩ := (exec_block hexec).writers
  exact ⟨exec_params hexec, hbase, htiming, hsnap, hthrottle, hbudget, hmode, hdeadline, hbusy⟩

end Sys2Proof.Machine
end

section
/-!
PROOFS. The machine after power-on (10_state.md R47; 70_reset_and_hazards.md R310).
-/

namespace Sys2Proof.Machine

/-- The depth of the FIFO is positive, whatever the OPEN parameter is (R8). -/
theorem fifoDepth_pos : 1 ≤ Config.fifoDepth.toNat := by
  unfold Config.fifoDepth
  split
  · decide
  · next h =>
    have hne : Config.fifoDepthSeed.toNat ≠ 0 := fun h0 => h (BitVec.eq_of_toNat_eq h0)
    omega

/-- The machine after power-on meets the invariants: it is stopped with no timer pending and the lock free, and its
parameters are lawful. -/
theorem reset_inv : State.reset.Inv where
  notBusy         := rfl
  stoppedDisarmed := fun _ => rfl
  armedMode       := nofun
  running         := fun hm => absurd rfl hm
  lockNotBlock    := nofun
  lawfulParams    := admissible_params

/-- Settles O60: the values are those of `State.reset`; the invariants, the bound on the FIFO and the shape of the trace
follow from them. -/
theorem resetMeetsTheInvariants : Obligations.ResetMeetsTheInvariants :=
  ⟨⟨rfl, rfl, rfl, rfl, rfl, rfl, rfl, rfl⟩, ⟨rfl, rfl, rfl, rfl, rfl⟩, reset_inv, ⟨fifoDepth_pos, Nat.zero_le _⟩, .nil⟩

end Sys2Proof.Machine
end

section
/-!
PROOFS. The addresses of the register block (20_memory.md R60, R63; 30_encoding.md R101).
-/

namespace Sys2Proof.Machine

theorem mem_allReadRegs (r : ReadReg) : r ∈ allReadRegs := by cases r <;> decide

theorem mem_allWriteRegs (r : WriteReg) : r ∈ allWriteRegs := by cases r <;> decide

/-- The read-side offsets follow the numbering of the holding registers (R21, R101). -/
theorem ReadReg.offset_eq (r : ReadReg) : r.offset = 4 * r.index := by cases r <;> rfl

theorem ReadReg.index_injective : Function.Injective ReadReg.index := by
  intro r q
  cases r <;> cases q <;> decide

/-- What admissible write-side offsets are: multiples of 4, distinct from the read-side ones and from each other
(R101). -/
theorem admissibleOffsets_iff {off : WriteReg → Nat} :
    admissibleOffsets off = true ↔
      ∀ r, off r % 4 = 0 ∧ (∀ q : ReadReg, q.offset ≠ off r) ∧ ∀ q, off q = off r → q = r := by
  simp only [admissibleOffsets, List.all_eq_true, Bool.and_eq_true, Bool.or_eq_true, beq_iff_eq, bne_iff_ne,
    mem_allReadRegs, mem_allWriteRegs, forall_const, and_assoc, or_iff_not_imp_right, not_not]

/-- The machine's write-side offsets are admissible, whatever the OPEN choice is (R8, log 28). -/
theorem admissibleOffsets_offset : admissibleOffsets WriteReg.offset = true := by
  by_cases h : admissibleOffsets (fun q => Config.writeOffsetSeed q.number) = true
  · have he : WriteReg.offset = fun q => Config.writeOffsetSeed q.number := funext fun q => if_pos h
    rwa [he]
  · have he : WriteReg.offset = WriteReg.defaultOffset := funext fun q => if_neg h
    rw [he]
    decide

/-- Adding the base of the register block keeps an offset's alignment (R60, R63). -/
theorem regBase_add_mod (n : Nat) : (Config.regBase + n) % 4 = n % 4 := by
  rw [Config.regBase]; omega

/-- Settles O11: the read-side offsets are four times the register's index, and the write-side ones are admissible. -/
theorem registerAddressesAreDistinctWords : Obligations.RegisterAddressesAreDistinctWords := by
  have hw := admissibleOffsets_iff.mp admissibleOffsets_offset
  refine ⟨ReadReg.offset_eq, fun r q h => ?_, fun r q h => (hw q).2.2 r h, fun r q => (hw q).2.1 r,
    fun r => ⟨?_, rfl⟩, fun q => ⟨?_, rfl⟩⟩
  · rw [r.offset_eq, q.offset_eq] at h
    exact ReadReg.index_injective (by omega)
  · rw [ReadReg.address, regBase_add_mod, r.offset_eq]
    omega
  · rw [WriteReg.address, regBase_add_mod]
    exact (hw q).1

end Sys2Proof.Machine
end

section
/-!
PROOFS. The faults of DECODE and CHECK_STATUS on registers nothing has loaded (10_state.md R22, R36).
-/

namespace Sys2Proof.Machine

/-- When one of the registers to be read is invalid, reading them faults, and on one that is invalid (R22, U14). -/
theorem srFault_of_invalid {s : State} {rs : List ReadReg} (h : ∃ r ∈ rs, srValidBit r s.srValid = false) :
    ∃ q ∈ rs, srValidBit q s.srValid = false ∧ srFault rs s = some (.snapshotInvalid q) := by
  have hsome : (rs.find? fun r => !srValidBit r s.srValid).isSome := by
    simpa [List.find?_isSome] using h
  obtain ⟨q, hq⟩ := Option.isSome_iff_exists.mp hsome
  exact ⟨q, List.mem_of_find?_eq_some hq, by simpa using List.find?_some hq, by rw [srFault, hq]; rfl⟩

/-- The registers both branches of DECODE read, in either order of the timestamp's halves (R181). -/
theorem mem_decodeCommonReads {r : ReadReg} :
    r ∈ decodeCommonReads ↔ r ∈ [ReadReg.frameType, .timestampLow, .timestampHigh] := by
  cases r <;> decide

/-- Without a fault on the registers both branches read, DECODE looks at the base next (R173, R181). -/
theorem srFault_common_eq_none {s : State}
    (h : ∀ r ∈ [ReadReg.frameType, .timestampLow, .timestampHigh], ¬ srValidBit r s.srValid = false) :
    srFault decodeCommonReads s = none :=
  srFault_eq_none.mpr fun r hr => by simpa using h r (mem_decodeCommonReads.mp hr)

/-- A DECODE without an event faults (R181). -/
theorem exec_decode_error {s : State} {f : Fault} (h : decodeEvent s = .error f) : exec .decode s = .fault f := by
  simp only [exec, execDecode, h]

/-- Settles O23: in each clause the registers read before the one at fault are valid, so the first read that is not
decides (`srFault_of_invalid`). -/
theorem invalidRegistersFaultDecodeAndCheckStatus : Obligations.InvalidRegistersFaultDecodeAndCheckStatus := by
  intro s
  refine ⟨fun ⟨r, hr, hv⟩ => ?_, fun hvalid hbase => ?_, fun hvalid hbase hframe hinvalid => ?_, fun hinvalid => ?_⟩
  · obtain ⟨q, hq, hqv, hf⟩ := srFault_of_invalid ⟨r, mem_decodeCommonReads.mpr hr, hv⟩
    exact ⟨q, mem_decodeCommonReads.mp hq, hqv, exec_decode_error (by rw [decodeEvent, hf])⟩
  · have hc := srFault_common_eq_none hvalid
    exact exec_decode_error (by simp [decodeEvent, hc, hbase])
  · have hc := srFault_common_eq_none hvalid
    obtain ⟨q, hq, hqv, hf⟩ := srFault_of_invalid (rs := decodeFrameReads) hinvalid
    exact ⟨q, hq, hqv, exec_decode_error (by simp [decodeEvent, hc, hbase, hframe, hf])⟩
  · obtain ⟨q, hq, hqv, hf⟩ := srFault_of_invalid (rs := checkReads) hinvalid
    exact ⟨q, hq, hqv, by simp only [exec, execCheckStatus, checkStatus, hf]⟩

end Sys2Proof.Machine
end

section
/-!
PROOFS. What a burst of DRAIN leaves, snapshot by snapshot (46_poll_scheduler.md R238 to R243; 45_error_log_throttle.md
R222): one iteration, the induction over the budget, and the end of the procedure.
-/

namespace Sys2Proof.Machine

/-! ### Failed allocations among the reports -/

/-- How many failed allocations were reported (R240, R281). -/
def failures (s : State) : Nat := s.raised.count .allocationFailure

/-- A report counts when it is of a failed allocation. -/
@[simp] theorem failures_raise (x : Exception) (s : State) :
    failures (s.raise x) = failures s + if x = .allocationFailure then 1 else 0 := by
  simp [failures, List.count_singleton]

@[simp] theorem failures_emit (e : OutEvent) (s : State) : failures (s.emit e) = failures s := rfl

@[simp] theorem failures_logThrottled (c : LogCategory) (s : State) : failures (logThrottled c s) = failures s := by
  simp [failures]

@[simp] theorem failures_checkPeripheral (s : State) : failures (checkPeripheral s) = failures s := by
  unfold checkPeripheral
  split <;> simp

@[simp] theorem failures_reportMissed (n : BitVec 31) (o : Bool) (s : State) :
    failures (reportMissed n o s) = failures s := by
  simp only [reportMissed]
  (repeat' split) <;> simp

/-- CHECK_STATUS reports no failed allocation (R221). -/
theorem checkStatus_failures {s t : State} (h : checkStatus s = .next t) : failures t = failures s := by
  simp only [checkStatus, checkMissed] at h
  split at h
  · cases h
  · split at h
    · rw [failures, (pulseReset_spec h).raised, ← failures, failures_reportMissed, failures_checkPeripheral]
    · cases h; exact failures_checkPeripheral s

/-- Handing an event over reports no failed allocation (R239). -/
@[simp] theorem failures_handOver (ev : DecodedEvent) (s : State) : failures (handOver ev s) = failures s := by
  cases ev <;> simp [handOver]

/-! ### One iteration of the burst -/

/-- What reading a snapshot and examining its status leave of the block's own part (R153, R221, R222). -/
structure Examined (s t : State) : Prop where
  block    : t.block = { s.block with
    snap := t.snap, srValid := allValidBits, lastLogValid := t.lastLogValid, lastLogTime := t.lastLogTime }
  bus      : t.bus = s.bus ++ examinedHolds s.params.layout t.snap
  out      : withoutLogs t.out = withoutLogs s.out ++ missedReport s.params.layout t.snap.missedStatus
  failures : failures t = failures s
  params   : t.params = s.params

theorem examined_of_next {s s1 s2 : State} (h1 : readFrame s = .next s1) (h2 : checkStatus s1 = .next s2) :
    Examined s s2 := by
  have hread := readFrame_spec h1
  have hcheck := checkStatus_spec h2
  have hsnap : s2.snap = s1.snap := congrArg BlockState.snap hcheck.block
  obtain ⟨l, hl, hkept⟩ := hcheck.out
  refine ⟨?_, ?_, ?_, ?_, hcheck.params.trans hread.params⟩
  · rw [hcheck.block, hread.block, hsnap]
  · rw [hcheck.bus, hread.bus, hread.params, hsnap, examinedHolds, List.append_assoc]
  · rw [hl, withoutLogs_append, hkept, hread.out, hread.params, hsnap]
  · rw [checkStatus_failures h2, failures, hread.raised, failures]

/-- What a part of a burst did from `s` to `t`: its trace, its count against the budget, and what it left in the holding
registers (R238, R241, R24). -/
structure BurstPart (s t : State) (handed dropped emptied : List Snapshot) : Prop
    extends BurstTrace s t handed dropped emptied where
  params    : t.params = s.params
  base      : t.base = s.base
  remaining : t.budgetRemaining.toNat + (handed.length + dropped.length) = s.budgetRemaining.toNat
  drained   : t.drained = s.drained + BitVec.ofNat 32 (handed.length + dropped.length)
  unused    : emptied ≠ [] → t.budgetRemaining ≠ 0
  snap      : t.snap = (handed ++ dropped ++ emptied).getLast?.getD s.snap
  srValid   : t.srValid = if handed ++ dropped ++ emptied = [] then s.srValid else allValidBits

theorem BurstPart.refl (s : State) : BurstPart s s [] [] [] := by
  constructor
  case toBurstTrace => constructor <;> simp
  all_goals simp

/-- A part that lost nothing and met no empty FIFO is continued by the next. -/
theorem BurstPart.trans {s u t : State} {first handed dropped emptied : List Snapshot} (h : BurstPart s u first [] [])
    (k : BurstPart u t handed dropped emptied) : BurstPart s t (first ++ handed) dropped emptied := by
  have hp := h.params
  have hb := h.base
  constructor
  case toBurstTrace =>
    constructor
    case bus => rw [k.bus, h.bus, hp]; simp
    case out => rw [k.out, h.out, hp, hb]; simp
    case failures => rw [k.failures, h.failures]; simp
    case occupied =>
      intro sr hsr
      rw [List.append_assoc, List.mem_append] at hsr
      rcases hsr with hsr | hsr
      · exact h.occupied sr (by simpa using hsr)
      · rw [← hp]; exact k.occupied sr hsr
    case empty => rw [← hp]; exact k.empty
    case oneEnd => exact k.oneEnd
  case params => exact k.params.trans hp
  case base => exact k.base.trans hb
  case remaining =>
    have hu := h.remaining
    have ht := k.remaining
    simp only [List.length_append, List.length_nil] at hu ⊢
    omega
  case drained =>
    rw [k.drained, h.drained, BitVec.add_assoc, ← BitVec.ofNat_add]
    simp [Nat.add_assoc]
  case unused => exact k.unused
  case snap =>
    rw [k.snap, h.snap]
    simp only [List.append_assoc, List.append_nil]
    rw [List.getLast?_append (l := first)]
    cases (handed ++ (dropped ++ emptied)).getLast? <;> rfl
  case srValid =>
    rw [k.srValid, h.srValid]
    cases first <;> simp

/-- An iteration that meets an empty FIFO: its snapshot is read and examined by nobody (R238, R291). -/
theorem burstPart_emptied {s t : State} (h : readFrame s = .next t)
    (hempty : bufferUsage t.params.layout t.snap.bufferStatus = 0) (hleft : s.budgetRemaining ≠ 0) :
    BurstPart s t [] [] [t.snap] := by
  have hread := readFrame_spec h
  have hrem : t.budgetRemaining = s.budgetRemaining := congrArg BlockState.budgetRemaining hread.block
  have hdrained : t.drained = s.drained := congrArg BlockState.drained hread.block
  have hvalid : t.srValid = allValidBits := congrArg BlockState.srValid hread.block
  constructor
  case toBurstTrace =>
    constructor
    case bus => simp [hread.bus]
    case out => simp [hread.out]
    case failures => simp [hread.raised]
    case occupied => simp
    case empty => simpa [hread.params] using hempty
    case oneEnd => simp
  case params => exact hread.params
  case base => exact congrArg BlockState.base hread.block
  case remaining => simp [hrem]
  case drained => simp [hdrained]
  case unused => intro _; rwa [hrem]
  case snap => rfl
  case srValid => simp [hvalid]

/-- Counting one event uses one unit of a budget that is not used up (R241). -/
theorem countDrained_remaining {s : State} (h : s.budgetRemaining ≠ 0) :
    (countDrained s).budgetRemaining.toNat + 1 = s.budgetRemaining.toNat := by
  rw [countDrained_budgetRemaining]
  bv_omega

section Iteration

variable {s u : State} (h : Examined s u) (hleft : s.budgetRemaining ≠ 0)
  (hocc : bufferUsage u.params.layout u.snap.bufferStatus ≠ 0)
include h hleft hocc

/-- An iteration whose allocation fails: its snapshot is examined, counted and lost (R240, R285). -/
theorem burstPart_dropped : BurstPart s (countDrained (u.afterAlloc.raise .allocationFailure)) [] [u.snap] [] := by
  have hrem : u.budgetRemaining = s.budgetRemaining := congrArg BlockState.budgetRemaining h.block
  have hdrained : u.drained = s.drained := congrArg BlockState.drained h.block
  have hvalid : u.srValid = allValidBits := congrArg BlockState.srValid h.block
  constructor
  case toBurstTrace =>
    constructor
    case bus => simp [h.bus]
    case out => simp [h.out]
    case failures => exact (failures_raise .allocationFailure u).trans (by rw [h.failures]; rfl)
    case occupied => simpa [h.params] using hocc
    case empty => simp
    case oneEnd => simp
  case params => exact h.params
  case base => exact congrArg BlockState.base h.block
  case remaining =>
    rw [← hrem]
    exact countDrained_remaining (s := u.afterAlloc.raise .allocationFailure) (by rwa [← hrem] at hleft)
  case drained => simp [hdrained]
  case unused => simp
  case snap => rfl
  case srValid => simp [hvalid]

/-- An iteration that hands its event over (R239). -/
theorem burstPart_handed {ev : DecodedEvent} (hev : decodeEvent u.afterAlloc = .ok ev) :
    BurstPart s (countDrained (handOver ev u.afterAlloc)) [u.snap] [] [] := by
  have hbase : u.base = s.base := congrArg BlockState.base h.block
  have hrem : u.budgetRemaining = s.budgetRemaining := congrArg BlockState.budgetRemaining h.block
  have hdrained : u.drained = s.drained := congrArg BlockState.drained h.block
  have hvalid : u.srValid = allValidBits := congrArg BlockState.srValid h.block
  have hd := handOver_handed ev u.afterAlloc
  have hdrem : (handOver ev u.afterAlloc).budgetRemaining = u.budgetRemaining :=
    congrArg BlockState.budgetRemaining hd.block
  have hddrained : (handOver ev u.afterAlloc).drained = u.drained := congrArg BlockState.drained hd.block
  have hdvalid : (handOver ev u.afterAlloc).srValid = u.srValid := congrArg BlockState.srValid hd.block
  have hdsnap : (handOver ev u.afterAlloc).snap = u.snap := congrArg BlockState.snap hd.block
  have hdbase : (handOver ev u.afterAlloc).base = u.base := congrArg BlockState.base hd.block
  constructor
  case toBurstTrace =>
    constructor
    case bus => simp [hd.bus, h.bus]
    case out =>
      have hevent : ev = decodedEventOf s.params u.snap s.base := by
        simpa [h.params, hbase] using (decodeEvent_ok hev).1
      simp [hd.kept, h.out, ← hevent]
    case failures => exact (failures_handOver ev u.afterAlloc).trans h.failures
    case occupied => simpa [h.params] using hocc
    case empty => simp
    case oneEnd => simp
  case params => exact hd.params.trans h.params
  case base => exact hdbase.trans hbase
  case remaining =>
    rw [← hrem, ← hdrem]
    exact countDrained_remaining (by rwa [hdrem, hrem])
  case drained => simp [hddrained, hdrained]
  case unused => simp
  case snap => simpa using hdsnap
  case srValid => simp [hdvalid, hvalid]

end Iteration

/-! ### The burst -/

/-- The burst, by induction on the budget: it ends at the budget, at a failed allocation or at an empty FIFO
(R238, R241). -/
theorem drainLoop_burst {n : Nat} {s t : State} (h : drainLoop n s = .next t) (hn : s.budgetRemaining.toNat = n) :
    ∃ handed dropped emptied, BurstPart s t handed dropped emptied ∧
      (t.budgetRemaining ≠ 0 → dropped.length + emptied.length = 1) := by
  induction n generalizing s with
  | zero =>
    cases h
    exact ⟨[], [], [], .refl _, fun hne => absurd (BitVec.eq_of_toNat_eq hn) hne⟩
  | succ n ih =>
    have hleft : s.budgetRemaining ≠ 0 := fun h0 => by simp [h0] at hn
    rw [drainLoop, if_neg hleft] at h
    obtain ⟨s1, hread, ⟨hempty, rfl⟩ | ⟨hocc, s2, hcheck, hrest⟩⟩ := drainIteration_next h
    · exact ⟨[], [], [_], burstPart_emptied hread hempty hleft, fun _ => rfl⟩
    · have hexam := examined_of_next hread hcheck
      have hocc2 : bufferUsage s2.params.layout s2.snap.bufferStatus ≠ 0 := by
        have hsnap : s2.snap = s1.snap := congrArg BlockState.snap (checkStatus_spec hcheck).block
        rwa [(checkStatus_spec hcheck).params, hsnap]
      obtain ⟨-, rfl⟩ | ⟨-, ev, hev, hrest⟩ := hrest
      · exact ⟨[], [_], [], burstPart_dropped hexam hleft hocc2, fun _ => rfl⟩
      · have hfirst := burstPart_handed hexam hleft hocc2 hev
        have hn' := hfirst.remaining
        simp only [List.length_singleton, List.length_nil] at hn'
        obtain ⟨handed, dropped, emptied, hpart, hend⟩ := ih hrest (by omega)
        exact ⟨_ :: handed, dropped, emptied, hfirst.trans hpart, hend⟩

/-- The burst answers nothing and leaves the call registers alone (R242). -/
theorem drainLoop_quiet {n : Nat} {s t : State} (h : drainLoop n s = .next t) :
    t.responses = s.responses ∧ t.callRegs = s.callRegs := by
  have hkeeps : BurstKeeps fun u => u.responses = s.responses ∧ u.callRegs = s.callRegs := {
    read := fun h p => ⟨(readFrame_spec h).responses.trans p.1, (readFrame_spec h).callRegs.trans p.2⟩
    check := fun h p => ⟨(checkStatus_spec h).responses.trans p.1, (checkStatus_spec h).callRegs.trans p.2⟩
    fail := fun p => p
    alloc := fun p => p
    hand := fun {u} ev p =>
      ⟨(handOver_handed ev u).responses.trans p.1, (handOver_handed ev u).callRegs.trans p.2⟩
    count := fun _ p => p }
  exact drainLoop_keeps hkeeps h ⟨rfl, rfl⟩

/-- A burst that runs alone still runs alone at its end, and the clocks are as they were. -/
theorem drainLoop_alone {n : Nat} {s t : State} (h : drainLoop n s = .next t) (halone : s.Undisturbed) :
    t.Undisturbed ∧ t.clock = s.clock := by
  have hkeeps : BurstKeeps fun u => u.Undisturbed ∧ u.clock = s.clock := {
    read := fun h p => by
      cases (readFrame_undisturbed p.1).symm.trans h
      exact ⟨by simp [State.Undisturbed], by simpa using p.2⟩
    check := fun h p => by
      obtain ⟨v, hv, halone, hclock⟩ := checkStatus_undisturbed p.1 (checkStatus_next h).1
      cases hv.symm.trans h
      exact ⟨halone, hclock.trans p.2⟩
    fail := fun p => p
    alloc := fun p => p
    hand := fun {u} ev p =>
      have hd := handOver_handed ev u
      ⟨⟨hd.agenda.trans p.1.1, hd.lock.trans p.1.2⟩, hd.clock.trans p.2⟩
    count := fun _ p => p }
  exact drainLoop_keeps hkeeps h ⟨halone, rfl⟩

/-! ### The end of the procedure -/

/-- The state a DRAIN begins its burst in (R238). -/
def beginDrain (b : Word) (s : State) : State := { s with schedBusy := true, budgetRemaining := b, drained := 0 }

/-- A DRAIN in Draining is its procedure (R231, R238). -/
theorem exec_drain {s : State} (b : Word) (hm : s.mode = .draining) (hb : s.schedBusy = false) :
    exec (.drain b) s = drainProcedure b s := by
  simp [exec, execDrain, hm, hb]

/-- A DRAIN that answers is a burst and its end. -/
theorem exec_drain_next {s t : State} {b : Word} (hm : s.mode = .draining) (hb : s.schedBusy = false)
    (h : exec (.drain b) s = .next t) :
    ∃ u, drainLoop b.toNat (beginDrain b s) = .next u ∧ t = finishDrain b u :=
  drainProcedure_next (exec_drain b hm hb ▸ h)

/-- What the end of a DRAIN writes: mode, timer, the procedure's mark and the response (R238, R242). -/
theorem finishDrain_eq (b : Word) (s : State) :
    finishDrain b s = { s with
      mode := (finishDrain b s).mode, timerArmed := (finishDrain b s).timerArmed,
      timerDeadline := (finishDrain b s).timerDeadline, draws := (finishDrain b s).draws, schedBusy := false,
      responses := s.responses ++ [responseWord 0 s.drained] } := by
  unfold finishDrain
  split <;> rfl

/-- Fewer than the budget: back to Armed, with the timer armed (R242, R235). -/
theorem finishDrain_of_lt {b : Word} {s : State} (h : s.drained.toNat < b.toNat) :
    (finishDrain b s).mode = .armed ∧ (finishDrain b s).timerArmed = true ∧
      (finishDrain b s).timerDeadline = s.monoNow + Config.pollInterval := by
  rw [finishDrain, if_pos (BitVec.lt_def.mpr h)]
  exact ⟨rfl, rfl, rfl⟩

/-- A full budget: mode and timer stay as the burst left them (R242). -/
theorem finishDrain_of_full {b : Word} {s : State} (h : s.drained = b) :
    (finishDrain b s).mode = s.mode ∧ (finishDrain b s).timerArmed = s.timerArmed ∧
      (finishDrain b s).timerDeadline = s.timerDeadline := by
  have hlt : ¬ s.drained < b := by rw [h]; exact BitVec.lt_irrefl b
  rw [finishDrain, if_neg hlt]
  exact ⟨rfl, rfl, rfl⟩

/-- What is drained is what was handed over or lost; a burst begins with nothing drained (R32, R241). -/
theorem BurstPart.drained_toNat {b : Word} {s t : State} {handed dropped emptied : List Snapshot}
    (h : BurstPart (beginDrain b s) t handed dropped emptied) : t.drained.toNat = handed.length + dropped.length := by
  have hrem : t.budgetRemaining.toNat + (handed.length + dropped.length) = b.toNat := h.remaining
  have hlt := b.isLt
  have hd : t.drained = BitVec.ofNat 32 (handed.length + dropped.length) := by simpa [beginDrain] using h.drained
  rw [hd, BitVec.toNat_ofNat, Nat.mod_eq_of_lt (by omega)]

/-- The trace of the whole DRAIN is that of its burst: beginning and end touch neither bus nor output nor reports. -/
theorem BurstPart.drain_trace {b : Word} {s u : State} {handed dropped emptied : List Snapshot}
    (h : BurstPart (beginDrain b s) u handed dropped emptied) :
    BurstTrace s (finishDrain b u) handed dropped emptied := by
  rw [finishDrain_eq]
  exact ⟨h.bus, h.out, h.failures, h.occupied, h.empty, h.oneEnd⟩

/-- A burst with a budget reads at least one snapshot: it stops at once only when the budget is used up (R238, R241). -/
theorem BurstPart.ne_nil {s t : State} {handed dropped emptied : List Snapshot}
    (h : BurstPart s t handed dropped emptied) (hend : t.budgetRemaining ≠ 0 → dropped.length + emptied.length = 1)
    (hs : s.budgetRemaining ≠ 0) : handed ++ dropped ++ emptied ≠ [] := by
  intro hnil
  simp only [List.append_eq_nil_iff] at hnil
  obtain ⟨⟨rfl, rfl⟩, rfl⟩ := hnil
  have hrem : t.budgetRemaining = s.budgetRemaining := BitVec.eq_of_toNat_eq h.remaining
  exact absurd (hend (by rwa [hrem])) (by decide)

/-- A burst that reads a snapshot leaves every valid bit set and the last snapshot in the holding registers
(R153, R24). -/
theorem BurstPart.holding {s t : State} {handed dropped emptied : List Snapshot}
    (h : BurstPart s t handed dropped emptied) (hne : handed ++ dropped ++ emptied ≠ []) :
    t.srValid = allValidBits ∧ (handed ++ dropped ++ emptied).getLast? = some t.snap := by
  refine ⟨by rw [h.srValid, if_neg hne], ?_⟩
  rw [h.snap, List.getLast?_eq_some_getLast hne, Option.getD_some]

/-- The budget is not used up exactly when fewer than the budget were drained (R241). -/
theorem BurstPart.remaining_ne_zero_iff {b : Word} {s t : State} {handed dropped emptied : List Snapshot}
    (h : BurstPart (beginDrain b s) t handed dropped emptied) :
    t.budgetRemaining ≠ 0 ↔ t.drained.toNat < b.toNat := by
  have hrem : t.budgetRemaining.toNat + (handed.length + dropped.length) = b.toNat := h.remaining
  have hcount := h.drained_toNat
  bv_omega

/-- Settles O46: running alone the burst completes (`drainLoop_undisturbed`); whatever the other agents do, what it
leaves is what the induction over the burst says (`drainLoop_burst`) and what the end of the procedure writes
(`finishDrain_eq`). -/
theorem drainResult : Obligations.DrainResult := by
  intro s b hm hbusy
  refine ⟨fun halone hbase => ?_, fun t ht => ?_⟩
  · obtain ⟨u, hu, -, -⟩ := drainLoop_undisturbed b.toNat (s := beginDrain b s) halone hbase
    exact ⟨_, (exec_drain b hm hbusy).trans (andThen_eq_next.mpr ⟨u, hu, rfl⟩)⟩
  · obtain ⟨u, hu, rfl⟩ := exec_drain_next hm hbusy ht
    obtain ⟨handed, dropped, emptied, hpart, hend⟩ := drainLoop_burst hu rfl
    obtain ⟨htiming, hrate, hbase, hbaseValid, hmode, -, harmed, hdeadline⟩ := drainLoop_block hu
    obtain ⟨hresponses, hcall⟩ := drainLoop_quiet hu
    have hfin := finishDrain_eq b u
    have hdrained : (finishDrain b u).drained = u.drained := by rw [hfin]
    have hcount := hpart.drained_toNat
    have hleft := hpart.remaining_ne_zero_iff
    rw [hdrained]
    refine ⟨?_, ?_, ?_, fun hlt => ?_, fun hfull => ?_, ⟨handed, dropped, emptied, hpart.drain_trace, hcount,
      fun hlt => hend (hleft.mpr hlt), fun hne => hleft.mp (hpart.unused hne), fun hb => ?_⟩, ?_⟩
    · rw [hfin, hcount, Nat.add_comm]
      exact hpart.remaining
    · rw [hfin]
      exact congrArg (· ++ [responseWord 0 u.drained]) hresponses
    · rw [hfin]
    · obtain ⟨hmode', harmed', hdeadline'⟩ := finishDrain_of_lt hlt
      refine ⟨hmode', harmed', fun c halone hclock => ?_⟩
      have hpinned : u.clock = some c := (drainLoop_alone hu halone).2.trans hclock
      rw [hdeadline', monoNow_pinned hpinned]
    · obtain ⟨hmode', harmed', hdeadline'⟩ := finishDrain_of_full hfull
      exact ⟨hmode'.trans (hmode.trans hm), harmed'.trans harmed, hdeadline'.trans hdeadline⟩
    · rw [hfin]
      exact hpart.holding (hpart.ne_nil hend hb)
    · rw [hfin]
      exact ⟨hbase, hbaseValid, htiming, hrate, hcall⟩

end Sys2Proof.Machine
end

section
/-!
PROOFS. The lock of the register block: what an Acquire leaves alone, and how it waits (20_memory.md R70 to R72).
-/

namespace Sys2Proof.Machine

/-- Settles O9: the facts are those of `Acquired`, which every Acquire that succeeds meets. -/
theorem acquireTakesTheLock : Obligations.AcquireTakesTheLock := by
  intro s t h
  obtain ⟨hblock, hbus, hout, hresponses, hraised, hcall, hlock, -⟩ := acquire_acquired h
  exact ⟨hlock, hblock, hbus, hout, hresponses, hraised, hcall⟩

/-- Only its holder's own release ends another agent's hold (R70). -/
theorem envStep_keeps_hold {e : EnvStep} {n : Nat} {s : State} (hl : s.lock = .held (.other n)) (he : e ≠ .free n) :
    (envStep e s).lock = .held (.other n) := by
  cases e with
  | take m => rw [envStep, if_neg (by rw [hl]; nofun), hl]
  | free m =>
    have hm : n ≠ m := fun h => he (by rw [h])
    rw [envStep, if_neg (by simpa [hl] using hm), hl]
  | foreignRead m r => simp only [envStep]; split <;> exact hl
  | foreignWrite m r v => simp only [envStep]; (repeat' split) <;> exact hl
  | _ => exact hl

/-- While another agent holds the lock and none of these turns is its release, the Acquire lets them pass: the moves of
the environment happen, the hold stays (R70, R72). -/
theorem acquireFrom_waits {before : List Turn} {n : Nat} {s : State} (later : List Turn)
    (hl : s.lock = .held (.other n)) (hb : .env (.free n) ∉ before) :
    acquireFrom (before ++ later) s = acquireFrom later (afterTurns before s) ∧
      (afterTurns before s).lock = .held (.other n) := by
  induction before generalizing s with
  | nil => exact ⟨rfl, hl⟩
  | cons x rest ih =>
    obtain ⟨hx, hrest⟩ := List.ne_and_not_mem_of_not_mem_cons hb
    cases x with
    | env e => exact ih (envStep_keeps_hold hl fun h => hx (by rw [h])) hrest
    | timer => exact ih hl hrest
    | block =>
      have hheld : s.lock ≠ .free := by rw [hl]; nofun
      rw [List.cons_append, acquireFrom, if_neg hheld]
      exact ih hl hrest

/-- The holder's release frees the lock, and an Acquire that meets it goes on from there (R70). -/
theorem acquireFrom_free {n : Nat} {s : State} (later : List Turn) (hl : s.lock = .held (.other n)) :
    acquireFrom (.env (.free n) :: later) s = acquire { s with lock := .free, agenda := later } := by
  rw [acquireFrom, envStep, if_pos hl]
  exact (acquireFrom_agenda later later { s with lock := .free }).symm

/-- With the lock held and no move left the block is stuck (U27; log 12). -/
theorem acquireFrom_nil_of_held {s : State} (hl : s.lock ≠ .free) : acquireFrom [] s = .fault .lockStarved :=
  if_neg hl

/-- Settles O10: the first six clauses are the branches of `acquireFrom`, the next two follow from what passes while the
lock is held (`acquireFrom_waits`), the last is the environment's access outside its hold. -/
theorem theLockSerialisesAccess : Obligations.TheLockSerialisesAccess := by
  intro s n
  refine ⟨fun hl ha => ?_, fun rest hl ha => ?_, fun e rest ha => ?_, fun rest ha => ?_, fun rest hl ha => ?_,
    fun hl ha => ?_, fun before later hl ha hb => ?_, fun hl hn => ?_, fun hl r q v => ⟨if_neg hl, if_neg hl⟩⟩
  · rw [acquire_undisturbed ⟨ha, hl⟩, takeLock, ← ha]
  · rw [acquire, ha, acquireFrom, if_pos hl, takeLock]
  · rw [acquire, ha]
    exact (acquireFrom_agenda rest rest (envStep e s)).symm
  · rw [acquire, ha]
    exact (acquireFrom_agenda rest rest s).symm
  · rw [acquire, ha, acquireFrom, if_neg hl]
    exact (acquireFrom_agenda rest rest s).symm
  · rw [acquire, ha, acquireFrom_nil_of_held hl]
  · obtain ⟨hwait, hheld⟩ := acquireFrom_waits (.env (.free n) :: later) hl hb
    rw [acquire, ha, hwait, acquireFrom_free later hheld]
  · obtain ⟨hwait, hheld⟩ := acquireFrom_waits [] hl hn
    rw [acquire, ← List.append_nil s.agenda, hwait, acquireFrom_nil_of_held (by rw [hheld]; nofun)]

end Sys2Proof.Machine
end

section
/-!
PROOFS. The reference peripheral: what READ_FRAME shows and discards (20_memory.md R78 to R81), what an arriving frame
does (R77), and the bound on the FIFO (R76).
-/

namespace Sys2Proof.Machine

/-! ### READ_FRAME -/

/-- Where the peripheral answers a read, that answer is the value read (R75). -/
theorem readValue_of_answer {r : ReadReg} {s : State} {v : Word} (h : s.periph.answer s.params.layout r = some v) :
    s.readValue r = v := by
  rw [State.readValue, h]

/-- The status reads latch the live words of the reference peripheral (R80). -/
theorem statusReads_snap_reference {s : State} (hs : s.periph.source = .reference) :
    (statusReads s).snap = { s.snap with
      bufferStatus := bufferStatusWord s.params.layout s.periph.fifo.length
      errorStatus := s.periph.errst
      missedStatus := missedStatusWord s.params.layout s.periph.missed s.periph.missedOvf } := by
  simp [statusReads, Snapshot.put, readValue_of_answer, afterRead_of_ne, Peripheral.answer, hs]

/-- The per-entry reads latch the head entry of the reference peripheral, in the words a snapshot shows of it (R81). -/
theorem entryReads_snap_reference {s : State} {e : Entry} {rest : List Entry} (hs : s.periph.source = .reference)
    (hf : s.periph.fifo = e :: rest) {lay : Layout} {n : Nat} (hb : s.snap.bufferStatus = bufferStatusWord lay n) :
    (entryReads s).snap = entrySnapshot lay n s.snap.errorStatus s.snap.missedStatus e := by
  simp [entryReads, Snapshot.put, readValue_of_answer, afterRead_of_ne, Peripheral.answer, hs, hf, hb, entrySnapshot]

/-- A READ_FRAME that gets the lock latches the eleven words in the state the Acquire leaves, and discards the head
entry (R153, R78). -/
theorem exec_readFrame_of_acquire {s s1 : State} (h : acquire s = .next s1) : ∃ t, exec .readFrame s = .next t ∧
    t.snap = (entryReads (statusReads s1)).snap ∧ t.periph = s1.periph.afterRead .dataHigh :=
  ⟨_, readFrame_next.mpr ⟨s1, h, rfl⟩, rfl, (entryReads_periph _).trans (by rw [statusReads_periph])⟩

/-- A read of data-high leaves the reference peripheral the FIFO without its head (R78, R81). -/
theorem afterRead_dataHigh {p : Peripheral} (hs : p.source = .reference) :
    p.afterRead .dataHigh = { p with fifo := p.fifo.tail } := by
  simp [Peripheral.afterRead, hs]

/-- Settles O15: the status reads latch the live words, the per-entry reads the head entry, and the read of data-high
discards it. -/
theorem readFrameTakesTheHeadEntry : Obligations.ReadFrameTakesTheHeadEntry := by
  intro s s1 h hs
  obtain ⟨t, ht, hsnap, hperiph⟩ := exec_readFrame_of_acquire h
  have hparams := (acquire_acquired h).params
  have hstatus := statusReads_snap_reference hs
  rw [afterRead_dataHigh hs] at hperiph
  refine ⟨fun e rest hf => ⟨t, ht, ?_, by rw [hperiph, hf]; rfl⟩, fun hf => ⟨t, ht, ?_, ?_⟩⟩
  · have hu : (statusReads s1).periph = s1.periph := statusReads_periph s1
    have hb : (statusReads s1).snap.bufferStatus = bufferStatusWord s.params.layout (rest.length + 1) := by
      rw [hstatus, hf, hparams, List.length_cons]
    rw [hsnap, entryReads_snap_reference (by rwa [hu]) (by rwa [hu]) hb, hstatus, hparams]
  · rw [hsnap, (entryReads_status _).1, hstatus, hf, hparams]
    exact bufferUsage_bufferStatusWord _ _
  · rw [hperiph, hf, List.tail_nil, ← hf]

/-! ### Arriving frames -/

/-- Settles O18: the three branches of `arrive`, with the count's maximum as a number. -/
theorem arrivalQueuesOrCounts : Obligations.ArrivalQueuesOrCounts := by
  intro p e
  refine ⟨fun hroom => if_pos hroom, fun hfull hmax => ?_, fun hfull hlt => ⟨?_, ?_⟩⟩
  · have hm : p.missed = 0x7FFFFFFF := BitVec.eq_of_toNat_eq hmax
    rw [Peripheral.arrive, if_neg (Nat.not_lt.mpr hfull), if_pos hm]
  · have hm : p.missed ≠ 0x7FFFFFFF := fun h => by simp [h] at hlt
    rw [Peripheral.arrive, if_neg (Nat.not_lt.mpr hfull), if_neg hm]
  · rw [BitVec.toNat_add_of_lt (by simpa using Nat.add_lt_of_lt_sub hlt)]
    rfl

/-! ### The bound on the FIFO -/

/-- A peripheral of the same depth whose FIFO is no longer is bounded too. -/
theorem Peripheral.Bounded.of_length_le {p q : Peripheral} (hp : p.Bounded) (hd : q.depth = p.depth)
    (hf : q.fifo.length ≤ p.fifo.length) : q.Bounded := by
  obtain ⟨hpos, hle⟩ := hp
  exact ⟨by rwa [hd], by rw [hd]; exact hf.trans hle⟩

/-- A read takes at most the head entry (R78). -/
theorem Peripheral.Bounded.afterRead {p : Peripheral} (hp : p.Bounded) (r : ReadReg) : (p.afterRead r).Bounded := by
  unfold Peripheral.afterRead
  split
  · exact hp.of_length_le rfl (by simp)
  · exact hp

/-- A reset pulse empties the FIFO or leaves it (R82). -/
theorem Peripheral.Bounded.pulse {p : Peripheral} (hp : p.Bounded) (micros : Time) : (p.pulse micros).Bounded := by
  unfold Peripheral.pulse
  split
  · exact hp
  · exact hp.of_length_le rfl (Nat.zero_le _)

/-- A write touches the FIFO by a completed reset pulse alone (R82, R83). -/
theorem Peripheral.Bounded.write {p : Peripheral} (hp : p.Bounded) (lay : Layout) (r : WriteReg) (v : Word)
    (micros : Time) : (p.write lay r v micros).Bounded := by
  cases r with
  | resetStrobe =>
    simp only [Peripheral.write]
    split
    · exact hp
    · split
      · exact hp.pulse micros
      · exact hp
  | _ => exact hp

/-- A frame is queued only while there is room (R77). -/
theorem Peripheral.Bounded.arrive {p : Peripheral} (hp : p.Bounded) (e : Entry) : (p.arrive e).Bounded := by
  unfold Peripheral.arrive
  split
  · next hroom =>
    obtain ⟨hpos, -⟩ := hp
    exact ⟨hpos, by simpa using hroom⟩
  · split <;> exact hp

/-- A move of the environment keeps the FIFO bounded: only an arriving frame makes it longer (R77). -/
theorem envStep_bounded (e : EnvStep) {s : State} (hs : s.periph.Bounded) : (envStep e s).periph.Bounded := by
  cases e with
  | arrive x => exact hs.arrive x
  | take n | free n => simp only [envStep]; split <;> exact hs
  | foreignRead n r =>
    simp only [envStep]
    split
    · exact hs.afterRead r
    · exact hs
  | foreignWrite n r v =>
    simp only [envStep]
    split
    · split
      · exact hs
      · exact hs.write _ r v _
    · exact hs
  | _ => exact hs

/-- So do finitely many moves. -/
theorem EnvMoves.bounded {s t : State} (h : EnvMoves s t) (hs : s.periph.Bounded) : t.periph.Bounded := by
  induction h with
  | refl s => exact hs
  | step e _ ih => exact ih (envStep_bounded e hs)

/-- While the block waits for the lock the FIFO stays bounded (R72). -/
theorem acquire_bounded {s t : State} (h : acquire s = .next t) (hs : s.periph.Bounded) : t.periph.Bounded := by
  obtain ⟨rest, u, hmoves, -, rfl⟩ := acquire_next h
  exact hmoves.bounded hs

/-- The operations of the Register Model keep the bound: waiting for the lock does, and of their accesses only a read of
data-high and a reset pulse reach the FIFO (R157). -/
theorem accessesKeep_bounded : AccessesKeep fun u => u.periph.Bounded where
  readFrame h hs := by
    obtain ⟨s1, h1, rfl⟩ := readFrame_next.mp h
    rw [release_periph, entryReads_periph, statusReads_periph]
    exact (acquire_bounded h1 hs).afterRead _
  readStatus h hs := by
    obtain ⟨s1, h1, rfl⟩ := readStatus_next.mp h
    rw [release_periph, statusReads_periph]
    exact acquire_bounded h1 hs
  writeTiming h hs := by
    obtain ⟨s1, h1, rfl⟩ := withLock_next.mp h
    rw [release_periph, timingWrites_periph]
    exact acquire_bounded h1 hs
  pulseReset h hs := by
    obtain ⟨s1, h1, rfl⟩ := withLock_next.mp h
    rw [release_periph, pulseWrites_periph]
    exact (acquire_bounded h1 hs).pulse _
  sameBus h hs := by rwa [h.periph]

/-- Settles O59: a step is an operation, a move of the environment, or an input taken (`step_cases`), and each of the
three keeps the FIFO bounded. -/
theorem stepKeepsTheFifoBounded : Obligations.StepKeepsTheFifoBounded := by
  intro s t hs hstep
  obtain ⟨i, u, hexec, hsame, -⟩ | ⟨e, rest, rfl⟩ | hsame := step_cases hstep
  · exact accessesKeep_bounded.exec hexec (by rwa [hsame.periph])
  · exact envStep_bounded e hs
  · rwa [hsame.periph]

end Sys2Proof.Machine
end

section
/-!
PROOFS. The request words and the operations they stand for (30_encoding.md R130, R131, R134, R140): what the decoder
answers, each answer characterised by the two fields of the word.
-/

namespace Sys2Proof

/-! ### The two fields of an operation's word -/

@[simp] theorem wordOp_encode (i : Instr) : wordOp (encode i) = opTag i := wordOp_makeWord _ _

@[simp] theorem wordArg_encode (i : Instr) : wordArg (encode i) = opArg i := wordArg_makeWord _ _

/-- An operation carries its own operand. -/
theorem withArg_opArg (i : Instr) : withArg i (opArg i) = i := by cases i <;> rfl

theorem isFormatN_iff {op : Byte} : isFormatN op = true ↔ op = 0x50 ∨ op = 0x51 ∨ op = 0x53 := by
  simp only [isFormatN, Bool.or_eq_true, beq_iff_eq, tagStart, tagTimerFire, tagStop, or_assoc]

theorem exists_opTag_of_isFormatN {op : Byte} (h : isFormatN op = true) : ∃ i, opTag i = op := by
  obtain rfl | rfl | rfl := isFormatN_iff.mp h
  · exact ⟨.start 0, rfl⟩
  · exact ⟨.timerFire 0, rfl⟩
  · exact ⟨.stop 0, rfl⟩

/-- Only a format N operation can be ill-formed, by a nonzero operand (R131). -/
theorem wellFormed_iff {i : Instr} : WellFormed i ↔ (isFormatN (opTag i) = true → opArg i = 0) := by
  cases i with
  | start _ | timerFire _ | stop _ => exact beq_iff_eq.trans ⟨fun h _ => h, fun h => h rfl⟩
  | _ => exact ⟨fun _ hN => absurd hN Bool.false_ne_true, fun _ => rfl⟩

/-! ### The three answers of the decoder -/

/-- Every tag of the table is recognised, and with it an operand the format allows (R130, R131). -/
theorem decode_makeWord_opTag {i : Instr} {arg : Word} (h : isFormatN (opTag i) = true → arg = 0) :
    decode (makeWord (opTag i) arg) = .ok (withArg i arg) := by
  rw [decode, wordOp_makeWord, wordArg_makeWord]
  cases i with
  | start _ | timerFire _ | stop _ => rw [h rfl]; rfl
  | _ => rfl

/-- The words an operation is decoded from: they have its tag and carry its operand, 0 in format N. -/
theorem decode_eq_ok_iff {w : PortWord} {i : Instr} :
    decode w = .ok i ↔
      opTag i = wordOp w ∧ withArg i (wordArg w) = i ∧ (isFormatN (wordOp w) = true → wordArg w = 0) := by
  constructor
  · intro h
    obtain ⟨j, hj, hfields⟩ | ⟨he, -⟩ | ⟨he, -⟩ := decode_cases w
    · obtain rfl : j = i := Except.ok.inj (hj.symm.trans h)
      exact hfields
    · exact nomatch he.symm.trans h
    · exact nomatch he.symm.trans h
  · rintro ⟨htag, harg, hN⟩
    rw [← htag] at hN
    calc
      decode w = decode (makeWord (opTag i) (wordArg w)) := by rw [htag, makeWord_fields]
      _ = .ok (withArg i (wordArg w)) := decode_makeWord_opTag hN
      _ = .ok i := by rw [harg]

/-- The words refused for their operand (R140). -/
theorem decode_eq_nonzeroArg_iff {w : PortWord} :
    decode w = .error .nonzeroArg ↔ isFormatN (wordOp w) = true ∧ wordArg w ≠ 0 := by
  obtain ⟨i, hd, -, -, h0⟩ | ⟨hd, hN, harg⟩ | ⟨hd, hno⟩ := decode_cases w <;> rw [hd]
  · exact iff_of_false nofun fun ⟨hN, harg⟩ => harg (h0 hN)
  · exact iff_of_true rfl ⟨hN, harg⟩
  · exact iff_of_false nofun fun ⟨hN, _⟩ => let ⟨i, hi⟩ := exists_opTag_of_isFormatN hN; hno i hi

/-- The words refused for their tag (R140). -/
theorem decode_eq_unassignedTag_iff {w : PortWord} :
    decode w = .error .unassignedTag ↔ ∀ i : Instr, opTag i ≠ wordOp w := by
  obtain ⟨i, hd, htag, -, -⟩ | ⟨hd, hN, -⟩ | ⟨hd, hno⟩ := decode_cases w <;> rw [hd]
  · exact iff_of_false nofun fun hno => hno i htag
  · exact iff_of_false nofun fun hno => let ⟨i, hi⟩ := exists_opTag_of_isFormatN hN; hno i hi
  · exact iff_of_true rfl hno

/-! ### An operation's own word, and the words of none -/

/-- Settles O1: the operation's word has its tag and carries its operand, which is what `decode_eq_ok_iff` asks for. -/
theorem decodeOfEncodeIsTheOperation : Obligations.DecodeOfEncodeIsTheOperation := by
  intro i hwf
  rw [decode_eq_ok_iff, wordOp_encode, wordArg_encode]
  exact ⟨rfl, withArg_opArg i, wellFormed_iff.mp hwf⟩

/-- Settles O3: the two refusals as the lemmas above give them, the format N tags written out. -/
theorem wordsThatAreNoOperation : Obligations.WordsThatAreNoOperation :=
  fun _ => ⟨decode_eq_unassignedTag_iff, by rw [decode_eq_nonzeroArg_iff, isFormatN_iff]⟩

/-! ### The bits of a decoded word -/

/-- In format N a decoded operation keeps the word's operand (R131). -/
theorem opArg_withArg_of_formatN {i : Instr} (h : isFormatN (opTag i) = true) (arg : Word) :
    opArg (withArg i arg) = arg := by
  cases i with
  | start _ | timerFire _ | stop _ => rfl
  | _ => exact absurd h Bool.false_ne_true

/-- An operation that is not of format N is told apart by its tag alone (R134). -/
theorem rowMask_of_not_formatN {i : Instr} (h : ¬ isFormatN (opTag i) = true) : rowMask i = 0xFF00000000 := by
  cases i with
  | start _ | timerFire _ | stop _ => exact absurd rfl h
  | _ => rfl

/-- The mask of the tag hides the operand (R134). -/
theorem makeWord_and_tagMask (op : Byte) (arg : Word) : makeWord op arg &&& 0xFF00000000 = makeWord op 0 := by
  have hmask : (0xFF00000000 : PortWord) = makeWord (BitVec.allOnes 8) 0 := by decide
  rw [hmask, makeWord, makeWord, makeWord, BitVec.and_append, BitVec.and_allOnes]
  simp

/-- A decoded operation has the word's operand for its own in format N. -/
theorem opArg_of_decode {w : PortWord} {i : Instr} (h : decode w = .ok i) (hN : isFormatN (opTag i) = true) :
    opArg i = wordArg w := by
  obtain ⟨-, harg, -⟩ := decode_eq_ok_iff.mp h
  rw [← harg, opArg_withArg_of_formatN hN]

/-- A word that decodes stands for a well-formed operation (R131, R140). -/
theorem wellFormed_of_decode {w : PortWord} {i : Instr} (h : decode w = .ok i) : WellFormed i := by
  obtain ⟨htag, -, hzero⟩ := decode_eq_ok_iff.mp h
  exact wellFormed_iff.mpr fun hN => by rw [opArg_of_decode h hN, hzero (htag ▸ hN)]

/-- A decoded operation's word and the word it was decoded from differ at most in an operand that no row looks at. -/
theorem encode_and_rowMask_of_decode {w : PortWord} {i : Instr} (h : decode w = .ok i) :
    encode i &&& rowMask i = w &&& rowMask i := by
  obtain ⟨htag, -, -⟩ := decode_eq_ok_iff.mp h
  by_cases hN : isFormatN (opTag i) = true
  · have hword : encode i = w := by rw [encode, opArg_of_decode h hN, htag, makeWord_fields]
    rw [hword]
  · rw [rowMask_of_not_formatN hN, encode, makeWord_and_tagMask, htag, ← makeWord_and_tagMask _ (wordArg w),
      makeWord_fields]

/-- Settles O2: well-formedness and the mask are the two lemmas above; the tag and the operand are those of
`decode_eq_ok_iff`. -/
theorem decodedWordKeepsItsBits : Obligations.DecodedWordKeepsItsBits := by
  intro w i h
  obtain ⟨htag, harg, -⟩ := decode_eq_ok_iff.mp h
  refine ⟨wellFormed_of_decode h, encode_and_rowMask_of_decode h, htag, ?_⟩
  rintro b (rfl | rfl | rfl)
  · exact (Instr.resolve.inj harg).symm
  · exact (Instr.setBitRate.inj harg).symm
  · exact (Instr.drain.inj harg).symm

/-! ### The vectors -/

/-- Settles O4: the fourteen words are literals, which the decoder reads by computation. -/
theorem requestWordsOfTheVectors : Obligations.RequestWordsOfTheVectors := by
  unfold Obligations.RequestWordsOfTheVectors
  decide

end Sys2Proof
end

section
/-!
PROOFS. A step that serves a waiting word: which words run and which are refused with a mark (30_encoding.md R131,
R134, R140; 47_external_interface.md R261).
-/

namespace Sys2Proof.Machine

/-! ### Serving one word -/

/-- A word that may come this way runs as the operation it stands for. -/
theorem serve_ok {c : Call} {i : Instr} {s : State} (hd : decode c.word = .ok i) (hv : issuer i = c.via) :
    serve c s = .run i s := by
  simp only [serve, hd, if_pos hv]

/-- An operation that may not come this way is refused (R140). -/
theorem serve_notIssuable {c : Call} {i : Instr} {s : State} (hd : decode c.word = .ok i) (hv : issuer i ≠ c.via) :
    serve c s = .settled (s.reject .notIssuable) := by
  simp only [serve, hd, if_neg hv]

/-- A word that is no operation is refused (R140). -/
theorem serve_error {c : Call} {e : DecodeError} {s : State} (hd : decode c.word = .error e) :
    serve c s = .settled (s.reject (rejectionOf e)) := by
  simp only [serve, hd]

/-! ### The step that serves it -/

/-- At the block's turn the first waiting word is served, on the state without it (R261). -/
theorem blockTurn_waiting {s : State} {c : Call} {rest : List Call} (hi : s.inbox = c :: rest) :
    blockTurn s = serve c { s with inbox := rest } := by
  simp only [blockTurn, hi]

/-- With no turn set, a step serves the first waiting word (log 11). -/
theorem step_waiting {s : State} {c : Call} {rest : List Call} (ha : s.agenda = []) (hi : s.inbox = c :: rest) :
    step s = carryOut (serve c { s with inbox := rest }) := by
  have hf : fetch s = blockTurn s := by rw [fetch, ha]
  rw [step_eq, hf, blockTurn_waiting hi]

/-- So does a step at the block's own turn. -/
theorem step_block_waiting {s : State} {turns : List Turn} {c : Call} {rest : List Call}
    (ha : s.agenda = .block :: turns) (hi : s.inbox = c :: rest) :
    step s = carryOut (serve c { s with agenda := turns, inbox := rest }) := by
  have hf : fetch s = blockTurn { s with agenda := turns } := by rw [fetch, ha]
  rw [step_eq, hf, blockTurn_waiting (s := { s with agenda := turns }) hi]

/-- A word placed by hand runs in the next step, on the state it was placed in (log 15). -/
theorem step_placeWord {w : PortWord} {i : Instr} {s : State} (hd : decode w = .ok i) :
    step (placeWord w s) = exec i s := by
  have hvia : issuer i = viaOfWord w := by simp only [viaOfWord, hd]
  have hstep : step (placeWord w s) = carryOut (serve ⟨viaOfWord w, w⟩ s) :=
    step_block_waiting (s := placeWord w s) rfl rfl
  rw [hstep, serve_ok (c := ⟨viaOfWord w, w⟩) hd hvia, carryOut]

/-- Settles O6: a word that decodes and may come this way is served by running its operation, in each of the three
ways it can be the next one. -/
theorem stepRunsTheWaitingOperation : Obligations.StepRunsTheWaitingOperation := by
  refine ⟨fun s c rest i ha hi hd hv => ⟨wellFormed_of_decode hd, ?_⟩, fun s turns c rest i ha hi hd hv => ?_,
    fun s nbits w i hd => step_placeWord hd⟩
  · rw [step_waiting ha hi, serve_ok hd hv, carryOut]
  · rw [step_block_waiting ha hi, serve_ok hd hv, carryOut]

/-! ### The request port -/

/-- The operations that are issued through the port, by their tags (R130, R134). -/
theorem issuer_eq_port_iff {i : Instr} :
    issuer i = .port ↔ opTag i = 0x31 ∨ opTag i = 0x52 ∨ opTag i = 0x50 ∨ opTag i = 0x53 := by
  cases i with
  | setBitRate _ => exact iff_of_true rfl (.inl rfl)
  | drain _ => exact iff_of_true rfl (.inr (.inl rfl))
  | start _ => exact iff_of_true rfl (.inr (.inr (.inl rfl)))
  | stop _ => exact iff_of_true rfl (.inr (.inr (.inr rfl)))
  | _ => exact iff_of_false nofun (of_decide_eq_true rfl)

/-- The words the port serves: a request's tag, with an operand its format allows (R134, R140). -/
theorem exists_decode_port_iff {w : PortWord} :
    (∃ i, decode w = .ok i ∧ issuer i = .port) ↔
      wordOp w = 0x31 ∨ wordOp w = 0x52 ∨ ((wordOp w = 0x50 ∨ wordOp w = 0x53) ∧ wordArg w = 0) := by
  simp only [decode_eq_ok_iff]
  constructor
  · rintro ⟨i, ⟨htag, -, hzero⟩, hport⟩
    rw [issuer_eq_port_iff, htag] at hport
    rw [isFormatN_iff] at hzero
    obtain h | h | h | h := hport
    · exact .inl h
    · exact .inr (.inl h)
    · exact .inr (.inr ⟨.inl h, hzero (.inl h)⟩)
    · exact .inr (.inr ⟨.inr h, hzero (.inr (.inr h))⟩)
  · rintro (h | h | ⟨h | h, harg⟩)
    · exact ⟨.setBitRate (wordArg w), ⟨h.symm, rfl, fun hN => absurd (h ▸ hN) (by decide)⟩, rfl⟩
    · exact ⟨.drain (wordArg w), ⟨h.symm, rfl, fun hN => absurd (h ▸ hN) (by decide)⟩, rfl⟩
    · exact ⟨.start (wordArg w), ⟨h.symm, rfl, fun _ => harg⟩, rfl⟩
    · exact ⟨.stop (wordArg w), ⟨h.symm, rfl, fun _ => harg⟩, rfl⟩

/-- Settles O5: the words the port serves are those of `exists_decode_port_iff`; any other one is no operation, or one
that is not issued through the port, and is refused either way. -/
theorem requestPortAdmission : Obligations.RequestPortAdmission := by
  intro s w rest ha hi
  rw [step_waiting ha hi]
  split
  · next hserved =>
    obtain ⟨i, hd, hport⟩ := exists_decode_port_iff.mpr hserved
    exact ⟨i, hd, by rw [serve_ok (c := ⟨.port, w⟩) hd hport, carryOut]⟩
  · next hrefused =>
    cases hd : decode w with
    | error e => exact ⟨rejectionOf e, by rw [serve_error (c := ⟨.port, w⟩) hd, carryOut, State.reject]⟩
    | ok i =>
      have hport : issuer i ≠ .port := fun hport => hrefused (exists_decode_port_iff.mp ⟨i, hd, hport⟩)
      exact ⟨.notIssuable, by rw [serve_notIssuable (c := ⟨.port, w⟩) hd hport, carryOut, State.reject]⟩

end Sys2Proof.Machine
end

section
/-!
PROOFS. The Register Model: what each of its four operations answers, latches and leaves alone, and that the bus trace
consists of their holds (41_register_model.md R150 to R157).
-/

namespace Sys2Proof.Machine

/-! ### The bus discipline -/

/-- The bus trace consists of whole holds of the four shapes, under the layout the state has (R157). -/
def BusOfHolds (s : State) : Prop := WholeHolds s.params.layout s.bus

/-- One hold more in the trace keeps the discipline. -/
theorem BusOfHolds.snoc {s t : State} {hold : List BusEvent} (hs : BusOfHolds s) (hh : IsHold s.params.layout hold)
    (hbus : t.bus = s.bus ++ hold) (hparams : t.params = s.params) : BusOfHolds t := by
  rw [BusOfHolds, hbus, hparams]
  exact .snoc hs hh

/-- It depends on trace and parameters alone. -/
theorem BusOfHolds.of_eq {s t : State} (hs : BusOfHolds s) (hbus : t.bus = s.bus) (hparams : t.params = s.params) :
    BusOfHolds t := by
  rwa [BusOfHolds, hbus, hparams]

/-- Each operation of the Register Model adds one hold of its own shape (R151, R153, R155, R156). -/
theorem accessesKeep_busOfHolds : AccessesKeep BusOfHolds where
  readFrame h hs :=
    have r := readFrame_spec h
    hs.snoc (.frame _) r.bus r.params
  readStatus h hs :=
    have r := readStatus_spec h
    hs.snoc (.status _) r.bus r.params
  writeTiming h hs :=
    have r := writeTiming_spec h
    hs.snoc (.timing _) r.bus r.params
  pulseReset h hs :=
    have r := pulseReset_spec h
    hs.snoc .pulse r.bus r.params
  sameBus h hs := hs.of_eq h.bus h.params

/-- A move of the environment adds nothing to the block's bus trace (R18). -/
theorem envStep_busOfHolds (e : EnvStep) {s : State} (hs : BusOfHolds s) : BusOfHolds (envStep e s) := by
  obtain ⟨-, hobserved, -, hparams⟩ := envStep_sameBlock e s
  exact hs.of_eq (congrArg Observed.bus hobserved) hparams

/-- Settles O58: a step is an operation, which adds whole holds through the Register Model alone, a move of the
environment, or an input taken (`step_cases`). -/
theorem stepKeepsTheBusDiscipline : Obligations.StepKeepsTheBusDiscipline := by
  intro s t hs hstep
  obtain ⟨i, u, hexec, hsame, -⟩ | ⟨e, rest, rfl⟩ | hsame := step_cases hstep
  · have hu : BusOfHolds u := BusOfHolds.of_eq hs hsame.bus hsame.params
    exact accessesKeep_busOfHolds.exec hexec hu
  · exact envStep_busOfHolds e (s := { s with agenda := rest }) hs
  · exact BusOfHolds.of_eq hs hsame.bus hsame.params

/-! ### Words under the default layout -/

/-- A field at bit 0 stands in its word as it is, zero-extended (R102). -/
theorem fieldWord_at_zero {width : Nat} (v : BitVec width) : fieldWord 0 v = v.setWidth 32 := by
  rw [fieldWord, BitVec.shiftLeft_zero]

/-- The missed-status word under the default layout: the overflow bit above the count (R105). -/
theorem missedStatusWord_default (n : BitVec 31) (o : Bool) :
    missedStatusWord Layout.default n o = BitVec.ofBool o ++ n := by
  apply BitVec.eq_of_getLsbD_eq
  intro i hi
  rw [missedStatusWord, BitVec.getLsbD_or, getLsbD_fieldWord _ _ _ hi, getLsbD_fieldWord _ _ _ hi,
    BitVec.getLsbD_append]
  by_cases hlow : i < 31
  · simp [Layout.default, hlow]
  · have htop : i = 31 := by omega
    subst htop
    simp [Layout.default]

/-- The buffer-status word under the default layout is the occupancy itself (R103). -/
theorem bufferStatusWord_default {n : Nat} (h : n < 65536) :
    bufferStatusWord Layout.default n = BitVec.ofNat 32 n := by
  have hfield : bufferStatusWord Layout.default n = (BitVec.ofNat 16 n).setWidth 32 := fieldWord_at_zero _
  rw [hfield, BitVec.setWidth_ofNat_of_le_of_lt (by decide) h]

/-- The trace of a WRITE_TIMING under the default layout: the zero-extended values (R114). -/
theorem timingHold_default (tp : Timing) : timingHold Layout.default tp = [.acquire,
    .write .syncSeg (tp.syncSeg.setWidth 32), .write .propSeg (tp.propSeg.setWidth 32),
    .write .phaseSeg1 (tp.phaseSeg1.setWidth 32), .write .phaseSeg2 (tp.phaseSeg2.setWidth 32),
    .write .prescaler (tp.brp.setWidth 32), .release] := by
  simp [timingHold, Layout.default, fieldWord_at_zero]

/-! ### Scripted answers -/

section Scripted

variable {s : State} (hs : s.periph.source = .arbitrary)
include hs

/-- Under unconstrained reads a read returns the next scripted answer (R75; log 2). -/
theorem readValue_scripted (r : ReadReg) : s.readValue r = s.reads.headD (Config.freeWord s.draws) := by
  simp [State.readValue, Peripheral.answer, hs]

/-- It uses that answer up. -/
theorem readsLeft_scripted (r : ReadReg) : s.readsLeft r = s.reads.tail := by
  simp [State.readsLeft, Peripheral.answer, hs]

/-- Reads have no effect on a peripheral whose answers are unconstrained. -/
theorem afterRead_scripted (r : ReadReg) : s.periph.afterRead r = s.periph := by
  simp [Peripheral.afterRead, hs]

/-- The status reads latch the next three scripted answers. -/
theorem statusReads_scripted {b e m : Word} {rest : List Word} (hr : s.reads = b :: e :: m :: rest) :
    (statusReads s).snap = { s.snap with bufferStatus := b, errorStatus := e, missedStatus := m } ∧
      (statusReads s).reads = rest := by
  simp [statusReads, Snapshot.put, readValue_scripted, readsLeft_scripted, afterRead_scripted, hs, hr]

/-- The per-entry reads latch the next eight. -/
theorem entryReads_scripted {v : Snapshot} {rest : List Word}
    (hr : s.reads = v.frameType :: v.timestampLow :: v.timestampHigh :: v.canId :: v.dlc :: v.crc :: v.dataLow ::
      v.dataHigh :: rest) :
    (entryReads s).snap = { v with bufferStatus := s.snap.bufferStatus, errorStatus := s.snap.errorStatus,
                                   missedStatus := s.snap.missedStatus } ∧
      (entryReads s).reads = rest := by
  simp [entryReads, Snapshot.put, readValue_scripted, readsLeft_scripted, afterRead_scripted, hs, hr]

end Scripted

/-! ### READ_STATUS -/

/-- What READ_STATUS does once it has the lock: what `StatusRead` says, with the words the status reads latch in the
state the Acquire leaves; it writes no peripheral and no input (R151). -/
theorem exec_readStatus_of_acquire {s s1 : State} (h : acquire s = .next s1) : ∃ t, exec .readStatus s = .next t ∧
    StatusRead s t ∧ t.snap = (statusReads s1).snap ∧ t.reads = (statusReads s1).reads ∧ t.periph = s1.periph ∧
    t.inputs = s1.inputs := by
  have ht := readStatus_next.mpr ⟨s1, h, rfl⟩
  exact ⟨_, ht, readStatus_spec ht, rfl, rfl, statusReads_periph s1, by simp [State.inputs]⟩

/-- Settles O12: `StatusRead` gives the trace and the frame; the words are those of `statusReads_snap_reference` under
the reference peripheral and those of `statusReads_scripted` under unconstrained reads. -/
theorem readStatusResult : Obligations.ReadStatusResult := by
  intro s
  refine ⟨fun halone => ⟨_, readStatus_undisturbed halone⟩, fun s1 h => ?_⟩
  obtain ⟨t, ht, hread, hsnap, hreads, hperiph, hinputs⟩ := exec_readStatus_of_acquire h
  obtain ⟨hblock, hkept, hbus, hout, hresponses, hraised, hcall, hlock, -⟩ := hread
  have hparams := (acquire_acquired h).params
  refine ⟨t, ht, hkept, hblock, hbus, fun hs => ?_, fun b e m rest hs hr => ?_, hperiph, hlock, hinputs, hout,
    hresponses, hraised, hcall⟩
  · rw [hsnap, statusReads_snap_reference hs, hparams]
    refine ⟨bufferUsage_bufferStatusWord _ _, rfl, fun hadm => ?_, fun hlay => ?_⟩
    · simp only [admissibleParams, Bool.and_eq_true] at hadm
      exact missed_readBack hadm.1.1 _ _
    · rw [hlay]
      exact ⟨missedStatusWord_default _ _, bufferStatusWord_default⟩
  · obtain ⟨hwords, hrest⟩ := statusReads_scripted hs hr
    rw [hsnap, hwords, hreads, hrest]
    exact ⟨rfl, rfl, rfl, rfl⟩

/-! ### READ_FRAME -/

/-- Settles O13: `FrameRead` gives the trace and the frame, and the reads write no input. -/
theorem readFrameResult : Obligations.ReadFrameResult := by
  intro s
  refine ⟨fun halone => ⟨_, readFrame_undisturbed halone⟩, fun s1 h => ?_⟩
  have ht := readFrame_next.mpr ⟨s1, h, rfl⟩
  obtain ⟨hblock, hbus, hout, hresponses, hraised, hcall, hlock, -⟩ := readFrame_spec ht
  exact ⟨_, ht, hblock, hbus, hlock, by simp [State.inputs], hout, hresponses, hraised, hcall⟩

/-- Settles O14: the status reads take the first three answers, the per-entry reads the other eight. -/
theorem readFrameLatchesTheAnswers : Obligations.ReadFrameLatchesTheAnswers := by
  intro s v rest halone hs hr
  obtain ⟨hstatus, hleft⟩ := statusReads_scripted (s := takeLock [] s) hs hr
  have hperiph : (statusReads (takeLock [] s)).periph = s.periph := statusReads_periph _
  obtain ⟨hentry, hrest⟩ := entryReads_scripted (by rwa [hperiph]) hleft
  refine ⟨_, readFrame_undisturbed halone, ?_, hrest, ?_⟩
  · rw [release_snap, hentry, hstatus]
  · rw [release_periph, entryReads_periph, hperiph, afterRead_scripted hs]

/-! ### WRITE_TIMING -/

/-- Settles O16: `OnlyBus` gives the trace and the frame, `timingWrites_periph` the timing registers. -/
theorem writeTimingResult : Obligations.WriteTimingResult := by
  intro s
  refine ⟨fun halone => ⟨_, writeTiming_undisturbed _ halone⟩, fun s1 h => ?_⟩
  have ht : writeTiming s.args.timing s = _ := withLock_next.mpr ⟨s1, h, rfl⟩
  obtain ⟨hblock, hbus, hout, hresponses, hraised, hcall, hlock, -⟩ := writeTiming_spec ht
  refine ⟨_, ht, hbus, fun hlay => by rw [hbus, hlay, timingHold_default], ?_, hblock, hlock, by simp [State.inputs],
    hout, hresponses, hraised, hcall⟩
  rw [release_periph, timingWrites_periph]

/-! ### PULSE_RESET -/

/-- A pulse latches the timing registers, completes the strobe and leaves source and depth; the reference peripheral
is emptied and its counters cleared (R82). -/
theorem Peripheral.pulse_effect (micros : Time) (p : Peripheral) :
    (p.pulse micros).regs = p.regs ∧ (p.pulse micros).latched = p.regs ∧ (p.pulse micros).strobe = false ∧
      (p.pulse micros).depth = p.depth ∧ (p.pulse micros).source = p.source ∧
      (p.source = .reference → (p.pulse micros).fifo = [] ∧ (p.pulse micros).missed = 0 ∧
        (p.pulse micros).missedOvf = false ∧ (p.pulse micros).errst = 0) := by
  cases hs : p.source <;> simp [Peripheral.pulse, hs]

/-- Settles O17: `OnlyBus` gives the trace and the frame, and the two writes are one pulse of the peripheral
(`pulseWrites_periph`). -/
theorem pulseResetResult : Obligations.PulseResetResult := by
  intro s
  refine ⟨fun halone => ⟨_, pulseReset_undisturbed halone⟩, fun s1 h => ?_⟩
  have ht : pulseReset s = _ := withLock_next.mpr ⟨s1, h, rfl⟩
  obtain ⟨hblock, hbus, hout, hresponses, hraised, hcall, hlock, -⟩ := pulseReset_spec ht
  obtain ⟨hregs, hlatched, hstrobe, hdepth, hsource, hcleared⟩ :=
    s1.periph.pulse_effect (Config.freeMicros (s1.draws + 1))
  refine ⟨_, ht, hbus, fun hlay => by rw [hbus, hlay]; rfl, ?_⟩
  rw [release_periph, pulseWrites_periph]
  exact ⟨hregs, hlatched, hstrobe, hdepth, hsource, hcleared, hblock, hlock, by simp [State.inputs], hout, hresponses,
    hraised, hcall⟩

end Sys2Proof.Machine
end

section
/-!
PROOFS. The Timestamp Base (42_timestamp_base.md R172 to R175).
-/

namespace Sys2Proof.Machine

/-! ### CAPTURE_BASE -/

/-- CAPTURE_BASE completes in every state (R172). -/
theorem exec_captureBase (s : State) : exec .captureBase s = .next (captureBase s) := rfl

/-- Settles O19: CAPTURE_BASE completes (`exec_captureBase`), and the state it leaves is `captureBase s`, in which
only the base and the counter of draws are written. -/
theorem captureBaseResult : Obligations.CaptureBaseResult :=
  fun s => exec_captureBase s

/-! ### TO_ABSOLUTE -/

/-- With a base, TO_ABSOLUTE returns the absolute time of its operand (R173). -/
theorem exec_toAbsolute_of_valid {s : State} (h : s.baseValid = true) :
    exec .toAbsolute s = .next (s.returning (.time (absoluteTime s.base s.args.hwUs))) := if_pos h

/-- Without a base, TO_ABSOLUTE has no value (R36). -/
theorem exec_toAbsolute_of_invalid {s : State} (h : s.baseValid = false) :
    exec .toAbsolute s = .fault .baseInvalid := if_neg (ne_true_of_eq_false h)

/-- Settles O20: the two branches of R173. -/
theorem toAbsoluteResult : Obligations.ToAbsoluteResult :=
  fun _ => ⟨exec_toAbsolute_of_valid, exec_toAbsolute_of_invalid⟩

/-! ### The arithmetic -/

/-- The conversion keeps differences, scaled to nanoseconds: the base cancels (R174). -/
theorem absoluteTime_sub_absoluteTime (base a b : Time) :
    absoluteTime base a - absoluteTime base b = (a - b) * 1000 :=
  calc base + a * nsPerMicro - (base + b * nsPerMicro)
    _ = a * nsPerMicro - b * nsPerMicro := add_sub_add_left_eq_sub ..
    _ = (a - b) * nsPerMicro := (sub_mul ..).symm

/-- The hardware timestamp 0 stands for the base itself (R173). -/
@[simp] theorem absoluteTime_zero (base : Time) : absoluteTime base 0 = base := by
  rw [absoluteTime, zero_mul, add_zero]

/-- Right after a capture, the hardware timestamp that equals the monotonic reading stands for the wall-clock reading
(R175). -/
theorem absoluteTime_captureBase {s : State} {us : Time} (h : s.clockNow.mono = us * 1000) :
    absoluteTime (captureBase s).base us = s.clockNow.wall :=
  calc s.clockNow.wall - s.clockNow.mono + us * 1000
    _ = s.clockNow.wall - s.clockNow.mono + s.clockNow.mono := by rw [h]
    _ = s.clockNow.wall := sub_add_cancel ..

/-- Settles O21: the two laws of the conversion, and the base that `exec_captureBase` leaves. -/
theorem timestampArithmetic : Obligations.TimestampArithmetic := by
  refine ⟨fun base a b => ⟨absoluteTime_sub_absoluteTime base a b, absoluteTime_zero base⟩, fun s t us ht hmono => ?_⟩
  rw [exec_captureBase] at ht
  cases ht
  exact absoluteTime_captureBase hmono

end Sys2Proof.Machine
end

section
/-!
PROOFS. The Frame Decoder (43_frame_decoder.md R180 to R194).
-/

namespace Sys2Proof.Machine

/-! ### The two branches -/

/-- With a protocol-error flag the decoder makes an error event of the frame-type word and the timestamp (R181). -/
theorem decodedEventOf_of_error {p : Params} {sr : Snapshot} {base : Time}
    (h : anyProtocolError p.layout sr.frameType = true) :
    decodedEventOf p sr base = .error (errorEventOf p sr.frameType (absoluteTime base (snapTimestamp sr))) := if_pos h

/-- Without a protocol-error flag it makes a frame of the identifier, length and data words and the timestamp (R181). -/
theorem decodedEventOf_of_noError {p : Params} {sr : Snapshot} {base : Time}
    (h : anyProtocolError p.layout sr.frameType = false) :
    decodedEventOf p sr base =
      .frame (frameOf p sr.canId sr.dlc sr.dataLow sr.dataHigh (absoluteTime base (snapTimestamp sr))) :=
  if_neg (ne_true_of_eq_false h)

/-! ### DECODE -/

/-- DECODE has the event of the snapshot when the registers its branch reads and the base are valid (R22, R181). -/
theorem decodeEvent_of_branchValid {s : State}
    (hcommon : ∀ r ∈ [ReadReg.frameType, .timestampLow, .timestampHigh], srValidBit r s.srValid = true)
    (hbase : s.baseValid = true)
    (hframe : anyProtocolError s.params.layout s.snap.frameType = false →
      ∀ r ∈ decodeFrameReads, srValidBit r s.srValid = true) :
    decodeEvent s = .ok (decodedEventOf s.params s.snap s.base) := by
  have hc : srFault decodeCommonReads s = none := srFault_common_eq_none fun r hr => by simp [hcommon r hr]
  cases h : anyProtocolError s.params.layout s.snap.frameType with
  | true => simp [decodeEvent, hc, hbase, h]
  | false => simp [decodeEvent, hc, hbase, h, srFault_eq_none.mpr (hframe h)]

/-- A DECODE with an event returns it, and reports its protocol error if it is one (R180, R181). -/
theorem exec_decode_ok {s : State} {ev : DecodedEvent} (h : decodeEvent s = .ok ev) :
    exec .decode s = .next { s with ret := .event ev, raised := s.raised ++ protocolErrorOf ev } := by
  simp only [exec, execDecode, h, State.returning]

/-- The report of the decoder's event: the top kind and the recorded kinds, on the error branch only (R181, R283). -/
theorem protocolErrorOf_decodedEventOf (p : Params) (sr : Snapshot) (base : Time) :
    protocolErrorOf (decodedEventOf p sr base) = if anyProtocolError p.layout sr.frameType then
      [.protocolError (topKind p.layout sr.frameType).code (kindFlags p sr.frameType)] else [] := by
  cases h : anyProtocolError p.layout sr.frameType with
  | true => rw [decodedEventOf_of_error h]; rfl
  | false => rw [decodedEventOf_of_noError h]; rfl

/-- Settles O22: the reads do not fault (`decodeEvent_of_branchValid`), and the event decides the report
(`protocolErrorOf_decodedEventOf`). -/
theorem decodeResult : Obligations.DecodeResult := by
  intro s hcommon hbase hframe
  rw [exec_decode_ok (decodeEvent_of_branchValid hcommon hbase hframe), protocolErrorOf_decodedEventOf]

/-- With a protocol-error flag DECODE returns the error event, whether or not the identifier, length and data words are
valid (R22, R185). -/
theorem exec_decode_of_error {s : State} (herr : anyProtocolError s.params.layout s.snap.frameType = true)
    (hbase : s.baseValid = true)
    (hcommon : ∀ r ∈ [ReadReg.frameType, .timestampLow, .timestampHigh], srValidBit r s.srValid = true) :
    ∃ t, exec .decode s = .next t ∧ t.ret =
      .event (.error (errorEventOf s.params s.snap.frameType (absoluteTime s.base (snapTimestamp s.snap)))) := by
  have hok := decodeEvent_of_branchValid hcommon hbase fun h => absurd (herr.symm.trans h) nofun
  rw [decodedEventOf_of_error herr] at hok
  exact ⟨_, exec_decode_ok hok, rfl⟩

/-- Settles O26: in both states DECODE takes the error branch (`exec_decode_of_error`), and the error event is made of
the frame-type word and the timestamp, which the two snapshots share. -/
theorem errorEventIgnoresThePayloadWords : Obligations.ErrorEventIgnoresThePayloadWords := by
  intro s id dlc lo hi v herr hbase hvalid
  obtain ⟨t, ht, hret⟩ := exec_decode_of_error herr hbase fun r hr => (hvalid r hr).1
  obtain ⟨u, hu, huret⟩ := exec_decode_of_error (s := { s with
    snap := { s.snap with canId := id, dlc := dlc, dataLow := lo, dataHigh := hi }
    srValid := v }) herr hbase fun r hr => (hvalid r hr).2
  exact ⟨_, t, u, ht, hret, hu, huret⟩

/-! ### The protocol-error flags -/

/-- A set flag of any kind is a protocol error (R181). -/
theorem anyProtocolError_of_kindFlag {lay : Layout} {w : Word} (k : ProtocolKind) (h : kindFlag lay k w = true) :
    anyProtocolError lay w = true := by
  cases k <;> simp [anyProtocolError, h]

/-- Without a flag there is no protocol error (R181). -/
theorem anyProtocolError_of_clear {lay : Layout} {w : Word} (hs : kindFlag lay .stuff w = false)
    (hf : kindFlag lay .form w = false) (ha : kindFlag lay .ack w = false) (hc : kindFlag lay .crc w = false) :
    anyProtocolError lay w = false := by
  simp [anyProtocolError, hs, hf, ha, hc]

theorem topKind_of_stuff {lay : Layout} {w : Word} (hs : kindFlag lay .stuff w = true) : topKind lay w = .stuff :=
  if_pos hs

theorem topKind_of_form {lay : Layout} {w : Word} (hs : kindFlag lay .stuff w = false)
    (hf : kindFlag lay .form w = true) : topKind lay w = .form := by
  simp [topKind, hs, hf]

theorem topKind_of_ack {lay : Layout} {w : Word} (hs : kindFlag lay .stuff w = false)
    (hf : kindFlag lay .form w = false) (ha : kindFlag lay .ack w = true) : topKind lay w = .ack := by
  simp [topKind, hs, hf, ha]

theorem topKind_of_crc {lay : Layout} {w : Word} (hs : kindFlag lay .stuff w = false)
    (hf : kindFlag lay .form w = false) (ha : kindFlag lay .ack w = false) : topKind lay w = .crc := by
  simp [topKind, hs, hf, ha]

/-- The error event of a word whose flag of kind `k` is set and has the highest priority (R182, R183). -/
theorem decodedEventOf_of_topKind {p : Params} {sr : Snapshot} {base : Time} {k : ProtocolKind}
    (h : kindFlag p.layout k sr.frameType = true) (htop : topKind p.layout sr.frameType = k) :
    ∃ e, decodedEventOf p sr base = .error e ∧ e.subcode = k.code ∧ e.marker = true :=
  ⟨_, decodedEventOf_of_error (anyProtocolError_of_kindFlag k h), congrArg ProtocolKind.code htop, rfl⟩

/-- Settles O24: each row of the table of R183 gives the top kind (`topKind_of_stuff` to `topKind_of_crc`), and without
a flag the frame branch is taken. -/
theorem errorFlagsDecideTheEvent : Obligations.ErrorFlagsDecideTheEvent := by
  intro p sr base
  refine ⟨fun hs => ?_, fun hs hf => ?_, fun hs hf ha => ?_, fun hs hf ha hc => ?_, fun hs hf ha hc => ?_⟩
  · exact decodedEventOf_of_topKind (k := .stuff) hs (topKind_of_stuff hs)
  · exact decodedEventOf_of_topKind (k := .form) hf (topKind_of_form hs hf)
  · exact decodedEventOf_of_topKind (k := .ack) ha (topKind_of_ack hs hf ha)
  · exact decodedEventOf_of_topKind (k := .crc) hc (topKind_of_crc hs hf ha)
  · exact ⟨_, decodedEventOf_of_noError (anyProtocolError_of_clear hs hf ha hc)⟩

/-- Words with the same four flags give the same error event (R189). -/
theorem errorEventOf_congr {p : Params} {v w : Word} (h : ∀ k, kindFlag p.layout k v = kindFlag p.layout k w)
    (ts : Time) : errorEventOf p v ts = errorEventOf p w ts := by
  have htop : topKind p.layout v = topKind p.layout w := by simp only [topKind, h]
  have hflags : kindFlags p v = kindFlags p w := by simp only [kindFlags, flagSet, h, htop]
  simp only [errorEventOf, htop, hflags]

/-- Settles O30: the branch and the error event depend on the frame-type word by its four flags only
(`errorEventOf_congr`), the frame not at all, and neither on the crc register. -/
theorem frameTypeCodeAndCrcAreIgnored : Obligations.FrameTypeCodeAndCrcAreIgnored := by
  intro p sr base w crc h
  have hkind : ∀ k, kindFlag p.layout k w = kindFlag p.layout k sr.frameType := by
    intro k
    cases k <;> exact h _ (by simp)
  have hany : anyProtocolError p.layout w = anyProtocolError p.layout sr.frameType := by
    simp only [anyProtocolError, hkind]
  simp only [decodedEventOf, hany, errorEventOf_congr hkind]
  rfl

/-! ### The kinds and their codes -/

theorem mem_allKinds (k : ProtocolKind) : k ∈ allKinds := by cases k <;> decide

/-- Every index below 4 is the code of a kind (R124). -/
theorem exists_code_toNat_eq {i : Nat} (h : i < 4) : ∃ k : ProtocolKind, k.code.toNat = i := by
  have hcode : ∀ c : Fin 4, (kindOfCode (BitVec.ofFin c)).code.toNat = c := by decide
  exact ⟨_, hcode ⟨i, h⟩⟩

/-- The bit of one kind, read at another (R124, R182). -/
theorem getLsbD_one_shiftLeft_code (j k : ProtocolKind) :
    (1#4 <<< j.code.toNat).getLsbD k.code.toNat = decide (j.code = k.code) := by
  cases j <;> cases k <;> rfl

/-- The recorded kinds: every set flag, or the one the sub-code names (R182). -/
theorem kindFlags_getLsbD (p : Params) (w : Word) (k : ProtocolKind) :
    (kindFlags p w).getLsbD k.code.toNat =
      if p.errRecordAll then kindFlag p.layout k w else decide ((topKind p.layout w).code = k.code) := by
  unfold kindFlags
  split
  · exact flagSet_getLsbD ..
  · exact getLsbD_one_shiftLeft_code ..

/-- Distinct values in the order of the kinds are distinct values of the kinds (R125). -/
theorem valueFor_injective {α : Type} {m : PerKind α} (h : m.toList.Nodup) : Function.Injective (valueFor m) :=
  fun j k hjk => List.inj_on_of_nodup_map (f := valueFor m) (l := allKinds) h (mem_allKinds j) (mem_allKinds k) hjk

/-- Lawful parameters have the positions of the kinds distinct (R125). -/
theorem errPos_injective {p : Params} (h : admissibleParams p = true) : Function.Injective (valueFor p.errPos) := by
  simp only [admissibleParams, Bool.and_eq_true, decide_eq_true_eq] at h
  obtain ⟨⟨-, hnodup⟩, -⟩ := h
  exact valueFor_injective hnodup

/-! ### The error payload -/

/-- The byte at the position of a kind is the kind's value when it is recorded, and else 0: no other kind has that
position (R125, R182). -/
theorem errorPayloadByte_errPos {p : Params} (h : Function.Injective (valueFor p.errPos)) (recorded : BitVec 4)
    (k : ProtocolKind) :
    errorPayloadByte p recorded (valueFor p.errPos k).val =
      if recorded.getLsbD k.code.toNat then valueFor p.errVal k else 0x00 := by
  have hpos : ∀ j, (valueFor p.errPos j).val = (valueFor p.errPos k).val ↔ j = k :=
    fun j => Fin.val_inj.trans h.eq_iff
  cases k <;> simp [errorPayloadByte, allKinds, hpos]

/-- A byte at no kind's position is 0 (R125, R182). -/
theorem errorPayloadByte_of_forall_ne {p : Params} {i : Fin 8} (h : ∀ k, valueFor p.errPos k ≠ i)
    (recorded : BitVec 4) : errorPayloadByte p recorded i = 0x00 := by
  simp [errorPayloadByte, allKinds, Fin.val_inj, h]

/-! ### The spec's own values of the parameters -/

/-- By default the flags are the bits of the kinds' codes (R106, D3). -/
theorem kindFlag_default (k : ProtocolKind) (w : Word) : kindFlag Layout.default k w = w.getLsbD k.code.toNat := by
  cases k <;> rfl

/-- By default the position of a kind is its code (R125, D16). -/
theorem errPos_default (k : ProtocolKind) : (valueFor Params.default.errPos k).val = k.code.toNat := by
  cases k <;> rfl

/-- By default the value of every kind is 0x01 (R125, D16). -/
theorem errVal_default (k : ProtocolKind) : valueFor Params.default.errVal k = 0x01 := by
  cases k <;> rfl

/-- By default the recorded kinds are those whose flag is set (R182, D16). -/
theorem kindFlags_default_getLsbD (w : Word) (k : ProtocolKind) :
    (kindFlags Params.default w).getLsbD k.code.toNat = w.getLsbD k.code.toNat :=
  (kindFlags_getLsbD Params.default w k).trans (kindFlag_default k w)

/-- By default the recorded kinds are the four low bits of the frame-type word (R106, R182). -/
theorem kindFlags_default (w : Word) : kindFlags Params.default w = w.extractLsb' 0 4 := by
  apply BitVec.eq_of_getLsbD_eq
  intro i hi
  obtain ⟨k, rfl⟩ := exists_code_toNat_eq hi
  rw [kindFlags_default_getLsbD, BitVec.getLsbD_extractLsb', decide_eq_true hi, Bool.true_and, Nat.zero_add]

/-- By default byte `i` of the error payload is 0x01 exactly for a flag at bit `i` (R125, R182, D16). -/
theorem errorPayloadByte_default (w : Word) (i : Fin 8) :
    errorPayloadByte Params.default (kindFlags Params.default w) i =
      if i.val < 4 ∧ w.getLsbD i = true then 0x01 else 0x00 := by
  by_cases hi : i.val < 4
  · obtain ⟨k, hk⟩ := exists_code_toNat_eq hi
    have hpos : valueFor Params.default.errPos k = i := Fin.ext ((errPos_default k).trans hk)
    have hbyte := errorPayloadByte_errPos (errPos_injective admissible_default) (kindFlags Params.default w) k
    rw [hpos, errVal_default, kindFlags_default_getLsbD, hk] at hbyte
    simp [hbyte, hi]
  · have hne : ∀ k, valueFor Params.default.errPos k ≠ i := by
      rintro k rfl
      exact hi (errPos_default k ▸ k.code.isLt)
    rw [errorPayloadByte_of_forall_ne hne, if_neg fun h => hi h.1]

/-- Settles O25: the fields of `errorEventOf`, by what the flags and the payload's bytes are. -/
theorem errorEventContents : Obligations.ErrorEventContents := by
  intro p sr base hp herr
  refine ⟨_, decodedEventOf_of_error herr, rfl, fun k => ?_, fun k => ?_, fun i hi => ?_, ?_⟩
  · exact kindFlags_getLsbD p sr.frameType k
  · exact (Payload.get_payloadOf ..).trans (errorPayloadByte_errPos (errPos_injective hp) _ k)
  · exact (Payload.get_payloadOf ..).trans (errorPayloadByte_of_forall_ne hi _)
  · rintro rfl
    exact ⟨kindFlags_default _, fun i => (Payload.get_payloadOf ..).trans (errorPayloadByte_default _ i)⟩

/-! ### The identifier word of a frame -/

/-- A flag placed in the identifier word, bit by bit (R122). -/
theorem getLsbD_flagAt (b : Bool) (position : Nat) {i : Nat} (h : i < 32) :
    (flagAt b position).getLsbD i = (b && decide (i = position)) := by
  cases b with
  | false => simp [flagAt]
  | true =>
    have hbit : (flagAt true position).getLsbD i = (decide (position < 32) && decide (position = i)) :=
      BitVec.getLsbD_twoPow position i
    rw [hbit, Bool.true_and, Bool.eq_iff_iff]
    simp only [Bool.and_eq_true, decide_eq_true_eq]
    omega

/-- The identifier operand is the `id` field or its low 11 bits (R109, R117). -/
theorem identOperand_extractLsb' (lay : Layout) (w : Word) :
    (identOperand lay w).extractLsb' 0 29 = if w.getLsbD lay.eff then w.extractLsb' lay.ident 29
      else (w.extractLsb' lay.ident 11).setWidth 29 := by
  unfold identOperand effFlag idField fieldAt
  split
  · simp [← BitVec.setWidth_eq_extractLsb']
  · simp [← BitVec.setWidth_eq_extractLsb', BitVec.setWidth_extractLsb'_of_le]

/-- The identifier operand leaves the bits of the flags at 0 (R117, R122). -/
theorem getLsbD_identOperand_of_ge (lay : Layout) (w : Word) {i : Nat} (h : 29 ≤ i) :
    (identOperand lay w).getLsbD i = false := by
  unfold identOperand
  split
  · rw [BitVec.getLsbD_setWidth, BitVec.getLsbD_of_ge _ _ h, Bool.and_false]
  · rw [BitVec.getLsbD_setWidth, BitVec.getLsbD_of_ge _ _ (by omega), Bool.and_false]

/-- The identifier word, bit by bit: the operand, and the three flags above it (R122, R186). -/
theorem getLsbD_frameId (lay : Layout) (w : Word) {i : Nat} (h : i < 32) :
    (frameId lay w).getLsbD i = ((identOperand lay w).getLsbD i || (effFlag lay w && decide (i = 31)) ||
      (rtrFlag lay w && decide (i = 30)) || (errFlag lay w && decide (i = 29))) := by
  simp only [frameId, BitVec.getLsbD_or, getLsbD_flagAt _ _ h]

theorem frameId_getLsbD_31 (lay : Layout) (w : Word) : (frameId lay w).getLsbD 31 = effFlag lay w := by
  rw [getLsbD_frameId lay w (by decide), getLsbD_identOperand_of_ge lay w (by decide)]
  simp

theorem frameId_getLsbD_30 (lay : Layout) (w : Word) : (frameId lay w).getLsbD 30 = rtrFlag lay w := by
  rw [getLsbD_frameId lay w (by decide), getLsbD_identOperand_of_ge lay w (by decide)]
  simp

theorem frameId_getLsbD_29 (lay : Layout) (w : Word) : (frameId lay w).getLsbD 29 = errFlag lay w := by
  rw [getLsbD_frameId lay w (by decide), getLsbD_identOperand_of_ge lay w (by decide)]
  simp

/-- The flags do not reach the low 29 bits of the identifier word (R122). -/
theorem frameId_extractLsb' (lay : Layout) (w : Word) :
    (frameId lay w).extractLsb' 0 29 = (identOperand lay w).extractLsb' 0 29 := by
  apply BitVec.eq_of_getLsbD_eq
  intro i hi
  have h31 : i ≠ 31 := by omega
  have h30 : i ≠ 30 := by omega
  have h29 : i ≠ 29 := by omega
  simp [getLsbD_frameId lay w (show i < 32 by omega), h31, h30, h29]

theorem extractLsb'_one_eq_ofBool {n : Nat} (w : BitVec n) (i : Nat) :
    w.extractLsb' i 1 = BitVec.ofBool (w.getLsbD i) := by
  apply BitVec.eq_of_getLsbD_eq
  intro j hj
  obtain rfl : j = 0 := by omega
  simp

/-- The copy of the flags holds `eff`, `rtr`, `err`, from the top (R123). -/
theorem frameFlags_frameId (lay : Layout) (w : Word) :
    frameFlags (frameId lay w) =
      w.extractLsb' lay.eff 1 ++ w.extractLsb' lay.rtr 1 ++ w.extractLsb' lay.err 1 := by
  have hsplit : ∀ x : BitVec 32,
      x.extractLsb' 29 3 = x.extractLsb' 31 1 ++ x.extractLsb' 30 1 ++ x.extractLsb' 29 1 := by
    intro x
    rw [BitVec.extractLsb'_append_extractLsb'_eq_extractLsb' (start₂ := 31) rfl,
      BitVec.extractLsb'_append_extractLsb'_eq_extractLsb' (start₂ := 30) rfl]
  rw [frameFlags, hsplit]
  simp only [extractLsb'_one_eq_ofBool, frameId_getLsbD_31, frameId_getLsbD_30, frameId_getLsbD_29, effFlag, rtrFlag,
    errFlag]

/-- Settles O27: the operand in the low 29 bits (`frameId_extractLsb'`) and the flags above it (`getLsbD_frameId`); the
default layout is one of those covered. -/
theorem frameIdentifierAndFlags : Obligations.FrameIdentifierAndFlags := by
  intro p sr base h
  have hid := (frameId_extractLsb' p.layout sr.canId).trans (identOperand_extractLsb' p.layout sr.canId)
  refine ⟨_, decodedEventOf_of_noError h, rfl, hid, frameId_getLsbD_31 .., frameId_getLsbD_30 ..,
    frameId_getLsbD_29 .., rfl, fun hlay => ?_⟩
  exact ⟨hid.trans (by rw [hlay]; rfl), (frameFlags_frameId ..).trans (by rw [hlay]; rfl)⟩

/-! ### The payload of a frame -/

/-- Up to 4 bytes come from data-low, and the rest is the filler (R188). -/
theorem framePayloadByte_of_short {dlc : BitVec 4} (h : dlc.toNat ≤ 4) (fill : Byte) (lo hi : Word) (i : Nat) :
    framePayloadByte fill dlc lo hi i = if i < dlc.toNat then lo.extractLsb' (24 - 8 * i) 8 else fill :=
  if_pos (BitVec.le_def.mpr h)

/-- A longer payload is data-high above data-low, most significant byte first (R188, R194). -/
theorem framePayloadByte_of_long {dlc : BitVec 4} (h : 4 < dlc.toNat) (fill : Byte) (lo hi : Word) (i : Nat) :
    framePayloadByte fill dlc lo hi i =
      if i < 4 then hi.extractLsb' (24 - 8 * i) 8 else lo.extractLsb' (56 - 8 * i) 8 := by
  rw [framePayloadByte, if_neg fun hle => Nat.not_le.mpr h (BitVec.le_def.mp hle)]
  split
  · rfl
  · have hbyte : 24 - 8 * (i - 4) = 56 - 8 * i := by omega
    rw [beByte, hbyte]

/-- Byte `i` of two words as one unit, most significant first (R194). -/
theorem extractLsb'_append_words (lo hi : Word) {i : Nat} (h : i < 8) :
    (hi ++ lo).extractLsb' (56 - 8 * i) 8 =
      if i < 4 then hi.extractLsb' (24 - 8 * i) 8 else lo.extractLsb' (56 - 8 * i) 8 := by
  split
  · rw [BitVec.extractLsb'_append_eq_of_le (by omega)]
    congr 1
    omega
  · exact BitVec.extractLsb'_append_eq_of_add_le (by omega)

/-- Settles O28: the two packings of R188; the rest are fields of `frameOf`. -/
theorem framePayloadPacking : Obligations.FramePayloadPacking := by
  intro p sr base h
  refine ⟨_, decodedEventOf_of_noError h, rfl, fun i => ?_, fun hp => ?_⟩
  · have hget := Payload.get_payloadOf
      (framePayloadByte p.payloadFill (dlcField p.layout sr.dlc) sr.dataLow sr.dataHigh) i
    refine ⟨fun hd hi => ?_, fun hd hi => ?_, fun hd hi => ?_, fun hd hi => ?_⟩
    · exact hget.trans ((framePayloadByte_of_short hd ..).trans (if_pos hi))
    · exact hget.trans ((framePayloadByte_of_short hd ..).trans (if_neg (Nat.not_lt.mpr hi)))
    · exact hget.trans ((framePayloadByte_of_long hd ..).trans (if_pos hi))
    · exact hget.trans ((framePayloadByte_of_long hd ..).trans (if_neg (Nat.not_lt.mpr hi)))
  · subst hp
    exact ⟨rfl, rfl⟩

/-- Settles O29: the two words of a long payload are one unit (`extractLsb'_append_words`); at dlc 4 byte 0 is that of
data-low. -/
theorem longPayloadIsOneBigEndianUnit : Obligations.LongPayloadIsOneBigEndianUnit := by
  intro p sr base h
  refine ⟨_, decodedEventOf_of_noError h, fun hd i => ?_, fun hd => ?_⟩
  · exact (Payload.get_payloadOf ..).trans
      ((framePayloadByte_of_long hd ..).trans (extractLsb'_append_words _ _ i.isLt).symm)
  · have hd4 : (dlcField p.layout sr.dlc).toNat = 4 := congrArg BitVec.toNat hd
    exact (framePayloadByte_of_short hd4.le ..).trans (if_pos (by omega))

end Sys2Proof.Machine
end

section
/-!
PROOFS. The Bit-Timing Table (44_bit_timing.md R200 to R207).
-/

namespace Sys2Proof.Machine

/-! ### The table -/

/-- The row of 500 000 bit/s (R201). -/
theorem resolveRate_500000 : resolveRate 500000 = some ⟨1, 5, 7, 7, 4⟩ := by decide

/-- The row of 1 000 000 bit/s (R201). -/
theorem resolveRate_1000000 : resolveRate 1000000 = some ⟨1, 2, 4, 3, 4⟩ := by decide

/-- The table has no other row (R202). -/
theorem resolveRate_of_other {b : Word} (h5 : b ≠ 500000) (h10 : b ≠ 1000000) : resolveRate b = none := by
  have hrow : timingTable b = none := (if_neg h5).trans (if_neg h10)
  rw [resolveRate, hrow]

/-- What RESOLVE returns has passed the check of R203. -/
theorem timingValid_of_resolveRate {b : Word} {tp : Timing} (h : resolveRate b = some tp) : timingValid tp = true := by
  unfold resolveRate at h
  split at h
  · split at h
    · next hvalid => exact Option.some.inj h ▸ hvalid
    · cases h
  · cases h

/-- The limits the check tests (R203). -/
theorem timingValid_iff {tp : Timing} :
    timingValid tp = true ↔
      (1 ≤ tp.propSeg.toNat + tp.phaseSeg1.toNat ∧ tp.propSeg.toNat + tp.phaseSeg1.toNat ≤ 32) ∧
      (1 ≤ tp.phaseSeg2.toNat ∧ tp.phaseSeg2.toNat ≤ 8) ∧ (1 ≤ tp.brp.toNat ∧ tp.brp.toNat ≤ 64) ∧
      tp.syncSeg = syncSegFixed := by
  simp only [timingValid, Bool.and_eq_true, decide_eq_true_eq, beq_iff_eq, and_assoc]

/-- Settles O32: RESOLVE validates what it returns. -/
theorem resolvedTimingIsWithinLimits : Obligations.ResolvedTimingIsWithinLimits := by
  intro b tp h
  obtain ⟨⟨hpos1, hmax1⟩, ⟨hpos2, hmax2⟩, ⟨hposb, hmaxb⟩, hsync⟩ := timingValid_iff.mp (timingValid_of_resolveRate h)
  exact ⟨hpos1, hmax1, hpos2, hmax2, hposb, hmaxb, hsync⟩

/-! ### RESOLVE -/

/-- A resolved rate is returned, and nothing is written or reported (R202). -/
theorem exec_resolve_of_some {b : Word} {tp : Timing} (s : State) (h : resolveRate b = some tp) :
    exec (.resolve b) s = .next { s with ret := .timing tp } := by
  simp only [exec, execResolve, h, State.returning]

/-- An unsupported rate is reported and returned as such (R202, R281). -/
theorem exec_resolve_of_none {b : Word} (s : State) (h : resolveRate b = none) :
    exec (.resolve b) s = .next { s with ret := .unsupported, raised := s.raised ++ [.unsupported b] } := by
  simp only [exec, execResolve, h, State.returning, State.raise]

/-- Settles O31: the two rows and the answer to every other rate. -/
theorem resolveResult : Obligations.ResolveResult := by
  intro s b
  refine ⟨?_, ?_, fun h5 h10 => exec_resolve_of_none s (resolveRate_of_other h5 h10)⟩
  · rintro rfl
    exact exec_resolve_of_some s resolveRate_500000
  · rintro rfl
    exact exec_resolve_of_some s resolveRate_1000000

/-! ### The branches of SET_BIT_RATE -/

/-- Outside Stopped a SET_BIT_RATE is refused (R207). -/
theorem exec_setBitRate_of_not_stopped {s : State} (b : Word) (hm : s.mode ≠ .stopped) :
    exec (.setBitRate b) s = .next (s.reject .outsideMode) := if_neg hm

/-- The response to an unsupported rate: status 1 and value 0 (R132, R281). -/
theorem responseWord_unsupported (b : Word) : responseWord (Exception.unsupported b).code 0 = 0x0100000000 := by
  rw [Exception.code]
  decide

/-- In Stopped an unsupported rate is reported and answered with status 1 (R204, R206). -/
theorem exec_setBitRate_of_none {s : State} {b : Word} (hm : s.mode = .stopped) (h : resolveRate b = none) :
    exec (.setBitRate b) s = .next { s with
      responses := s.responses ++ [0x0100000000], raised := s.raised ++ [.unsupported b] } := by
  rw [← responseWord_unsupported b]
  simp only [exec, execSetBitRate, if_pos hm, h, State.respond, State.raise]

/-- In Stopped a supported rate is programmed (R204, R205). -/
theorem exec_setBitRate_of_some {s : State} {b : Word} {tp : Timing} (hm : s.mode = .stopped)
    (h : resolveRate b = some tp) : exec (.setBitRate b) s = programTiming tp s := by
  simp only [exec, execSetBitRate, if_pos hm, h]

/-- Settles O35: a rate outside the table is unsupported. -/
theorem unsupportedRateChangesNothing : Obligations.UnsupportedRateChangesNothing :=
  fun _ _ hm h5 h10 => exec_setBitRate_of_none hm (resolveRate_of_other h5 h10)

/-! ### Programming a record -/

/-- Two operations that only write registers, one after the other, leave their holds in this order. -/
theorem OnlyBus.trans {hold hold' : List BusEvent} {s t u : State} (h : OnlyBus hold s t) (k : OnlyBus hold' t u) :
    OnlyBus (hold ++ hold') s u where
  block     := k.block.trans h.block
  bus       := by rw [k.bus, h.bus, List.append_assoc]
  out       := k.out.trans h.out
  responses := k.responses.trans h.responses
  raised    := k.raised.trans h.raised
  callRegs  := k.callRegs.trans h.callRegs
  lock      := k.lock
  params    := k.params.trans h.params

/-- The programming of a record that answers is a WRITE_TIMING and a PULSE_RESET that answer, then the block's own
record and the response (R204, R205). -/
theorem programTiming_next {tp : Timing} {s t : State} :
    programTiming tp s = .next t ↔ ∃ s1 s2, writeTiming tp s = .next s1 ∧ pulseReset s1 = .next s2 ∧
      t = { s2 with timing := tp, bitrateConfigured := true }.respond 0 0 := by
  simp only [programTiming, andThen_eq_next, Host.Outcome.next.injEq, eq_comm (b := t), exists_and_left]

/-- The two accesses of the programming leave the timing hold and the pulse hold, and nothing else of the block's
part (R205). -/
theorem onlyBus_timing_pulse {tp : Timing} {s s1 s2 : State} (hwrite : writeTiming tp s = .next s1)
    (hpulse : pulseReset s1 = .next s2) :
    OnlyBus (timingHold s.params.layout tp ++ pulseHold s.params.layout) s s2 := by
  have hw := writeTiming_spec hwrite
  have hp := pulseReset_spec hpulse
  rw [hw.params] at hp
  exact hw.trans hp

/-- What the programming of a record makes of the block's part: the two holds in the trace, the record, the
configuration and the response of success (R204, R205). -/
structure Programmed (tp : Timing) (s t : State) : Prop where
  bus       : t.bus = s.bus ++ timingHold s.params.layout tp ++ pulseHold s.params.layout
  block     : t.block = { s.block with timing := tp, bitrateConfigured := true }
  responses : t.responses = s.responses ++ [0x0000000000]
  out       : t.out = s.out
  raised    : t.raised = s.raised
  callRegs  : t.callRegs = s.callRegs
  lock      : t.lock = .free

theorem programTiming_spec {tp : Timing} {s t : State} (h : programTiming tp s = .next t) : Programmed tp s t := by
  obtain ⟨s1, s2, hwrite, hpulse, rfl⟩ := programTiming_next.mp h
  obtain ⟨hblock, hbus, hout, hresponses, hraised, hcall, hlock, -⟩ := onlyBus_timing_pulse hwrite hpulse
  exact {
    bus       := by rw [State.respond_bus, hbus, List.append_assoc]
    block     := by rw [← hblock]; rfl
    responses := by rw [State.respond_responses, hresponses]; rfl
    out       := hout
    raised    := hraised
    callRegs  := hcall
    lock      := hlock }

/-- Undisturbed, the programming completes; the peripheral has the record in its timing registers and latched, and
the inputs are as they were. -/
theorem programTiming_undisturbed {s : State} (tp : Timing) (h : s.Undisturbed) : ∃ t, programTiming tp s = .next t ∧
    t.periph.regs = tp ∧ t.periph.latched = tp ∧ t.inputs = s.inputs := by
  have hwrite := writeTiming_undisturbed tp h
  have halone := undisturbed_after (timingWrites tp) h (by simp [h.1])
  refine ⟨_, programTiming_next.mpr ⟨_, _, hwrite, pulseReset_undisturbed halone, rfl⟩, ?_⟩
  rw [State.respond_periph, release_periph, pulseWrites_periph, takeLock_periph, release_periph, timingWrites_periph]
  obtain ⟨hregs, hlatched, -⟩ := Peripheral.pulse_effect _ { s.periph with regs := tp }
  exact ⟨hregs, hlatched, by simp [State.inputs, h.1]⟩

/-- Settles O33: `programTiming_undisturbed` gives the completion, the peripheral and the inputs, `Programmed` the
trace and the frame. -/
theorem setBitRateProgramsAndPulses : Obligations.SetBitRateProgramsAndPulses := by
  intro s b tp halone hm hrate
  obtain ⟨t, ht, hregs, hlatched, hinputs⟩ := programTiming_undisturbed tp halone
  obtain ⟨hbus, hblock, hresponses, hout, hraised, hcall, hlock⟩ := programTiming_spec ht
  exact ⟨t, (exec_setBitRate_of_some hm hrate).trans ht, hbus, hblock, hregs, hlatched, hresponses, hout, hraised,
    hcall, hinputs, hlock⟩

/-- Settles O34: of the three branches of SET_BIT_RATE the refusal and the failure touch no bus, and the third
programs the record, whatever the other agents do between its two holds (`programTiming_spec`). -/
theorem timingIsNeverWrittenWithoutThePulse : Obligations.TimingIsNeverWrittenWithoutThePulse := by
  intro s t b h
  by_cases hm : s.mode = .stopped
  · cases hrate : resolveRate b with
    | none =>
      rw [exec_setBitRate_of_none hm hrate] at h
      cases h
      exact .inl ⟨.inr rfl, rfl, rfl, rfl⟩
    | some tp =>
      rw [exec_setBitRate_of_some hm hrate] at h
      have hprog := programTiming_spec h
      exact .inr ⟨tp, rfl, hprog.bus, hprog.block⟩
  · rw [exec_setBitRate_of_not_stopped b hm] at h
    cases h
    exact .inl ⟨.inl hm, rfl, rfl, rfl⟩

end Sys2Proof.Machine
end

section
/-!
PROOFS. The Error-Log Throttle (45_error_log_throttle.md R215 to R223).
-/

namespace Sys2Proof.Machine

/-! ### One call of LOG_THROTTLED -/

/-- The decision of R216 in its own words. -/
theorem logEmits_iff {s : State} :
    logEmits s = true ↔ s.lastLogValid = false ∨ 15000000000 ≤ s.monoNow - s.lastLogTime := by
  rw [logEmits, windowOpen, Bool.or_eq_true, Bool.not_eq_true', decide_eq_true_eq, cooldownNs]

theorem logEmits_eq_false_iff {s : State} :
    logEmits s = false ↔ s.lastLogValid = true ∧ s.monoNow - s.lastLogTime < 15000000000 := by
  simp [← Bool.not_eq_true, logEmits_iff]

/-- A report that may be emitted is, and moves the window to this moment (R216). -/
theorem logThrottled_of_emits {s : State} (category : LogCategory) (h : logEmits s = true) :
    logThrottled category s =
      { s.afterClock.emit (.log category) with lastLogTime := s.monoNow, lastLogValid := true } := if_pos h

/-- A suppressed report leaves nothing but the draw of the clock (R216). -/
theorem logThrottled_of_suppressed {s : State} (category : LogCategory) (h : logEmits s = false) :
    logThrottled category s = s.afterClock := if_neg (Bool.eq_false_iff.mp h)

theorem exec_logThrottled (s : State) :
    exec .logThrottled s = .next ((logThrottled s.args.category s).returning (.logged (logEmits s))) := rfl

/-- Settles O38: the two branches of R216. -/
theorem logThrottledResult : Obligations.LogThrottledResult := by
  refine fun s => ⟨fun hopen => ?_, fun hvalid hwindow => ?_⟩
  · have hemits : logEmits s = true := logEmits_iff.mpr hopen
    rw [exec_logThrottled, logThrottled_of_emits _ hemits, hemits]
    rfl
  · have hsuppressed : logEmits s = false := logEmits_eq_false_iff.mpr ⟨hvalid, hwindow⟩
    rw [exec_logThrottled, logThrottled_of_suppressed _ hsuppressed, hsuppressed]
    rfl

/-- Settles O39: the emitted report moves the window to `m1` (`logThrottled_of_emits`), the second call finds it shut
and changes nothing the third one reads (`logThrottled_of_suppressed`); no category stands in either decision
(`logEmits_iff`). -/
theorem oneWindowForAllCategories : Obligations.OneWindowForAllCategories := by
  intro s a b c wall m1 m2 m3 hfirst hwithin hafter s1 s2 s3
  have hs1 : s1 = _ := logThrottled_of_emits a hfirst
  have htime : s1.lastLogTime = m1 := by rw [hs1]; rfl
  have hvalid : s1.lastLogValid = true := by rw [hs1]
  have hshut : logEmits { s1 with clock := some ⟨wall, m2⟩ } = false :=
    logEmits_eq_false_iff.mpr ⟨hvalid, htime ▸ hwithin⟩
  have hs2 : s2 = _ := logThrottled_of_suppressed b hshut
  have htime2 : s2.lastLogTime = m1 := by rw [hs2]; exact htime
  have hopen : logEmits { s2 with clock := some ⟨wall, m3⟩ } = true :=
    logEmits_iff.mpr (.inr (htime2 ▸ hafter))
  have hs3 : s3 = _ := logThrottled_of_emits c hopen
  exact ⟨by rw [hs1]; rfl, by rw [hs2]; rfl, htime2, by rw [hs3, hs2]; rfl⟩

/-! ### Several calls while the clock stands still -/

/-- What calls of LOG_THROTTLED for these categories, one after the other with the clocks pinned at `r`, leave of the
output and of the throttle: only the first may be emitted, since it shuts the window for the others (R217). -/
structure Throttled (r : ClockReading) (categories : List LogCategory) (s t : State) : Prop where
  out          : t.out = s.out ++ if logEmits s then (categories.take 1).map .log else []
  lastLogValid : t.lastLogValid = (s.lastLogValid || (logEmits s && !categories.isEmpty))
  lastLogTime  : t.lastLogTime = if logEmits s && !categories.isEmpty then r.mono else s.lastLogTime
  emits        : logEmits t = (logEmits s && categories.isEmpty)
  clock        : t.clock = some r

theorem throttled_refl {r : ClockReading} {s : State} (h : s.clock = some r) : Throttled r [] s s :=
  ⟨by simp, by simp, by simp, by simp, h⟩

theorem throttled_raise {r : ClockReading} {s : State} (x : Exception) (h : s.clock = some r) :
    Throttled r [] s (s.raise x) :=
  ⟨by simp, by simp, by simp, by simp, h⟩

theorem throttled_logThrottled {r : ClockReading} {s : State} (category : LogCategory) (h : s.clock = some r) :
    Throttled r [category] s (logThrottled category s) where
  out          := logThrottled_out category s
  lastLogValid := by simp [logThrottled_lastLogValid]
  lastLogTime  := by simp [logThrottled_lastLogTime, monoNow_pinned h]
  emits        := by simp [logEmits_logThrottled h]
  clock        := by simp [h]

theorem Throttled.trans {r : ClockReading} {a b : List LogCategory} {s t u : State} (h : Throttled r a s t)
    (k : Throttled r b t u) : Throttled r (a ++ b) s u := by
  obtain ⟨hout, hvalid, htime, hemits, -⟩ := h
  obtain ⟨kout, kvalid, ktime, kemits, kclock⟩ := k
  rw [hemits] at kout kvalid ktime kemits
  cases a <;> exact ⟨by simpa [hout] using kout, by simpa [hvalid] using kvalid, by simpa [htime] using ktime,
    by simpa using kemits, kclock⟩

/-! ### The reports of CHECK_STATUS -/

/-- The categories CHECK_STATUS logs for a missed-frame condition, in order (R221). -/
def missedCategories (count : BitVec 31) (overflow : Bool) : List LogCategory :=
  (if count = 0 then [] else [.missed]) ++ if overflow then [.missedOverflow] else []

/-- The categories CHECK_STATUS logs for these status words, in order (R221). -/
def statusCategories (lay : Layout) (sr : Snapshot) : List LogCategory :=
  (if sr.errorStatus = 0 then [] else [.peripheral])
    ++ missedCategories (missedCount lay sr.missedStatus) (missedOverflow lay sr.missedStatus)

/-- With a missed-frame condition the first category is that of the first condition in the order of R221. -/
theorem statusCategories_take_one {lay : Layout} {sr : Snapshot} (h : missedCondition lay sr.missedStatus = true) :
    (statusCategories lay sr).take 1 =
      [if sr.errorStatus ≠ 0 then .peripheral
       else if missedCount lay sr.missedStatus ≠ 0 then .missed else .missedOverflow] := by
  by_cases herror : sr.errorStatus = 0
  · by_cases hcount : missedCount lay sr.missedStatus = 0
    · have hoverflow := ((missedCondition_iff ..).mp h).resolve_left (not_not_intro hcount)
      simp [statusCategories, missedCategories, herror, hcount, hoverflow]
    · rw [statusCategories, missedCategories, if_pos herror, if_neg hcount, if_neg (not_not_intro herror),
        if_pos hcount]
      rfl
  · rw [statusCategories, if_neg herror, if_pos herror]
    rfl

theorem throttled_checkPeripheral {r : ClockReading} {s : State} (h : s.clock = some r) :
    Throttled r (if s.snap.errorStatus = 0 then [] else [.peripheral]) s (checkPeripheral s) := by
  unfold checkPeripheral
  split
  · exact throttled_refl h
  · have hraise := throttled_raise (.peripheralError s.snap.errorStatus) h
    exact hraise.trans (throttled_logThrottled .peripheral hraise.clock)

theorem checkPeripheral_raised (s : State) :
    (checkPeripheral s).raised =
      s.raised ++ if s.snap.errorStatus ≠ 0 then [.peripheralError s.snap.errorStatus] else [] := by
  unfold checkPeripheral
  split <;> simp [*]

/-- The report of a missed-frame condition is calls of LOG_THROTTLED, then RecordMissed (R221). -/
theorem throttled_reportMissed {r : ClockReading} {s : State} (n : BitVec 31) (o : Bool) (h : s.clock = some r) :
    ∃ u, reportMissed n o s = u.emit (.recordMissed (n.setWidth 32) o) ∧ Throttled r (missedCategories n o) s u := by
  have hraise := throttled_raise (.missedFrames n o) h
  have hcount : Throttled r (if n = 0 then [] else [.missed]) (s.raise (.missedFrames n o))
      (if n = 0 then s.raise (.missedFrames n o) else logThrottled .missed (s.raise (.missedFrames n o))) := by
    split
    · exact throttled_refl hraise.clock
    · exact throttled_logThrottled .missed hraise.clock
  have hoverflow {u : State} (hu : u.clock = some r) :
      Throttled r (if o then [.missedOverflow] else []) u (if o then logThrottled .missedOverflow u else u) := by
    split
    · exact throttled_logThrottled .missedOverflow hu
    · exact throttled_refl hu
  exact ⟨_, rfl, hraise.trans (hcount.trans (hoverflow hcount.clock))⟩

theorem reportMissed_raised (n : BitVec 31) (o : Bool) (s : State) :
    (reportMissed n o s).raised = s.raised ++ [.missedFrames n o] := by
  simp only [reportMissed]
  (repeat' split) <;> simp

/-! ### CHECK_STATUS -/

theorem srFault_checkReads_eq_none {s : State} (herror : srValidBit .errorStatus s.srValid = true)
    (hmissed : srValidBit .missedStatus s.srValid = true) : srFault checkReads s = none :=
  srFault_eq_none.mpr (by simp [checkReads, herror, hmissed])

/-- CHECK_STATUS before the pulse of a missed-frame condition (R221). -/
def missedReported (s : State) : State :=
  reportMissed (missedCount s.params.layout s.snap.missedStatus) (missedOverflow s.params.layout s.snap.missedStatus)
    (checkPeripheral s)

/-- With valid words CHECK_STATUS pulses after its reports, or ends with the report of the error status (R221). -/
theorem exec_checkStatus {s : State} (h : srFault checkReads s = none) :
    exec .checkStatus s = if missedCondition s.params.layout s.snap.missedStatus then pulseReset (missedReported s)
      else .next (checkPeripheral s) := by
  have hr := reported_checkPeripheral s
  simp only [exec, execCheckStatus, checkStatus, h, checkMissed, hr.params, hr.snap_eq, missedReported]

theorem reported_missedReported (s : State) :
    Reported [.recordMissed ((missedCount s.params.layout s.snap.missedStatus).setWidth 32)
      (missedOverflow s.params.layout s.snap.missedStatus)] s (missedReported s) :=
  (reported_checkPeripheral s).trans (reported_reportMissed _ _ _)

/-- All calls of LOG_THROTTLED in CHECK_STATUS, then RecordMissed (R221). -/
theorem throttled_missedReported {r : ClockReading} {s : State} (h : s.clock = some r) :
    ∃ u, missedReported s = u.emit (.recordMissed ((missedCount s.params.layout s.snap.missedStatus).setWidth 32)
      (missedOverflow s.params.layout s.snap.missedStatus)) ∧
      Throttled r (statusCategories s.params.layout s.snap) s u := by
  have herror := throttled_checkPeripheral h
  obtain ⟨u, heq, hmissed⟩ := throttled_reportMissed (missedCount s.params.layout s.snap.missedStatus)
    (missedOverflow s.params.layout s.snap.missedStatus) herror.clock
  exact ⟨u, heq, herror.trans hmissed⟩

/-- Settles O40: without a missed-frame condition CHECK_STATUS is `checkPeripheral` alone. -/
theorem checkStatusWithoutMissedFrames : Obligations.CheckStatusWithoutMissedFrames := by
  intro s hvError hvMissed hcount hoverflow
  have hnone : missedCondition s.params.layout s.snap.missedStatus = false := by
    simp [missedCondition, hcount, hoverflow]
  have hexec : exec .checkStatus s = .next (checkPeripheral s) := by
    rw [exec_checkStatus (srFault_checkReads_eq_none hvError hvMissed), hnone]
    rfl
  refine ⟨fun herror => ?_, fun herror => ?_⟩
  · rw [hexec, checkPeripheral, if_pos herror]
  · rw [hexec, checkPeripheral, if_neg herror]
    rfl

/-- Settles O42: what `checkStatus_spec` says of every CHECK_STATUS that answers. -/
theorem missedFramesAlwaysPulse : Obligations.MissedFramesAlwaysPulse := by
  intro s t h
  have hspec : StatusChecked s t := checkStatus_spec h
  have hbus := hspec.bus
  simp only [missedCondition_iff] at hbus
  exact ⟨hbus, hspec.block, hspec.responses, hspec.callRegs⟩

/-- Settles O41: the reports are those of `throttled_missedReported`, with at least one category to log
(`statusCategories_take_one`); the pulse then adds its hold and nothing else (`pulseReset_spec`). -/
theorem checkStatusWithMissedFrames : Obligations.CheckStatusWithMissedFrames := by
  intro s c halone hclock hvError hvMissed hcond
  have hmissed := (missedCondition_iff ..).mpr hcond
  have hfirst := statusCategories_take_one hmissed
  have hsome : (statusCategories s.params.layout s.snap).isEmpty = false :=
    List.isEmpty_eq_false_iff.mpr fun hnil => by simp [hnil] at hfirst
  have hreported := reported_missedReported s
  obtain ⟨u, hu, hthrottled⟩ := throttled_missedReported hclock
  have hpulse := pulseReset_undisturbed (s := missedReported s)
    ⟨hreported.agenda.trans halone.1, hreported.lock.trans halone.2⟩
  obtain ⟨hblock, hbus, hout, hresponses, hraised, hcall, hlock, -⟩ := pulseReset_spec hpulse
  refine ⟨_, ?_, ?_, ?_, ?_, ?_, ?_, ?_, ?_, hlock⟩
  · rw [exec_checkStatus (srFault_checkReads_eq_none hvError hvMissed), if_pos hmissed]
    exact hpulse
  · rw [hout, hu, State.emit_out, hthrottled.out, hfirst]
    rfl
  · rw [hbus, hreported.bus, hreported.params]
  · rw [hraised, missedReported, reportMissed_raised, checkPeripheral_raised]
  · have hvalid : (missedReported s).lastLogValid = (s.lastLogValid || logEmits s) := by
      rw [hu, State.emit_lastLogValid, hthrottled.lastLogValid, hsome]
      simp
    have htime : (missedReported s).lastLogTime = if logEmits s then c.mono else s.lastLogTime := by
      rw [hu, State.emit_lastLogTime, hthrottled.lastLogTime, hsome]
      simp
    rw [hblock, hreported.block, hvalid, htime]
  · exact hresponses.trans hreported.responses
  · exact hcall.trans hreported.callRegs
  · simp [State.inputs, hreported.inbox, hreported.clock, hreported.allocs, halone.1]

end Sys2Proof.Machine
end

section
/-!
PROOFS. The branches of START, TIMER_FIRE, DRAIN and STOP outside their procedures: the requests turned away or held,
and the ones that touch no bus (46_poll_scheduler.md R231, R233, R234, R243, R244).
-/

namespace Sys2Proof.Machine

/-! ### START -/

/-- START with an operand is refused (R140; log 20). -/
theorem exec_start_of_nonzero {a : Word} (s : State) (ha : a ≠ 0) :
    exec (.start a) s = .next (s.reject .nonzeroArg) := if_pos ha

/-- START outside Stopped is refused (R231). -/
theorem exec_start_of_not_stopped {s : State} (hm : s.mode ≠ .stopped) :
    exec (.start 0) s = .next (s.reject .outsideMode) := if_pos hm

/-- START in Stopped starts the interface, or fails without a bit rate (R233, R234). -/
theorem exec_start_of_stopped {s : State} (hm : s.mode = .stopped) :
    exec (.start 0) s = if s.bitrateConfigured then .next ((armTimer (createPollState (captureBase s))).respond 0 0)
      else .next ((s.raise .startFailed).respond Exception.startFailed.code 0) := if_neg (not_not_intro hm)

/-- Settles O43: the branch of START with a bit rate; the base is captured from the first reading of the clocks, the
timer is armed from the second. -/
theorem startResult : Obligations.StartResult := by
  intro s hm hrate
  rw [exec_start_of_stopped hm, if_pos hrate]
  rfl

/-- Settles O44: the branch of START without a bit rate. -/
theorem startWithoutABitRate : Obligations.StartWithoutABitRate := by
  intro s hm hrate
  rw [exec_start_of_stopped hm, if_neg (ne_true_of_eq_false hrate)]
  rfl

/-! ### TIMER_FIRE -/

/-- TIMER_FIRE with an operand is refused (R140; log 20). -/
theorem exec_timerFire_of_nonzero {a : Word} (s : State) (ha : a ≠ 0) :
    exec (.timerFire a) s = .next (s.reject .nonzeroArg) := if_pos ha

/-- While a procedure runs TIMER_FIRE is held (R231). -/
theorem exec_timerFire_of_busy {s : State} (hbusy : s.schedBusy = true) :
    exec (.timerFire 0) s = .next (holdCall .timer (.timerFire 0) s) := if_pos hbusy

/-- With no procedure running TIMER_FIRE is its procedure, or refused without a pending timer (R231, R236; log 27). -/
theorem exec_timerFire_of_idle {s : State} (hbusy : s.schedBusy = false) :
    exec (.timerFire 0) s = if s.timerArmed then timerProcedure s else .next (s.reject .timerNotPending) :=
  if_neg (ne_true_of_eq_false hbusy)

/-! ### DRAIN -/

/-- While a procedure runs DRAIN is held (R231). -/
theorem exec_drain_of_busy {s : State} (b : Word) (hbusy : s.schedBusy = true) :
    exec (.drain b) s = .next (holdCall .port (.drain b) s) := if_pos hbusy

/-- With no procedure running DRAIN is refused outside Draining (R231). -/
theorem exec_drain_of_not_draining {s : State} (b : Word) (hbusy : s.schedBusy = false) (hm : s.mode ≠ .draining) :
    exec (.drain b) s = .next (s.reject .outsideMode) := by
  simp only [exec, execDrain, hbusy, if_neg hm, Bool.false_eq_true, if_false]

/-- A DRAIN whose burst completes is the burst and its end (R238). -/
theorem exec_drain_of_burst {s u : State} {b : Word} (hm : s.mode = .draining) (hbusy : s.schedBusy = false)
    (hburst : drainLoop b.toNat (beginDrain b s) = .next u) : exec (.drain b) s = .next (finishDrain b u) :=
  (exec_drain b hm hbusy).trans (andThen_eq_next.mpr ⟨u, hburst, rfl⟩)

/-- A full budget: the end of the procedure writes nothing but its mark and the response (R242). -/
theorem finishDrain_of_full_eq {b : Word} {s : State} (h : s.drained = b) :
    finishDrain b s = { s with schedBusy := false }.respond 0 s.drained := by
  have hlt : ¬ s.drained < b := by rw [h]; exact BitVec.lt_irrefl b
  rw [finishDrain, if_neg hlt]

/-- Settles O48: with budget 0 the burst is over before its first snapshot, and nothing drained is the full budget. -/
theorem drainOfBudgetZero : Obligations.DrainOfBudgetZero := by
  intro s hm hbusy
  have hfull : (beginDrain 0 s).drained = 0 := rfl
  rw [exec_drain_of_burst hm hbusy (u := beginDrain 0 s) rfl, finishDrain_of_full_eq hfull, hfull, ← hbusy]
  rfl

/-! ### STOP -/

/-- STOP with an operand is refused (R140; log 20). -/
theorem exec_stop_of_nonzero {a : Word} (s : State) (ha : a ≠ 0) :
    exec (.stop a) s = .next (s.reject .nonzeroArg) := if_pos ha

/-- While a procedure runs STOP is held (R231). -/
theorem exec_stop_of_busy {s : State} (hbusy : s.schedBusy = true) :
    exec (.stop 0) s = .next (holdCall .port (.stop 0) s) := if_pos hbusy

/-- With no procedure running STOP is refused in Stopped and stops the block otherwise (R231, R244). -/
theorem exec_stop_of_idle {s : State} (hbusy : s.schedBusy = false) :
    exec (.stop 0) s = if s.mode = .stopped then .next (s.reject .outsideMode)
      else .next ({ s with timerArmed := false, mode := .stopped }.respond 0 0) :=
  if_neg (ne_true_of_eq_false hbusy)

/-- Settles O53: the branch of STOP outside Stopped. -/
theorem stopResult : Obligations.StopResult := by
  intro s hbusy hm
  rw [exec_stop_of_idle hbusy, if_neg hm]
  rfl

/-! ### Turned away, or held -/

/-- Settles O36: the branches of the five operations that end in a mark. -/
theorem requestsOutsideTheirMode : Obligations.RequestsOutsideTheirMode := by
  refine fun s w => ⟨fun hm => ⟨exec_setBitRate_of_not_stopped w hm, exec_start_of_not_stopped hm⟩,
    exec_drain_of_not_draining w, fun hbusy hm => ?_, fun hbusy harmed => ?_, fun hw =>
    ⟨exec_start_of_nonzero s hw, exec_timerFire_of_nonzero s hw, exec_stop_of_nonzero s hw⟩⟩
  · exact (exec_stop_of_idle hbusy).trans (if_pos hm)
  · exact (exec_timerFire_of_idle hbusy).trans (if_neg (ne_true_of_eq_false harmed))

/-- Settles O37: the branches of the three calls that end in `holdCall`. -/
theorem callsAreHeldWhileBusy : Obligations.CallsAreHeldWhileBusy :=
  fun _ b hbusy => ⟨exec_drain_of_busy b hbusy, exec_stop_of_busy hbusy, exec_timerFire_of_busy hbusy⟩

end Sys2Proof.Machine
end

section
/-!
PROOFS. The timer's turn, and a stopped block (46_poll_scheduler.md R235, R242, R245; 47_external_interface.md R267;
60_exceptions.md R292).
-/

namespace Sys2Proof.Machine

/-! ### The timer's turn -/

theorem timerEnabled_iff {s : State} : timerEnabled s = true ↔ s.timerArmed = true ∧ s.schedBusy = false := by
  simp [timerEnabled]

/-- What becomes of a turn at which the timer may fire: it does when it is enabled, and otherwise the turn is all that
is taken (R235, R242; log 23). -/
def timerTurn (s : State) : Answer := if timerEnabled s then exec (.timerFire 0) s else .next s

/-- With no word waiting the block's turn is the timer's (R235; log 11). -/
theorem carryOut_blockTurn_idle {s : State} (hi : s.inbox = []) : carryOut (blockTurn s) = timerTurn s := by
  rw [blockTurn, hi, timerTurn]
  dsimp only
  split <;> rfl

/-- With no turn set and no word waiting a step is the timer's turn. -/
theorem step_idle {s : State} (ha : s.agenda = []) (hi : s.inbox = []) : step s = timerTurn s := by
  have hf : fetch s = blockTurn s := by rw [fetch, ha]
  rw [step_eq, hf, carryOut_blockTurn_idle hi]

/-- So is a step at the block's own turn. -/
theorem step_block_idle {s : State} {turns : List Turn} (ha : s.agenda = .block :: turns) (hi : s.inbox = []) :
    step s = timerTurn { s with agenda := turns } := by
  have hf : fetch s = blockTurn { s with agenda := turns } := by rw [fetch, ha]
  rw [step_eq, hf, carryOut_blockTurn_idle (s := { s with agenda := turns }) hi]

/-- And a step at the timer's turn, whatever words wait (R292). -/
theorem step_timer {s : State} {turns : List Turn} (ha : s.agenda = .timer :: turns) :
    step s = timerTurn { s with agenda := turns } := by
  rw [step_eq, fetch, ha, timerTurn]
  dsimp only
  split <;> rfl

/-- The turn in the words of R235. -/
theorem timerTurn_eq (s : State) :
    if s.timerArmed = true ∧ s.schedBusy = false then timerTurn s = exec (.timerFire 0) s
    else timerTurn s = .next s := by
  simp only [timerTurn, ← timerEnabled_iff]
  split <;> rfl

/-- Settles O7: each of the three kinds of step is the timer's turn (`timerTurn_eq`). -/
theorem idleBlockFiresItsTimer : Obligations.IdleBlockFiresItsTimer := by
  refine ⟨fun s ha hi => ?_, fun s turns hturn => ?_⟩
  · rw [step_idle ha hi]
    exact timerTurn_eq s
  · have hstep : step s = timerTurn { s with agenda := turns } := by
      obtain ha | ⟨ha, hi⟩ := hturn
      · exact step_timer ha
      · exact step_block_idle ha hi
    rw [hstep]
    exact timerTurn_eq { s with agenda := turns }

/-! ### A stopped block -/

/-- What stays as it was while the block is quiet: bus, output and the timing record (R245). -/
structure Quiet (s t : State) : Prop where
  bus    : t.bus = s.bus
  out    : t.out = s.out
  timing : t.timing = s.timing

/-- The four operations of the scheduler are quiet in Stopped with no timer pending: none of their branches there is a
procedure (R231, R245). -/
theorem exec_quiet_of_stopped {i : Instr} {s t : State} (hm : s.mode = .stopped) (harmed : s.timerArmed = false)
    (hi : issuer i ≠ .internal) (hrate : opTag i ≠ tagSetBitRate) (h : exec i s = .next t) : Quiet s t := by
  cases i with
  | setBitRate _ => exact absurd rfl hrate
  | start a =>
    simp only [exec, execStart] at h
    (repeat' split at h) <;> cases h <;> exact ⟨rfl, rfl, rfl⟩
  | timerFire a =>
    simp only [exec, execTimerFire, harmed, Bool.false_eq_true, if_false] at h
    (repeat' split at h) <;> cases h <;> exact ⟨rfl, rfl, rfl⟩
  | drain b =>
    have hnot : s.mode ≠ .draining := by rw [hm]; nofun
    simp only [exec, execDrain, if_neg hnot] at h
    split at h <;> cases h <;> exact ⟨rfl, rfl, rfl⟩
  | stop a =>
    simp only [exec, execStop] at h
    (repeat' split at h) <;> cases h <;> exact ⟨rfl, rfl, rfl⟩
  | _ => exact absurd rfl hi

/-- Settles O54: the operation a step runs comes from a waiting word, which is one of the four
(`exec_quiet_of_stopped`), or from the timer, which is not pending; a move of the environment and an input taken touch
no part of the block. -/
theorem stoppedBlockIsQuiet : Obligations.StoppedBlockIsQuiet := by
  intro s t hm harmed hwords hstep
  obtain ⟨i, u, hexec, hsame, ⟨c, hc, hd, hv⟩ | ⟨-, ht⟩⟩ | ⟨e, rest, rfl⟩ | hsame := step_cases hstep
  · obtain ⟨hvia, hword⟩ := hwords c hc
    have htag : opTag i = wordOp c.word := (decode_eq_ok_iff.mp hd).1
    have hblock := hsame.block
    obtain ⟨hbus, hout, htiming⟩ := exec_quiet_of_stopped ((congrArg BlockState.mode hblock).trans hm)
      ((congrArg BlockState.timerArmed hblock).trans harmed) (by rwa [hv]) (by rwa [htag]) hexec
    exact ⟨hbus.trans hsame.bus, hout.trans hsame.out, htiming.trans (congrArg BlockState.timing hblock)⟩
  · exact absurd (timerEnabled_iff.mp ht).1 (ne_true_of_eq_false harmed)
  · obtain ⟨hblock, hobserved, -, -⟩ := envStep_sameBlock e { s with agenda := rest }
    exact ⟨congrArg Observed.bus hobserved, congrArg Observed.out hobserved, congrArg BlockState.timing hblock⟩
  · exact ⟨hsame.bus, hsame.out, congrArg BlockState.timing hsame.block⟩

end Sys2Proof.Machine
end

section
/-!
PROOFS. What a TIMER_FIRE with a pending timer leaves (46_poll_scheduler.md R235 to R237; 45_error_log_throttle.md
R221).
-/

namespace Sys2Proof.Machine

/-! ### Reading and examining the status -/

/-- What reading the status words and examining them leave of the block's own part (R151, R221). -/
structure StatusExamined (s t : State) : Prop where
  block     : t.block = { s.block with snap := t.snap, srValid := s.srValid ||| statusValidBits,
                                       lastLogValid := t.lastLogValid, lastLogTime := t.lastLogTime }
  snap      : t.snap = { s.snap with bufferStatus := t.snap.bufferStatus, errorStatus := t.snap.errorStatus,
                                     missedStatus := t.snap.missedStatus }
  bus       : t.bus = s.bus ++ statusHold t.snap ++
    if missedCondition s.params.layout t.snap.missedStatus then pulseHold s.params.layout else []
  out       : ∃ l, t.out = s.out ++ l ∧ withoutLogs l = missedReport s.params.layout t.snap.missedStatus
  responses : t.responses = s.responses
  callRegs  : t.callRegs = s.callRegs
  params    : t.params = s.params

theorem statusExamined_of_next {s s1 s2 : State} (h1 : readStatus s = .next s1) (h2 : checkStatus s1 = .next s2) :
    StatusExamined s s2 := by
  have hread := readStatus_spec h1
  obtain ⟨hblock, hbus, hout, hresponses, hcall, -, hparams⟩ := checkStatus_spec h2
  have hsnap : s2.snap = s1.snap := congrArg BlockState.snap hblock
  rw [hread.params, ← hsnap] at hbus hout
  exact {
    block     := by rw [hblock, hread.block, hsnap]
    snap      := by rw [hsnap]; exact hread.snap
    bus       := by rw [hbus, hread.bus, hsnap]
    out       := by rwa [hread.out] at hout
    responses := hresponses.trans hread.responses
    callRegs  := hcall.trans hread.callRegs
    params    := hparams.trans hread.params }

/-- READ_STATUS makes the words valid that CHECK_STATUS reads (R24, R151). -/
theorem srFault_checkReads_of_status {s : State} {v : BitVec 11} (h : s.srValid = v ||| statusValidBits) :
    srFault checkReads s = none :=
  srFault_checkReads_eq_none (by rw [h, srValidBit, BitVec.getLsbD_or]; exact Bool.or_true _)
    (by rw [h, srValidBit, BitVec.getLsbD_or]; exact Bool.or_true _)

/-- Running alone READ_STATUS completes, the block still runs alone, and the clocks are as they were. -/
theorem readStatus_alone {s : State} (h : s.Undisturbed) :
    ∃ t, readStatus s = .next t ∧ t.Undisturbed ∧ t.clock = s.clock :=
  ⟨_, readStatus_undisturbed h, by simp [State.Undisturbed], by simp⟩

/-- Running alone both complete, and the clocks are as they were. -/
theorem statusExamined_undisturbed {s : State} (h : s.Undisturbed) :
    ∃ s1 s2, readStatus s = .next s1 ∧ checkStatus s1 = .next s2 ∧ s2.clock = s.clock := by
  obtain ⟨s1, h1, halone, hclock⟩ := readStatus_alone h
  obtain ⟨s2, h2, -, hclock2⟩ := checkStatus_undisturbed halone
    (srFault_checkReads_of_status (congrArg BlockState.srValid (readStatus_spec h1).block))
  exact ⟨s1, s2, h1, h2, hclock2.trans hclock⟩

/-! ### The procedure -/

/-- The state a TIMER_FIRE begins its procedure in (R236). -/
def beginTimer (s : State) : State := { s with timerArmed := false, schedBusy := true }

/-- The procedure from its parts (R236). -/
theorem timerProcedure_of_next {s s1 s2 : State} (h1 : readStatus (beginTimer s) = .next s1)
    (h2 : checkStatus s1 = .next s2) : timerProcedure s = .next (timerDecision s2) :=
  andThen_eq_next.mpr ⟨s1, h1, andThen_eq_next.mpr ⟨s2, h2, rfl⟩⟩

/-- What the decision writes: mode, timer, the procedure's mark, and the poll request (R236, R237). -/
theorem timerDecision_eq (s : State) :
    timerDecision s = { s with
      mode := (timerDecision s).mode, timerArmed := (timerDecision s).timerArmed,
      timerDeadline := (timerDecision s).timerDeadline, draws := (timerDecision s).draws, schedBusy := false,
      out := s.out ++ if bufferUsage s.params.layout s.snap.bufferStatus = 0 then [] else [.pollRequest] } := by
  unfold timerDecision
  split
  · rw [List.append_nil]; rfl
  · rfl

/-- Occupancy 0: the mode stays and the timer is armed again (R236, R235). -/
theorem timerDecision_of_empty {s : State} (h : bufferUsage s.params.layout s.snap.bufferStatus = 0) :
    (timerDecision s).mode = s.mode ∧ (timerDecision s).timerArmed = true ∧
      (timerDecision s).timerDeadline = s.monoNow + Config.pollInterval := by
  rw [timerDecision, if_pos h]
  exact ⟨rfl, rfl, rfl⟩

/-- Any other occupancy: Draining, and the timer stays as it was (R236, R237). -/
theorem timerDecision_of_occupied {s : State} (h : bufferUsage s.params.layout s.snap.bufferStatus ≠ 0) :
    (timerDecision s).mode = .draining ∧ (timerDecision s).timerArmed = s.timerArmed ∧
      (timerDecision s).timerDeadline = s.timerDeadline := by
  rw [timerDecision, if_neg h]
  exact ⟨rfl, rfl, rfl⟩

/-- Settles O45: running alone the procedure completes (`statusExamined_undisturbed`); whatever the other agents do,
what it leaves is what reading and examining the status leave (`StatusExamined`) and what the decision writes
(`timerDecision_eq`). -/
theorem timerFireResult : Obligations.TimerFireResult := by
  intro s harmed hbusy
  rw [(exec_timerFire_of_idle hbusy).trans (if_pos harmed)]
  refine ⟨fun halone => ?_, fun t ht => ?_⟩
  · obtain ⟨s1, s2, h1, h2, -⟩ := statusExamined_undisturbed (s := beginTimer s) halone
    exact ⟨_, timerProcedure_of_next h1 h2⟩
  · obtain ⟨s1, s2, h1, h2, rfl⟩ := timerProcedure_next ht
    obtain ⟨hblock, hkept, hbus, ⟨reports, hout, hreports⟩, hresponses, hcall, hparams⟩ :=
      statusExamined_of_next h1 h2
    have hdec := timerDecision_eq s2
    have hsnap : (timerDecision s2).snap = s2.snap := by rw [hdec]
    have hdelivered : delivered reports = [] := by rw [← delivered_withoutLogs, hreports, delivered_missedReport]
    have hpoll : .pollRequest ∉ reports := by
      rw [← pollRequest_mem_withoutLogs, hreports]
      exact pollRequest_notMem_missedReport _ _
    simp only [missedReport, missedCondition_iff] at hbus hreports
    rw [hsnap]
    refine ⟨?_, ⟨reports, ?_, hreports, hdelivered, hpoll⟩, ?_, ?_, ?_, fun hempty => ?_, fun hocc => ?_, hkept, ?_⟩
    · rw [hdec]; exact hbus
    · rw [hdec, hparams]; exact congrArg (· ++ _) hout
    · rw [hdec]
    · rw [hdec]; exact hresponses
    · rw [hdec]; exact hcall
    · rw [← hparams] at hempty
      obtain ⟨hmode, harmed', hdeadline⟩ := timerDecision_of_empty hempty
      refine ⟨hmode.trans (congrArg BlockState.mode hblock), harmed', fun c halone hclock => ?_⟩
      obtain ⟨_, _, k1, k2, hsame⟩ := statusExamined_undisturbed (s := beginTimer s) halone
      cases k1.symm.trans h1
      cases k2.symm.trans h2
      rw [hdeadline, monoNow_pinned (hsame.trans hclock)]
    · rw [← hparams] at hocc
      obtain ⟨hmode, harmed', hdeadline⟩ := timerDecision_of_occupied hocc
      exact ⟨hmode, harmed'.trans (congrArg BlockState.timerArmed hblock),
        hdeadline.trans (congrArg BlockState.timerDeadline hblock)⟩
    · have hfin : (timerDecision s2).block = { s2.block with
          mode := (timerDecision s2).mode, timerArmed := (timerDecision s2).timerArmed,
          timerDeadline := (timerDecision s2).timerDeadline, schedBusy := s.schedBusy } := by
        rw [hdec, hbusy]; rfl
      have hvalid : (timerDecision s2).lastLogValid = s2.lastLogValid := by rw [hdec]
      have htime : (timerDecision s2).lastLogTime = s2.lastLogTime := by rw [hdec]
      rw [hfin, hblock, hvalid, htime]
      rfl

end Sys2Proof.Machine
end

section
/-!
PROOFS. What `process_event` hands over (46_poll_scheduler.md R239; 43_frame_decoder.md R191).
-/

namespace Sys2Proof.Machine

/-- The code of a kind names it (R124, R183). -/
theorem kindOfCode_code (k : ProtocolKind) : kindOfCode k.code = k := by cases k <;> rfl

/-- The error event of a snapshot carries the kind of highest priority among its flags (R182, R183). -/
theorem kindOfCode_of_decodedEventOf {p : Params} {sr : Snapshot} {base : Time} {e : ErrorEvent}
    (h : decodedEventOf p sr base = .error e) : kindOfCode e.subcode = topKind p.layout sr.frameType := by
  cases herr : anyProtocolError p.layout sr.frameType with
  | false => rw [decodedEventOf_of_noError herr] at h; cases h
  | true => rw [decodedEventOf_of_error herr] at h; cases h; exact kindOfCode_code _

/-- Settles O51: the two branches of `handOver`; the report goes through the throttle as it stands (R191, R216). -/
theorem drainedEventIsHandedOver : Obligations.DrainedEventIsHandedOver := by
  intro s ev hev
  refine ⟨handOver ev s, by rw [processEvent, hev], ?_, ?_⟩
  · rintro f rfl
    simp [handOver, State.emit]
  · rintro e rfl
    have hkind := kindOfCode_of_decodedEventOf (decodeEvent_ok hev).1.symm
    have hemits : logEmits ((s.raise (.protocolError e.subcode e.kindFlags)).emit .recordError) = logEmits s := rfl
    refine ⟨?_, by simp [handOver], by simp [handOver]⟩
    simp [handOver, logThrottled_out, hemits, hkind]

end Sys2Proof.Machine
end

section
/-!
PROOFS. How a burst of DRAIN goes on and ends: an empty FIFO, a failed allocation, and what it delivers over the
reference peripheral (46_poll_scheduler.md R238 to R243; 20_memory.md R75, R78).
-/

namespace Sys2Proof.Machine

/-! ### The branches of one iteration -/

/-- While the budget lasts the loop is one more iteration (R238). -/
theorem drainLoop_succ {s : State} (n : Nat) (h : s.budgetRemaining ≠ 0) :
    drainLoop (n + 1) s = drainIteration (drainLoop n) s := if_neg h

/-- A snapshot of occupancy 0 ends the burst before anything is examined (R238, R291). -/
theorem drainIteration_emptied {s t : State} (again : State → Answer) (h : readFrame s = .next t)
    (hempty : bufferUsage t.params.layout t.snap.bufferStatus = 0) : drainIteration again s = .next t := by
  rw [drainIteration, h, andThen_next, if_pos hempty]

/-- A snapshot of any other occupancy is examined, then comes the event (R222, R238). -/
theorem drainIteration_occupied {s s1 s2 : State} (again : State → Answer) (h1 : readFrame s = .next s1)
    (hocc : bufferUsage s1.params.layout s1.snap.bufferStatus ≠ 0) (h2 : checkStatus s1 = .next s2) :
    drainIteration again s = drainEvent again s2 := by
  rw [drainIteration, h1, andThen_next, if_neg hocc, h2, andThen_next]

/-- An iteration whose allocation fails ends the burst, whatever it would have gone on with (R240, R285). -/
theorem drainIteration_failed {s s1 s2 : State} (again : State → Answer) (h1 : readFrame s = .next s1)
    (hocc : bufferUsage s1.params.layout s1.snap.bufferStatus ≠ 0) (h2 : checkStatus s1 = .next s2)
    (hfail : s2.allocOk = false) :
    drainIteration again s = .next (countDrained (s2.afterAlloc.raise .allocationFailure)) :=
  (drainIteration_occupied again h1 hocc h2).trans (if_neg (ne_true_of_eq_false hfail))

/-- An iteration with an allocation hands its event over and goes on with the rest of the burst (R239, R241). -/
theorem drainIteration_handed {s s1 s2 : State} {ev : DecodedEvent} (again : State → Answer)
    (h1 : readFrame s = .next s1) (hocc : bufferUsage s1.params.layout s1.snap.bufferStatus ≠ 0)
    (h2 : checkStatus s1 = .next s2) (halloc : s2.allocOk = true) (hev : decodeEvent s2.afterAlloc = .ok ev) :
    drainIteration again s = again (countDrained (handOver ev s2.afterAlloc)) := by
  rw [drainIteration_occupied again h1 hocc h2, drainEvent, if_pos halloc, processEvent, hev]
  rfl

/-- An iteration that ends the burst whatever it would have gone on with ends the loop. -/
theorem drainLoop_of_last {s t : State} (hleft : s.budgetRemaining ≠ 0)
    (hlast : ∀ again, drainIteration again s = .next t) : drainLoop s.budgetRemaining.toNat s = .next t := by
  obtain ⟨n, hn⟩ := Nat.exists_eq_succ_of_ne_zero
    fun h0 : s.budgetRemaining.toNat = 0 => hleft (BitVec.eq_of_toNat_eq h0)
  rw [hn, drainLoop_succ n hleft, hlast]

/-- Settles O49: the first iteration ends the burst (`drainIteration_emptied`), with nothing drained of a budget that is
not 0. -/
theorem drainOfAnEmptyFifoStopsEarly : Obligations.DrainOfAnEmptyFifoStopsEarly := by
  intro s s1 b hm hbusy hb h1 hempty
  obtain ⟨hblock, hbus, hout, -, hraised, -, -, hparams⟩ := readFrame_spec h1
  have hdrained : s1.drained = 0 := congrArg BlockState.drained hblock
  have hlt : s1.drained.toNat < b.toNat := by rw [hdrained]; bv_omega
  obtain ⟨hmode, harmed, -⟩ := finishDrain_of_lt hlt
  have hlast : ∀ again, drainIteration again (beginDrain b s) = .next s1 :=
    fun again => drainIteration_emptied again h1 (by rwa [hparams])
  refine ⟨finishDrain b s1, exec_drain_of_burst hm hbusy (drainLoop_of_last hb hlast), ?_, hmode, harmed, ?_⟩
  · rw [finishDrain_eq]; exact hdrained
  · rw [finishDrain_eq]; exact ⟨hout, hraised, hbus⟩

/-! ### The reference peripheral -/

/-- The premises of R75 and R243 on the burst: it runs alone, with a base, over the reference peripheral with no error
or missed-frame status, and the occupancy fits its field. -/
structure QuietReference (s : State) : Prop where
  alone     : s.Undisturbed
  baseValid : s.baseValid = true
  source    : s.periph.source = .reference
  short     : s.periph.fifo.length < 65536
  errst     : s.periph.errst = 0
  missed    : s.periph.missed = 0
  missedOvf : s.periph.missedOvf = false

/-- The live words play no part in the event of an entry's snapshot (R180). -/
theorem decodedEventOf_entrySnapshot (p : Params) (n : Nat) (errorStatus missedStatus : Word) (e : Entry)
    (base : Time) : decodedEventOf p (entrySnapshot p.layout n errorStatus missedStatus e) base = eventOfEntry p base e := rfl

/-- What a READ_FRAME does there: it shows the occupancy and the head entry, which it discards, with status words
that leave CHECK_STATUS nothing to do (R78, R80, R81, R221). -/
structure QuietRead (s t : State) : Prop where
  next   : readFrame s = .next t
  check  : checkStatus t = .next t
  alone  : t.Undisturbed
  usage  : bufferUsage t.params.layout t.snap.bufferStatus = BitVec.ofNat 16 s.periph.fifo.length
  event  : ∀ e q, s.periph.fifo = e :: q → decodedEventOf s.params t.snap s.base = eventOfEntry s.params s.base e
  periph : t.periph = { s.periph with fifo := s.periph.fifo.tail }
  allocs : t.allocs = s.allocs

theorem QuietReference.read {s : State} (h : QuietReference s) : ∃ t, QuietRead s t := by
  obtain ⟨halone, -, hsource, -, herrst, hmissed, hovf⟩ := h
  have hlive := statusReads_snap_reference (s := takeLock [] s) hsource
  have hperiph : (statusReads (takeLock [] s)).periph = s.periph := statusReads_periph _
  obtain ⟨hbuffer, herror, hmiss⟩ := entryReads_status (statusReads (takeLock [] s))
  rw [hlive] at hbuffer herror hmiss
  refine ⟨_, readFrame_undisturbed halone, checkStatus_clear (srFault_allValid _ rfl) ?_ ?_, ?_, ?_, fun e q hf => ?_,
    ?_, by simp⟩
  · exact herror.trans herrst
  · refine hmiss.trans ?_
    simp [hmissed, hovf]
  · simp [State.Undisturbed]
  · simp [hbuffer]
  · have hentry := entryReads_snap_reference (s := statusReads (takeLock [] s)) (by rwa [hperiph]) (by rwa [hperiph])
      (congrArg Snapshot.bufferStatus hlive)
    simp [hentry, decodedEventOf_entrySnapshot]
  · simp [entryReads_periph, hperiph, afterRead_dataHigh hsource]

/-- With an entry queued the occupancy shown is not 0. -/
theorem QuietRead.usage_ne_zero {s t : State} (h : QuietRead s t) (hs : QuietReference s) (hf : s.periph.fifo ≠ []) :
    bufferUsage t.params.layout t.snap.bufferStatus ≠ 0 := by
  have hpos := List.length_pos_of_ne_nil hf
  have hshort := hs.short
  rw [h.usage]
  bv_omega

/-- An empty FIFO shows occupancy 0. -/
theorem QuietRead.usage_eq_zero {s t : State} (h : QuietRead s t) (hf : s.periph.fifo = []) :
    bufferUsage t.params.layout t.snap.bufferStatus = 0 := by
  rw [h.usage, hf]
  rfl

/-- The premises stay when the burst goes on without the head entry. -/
theorem QuietReference.of_tail {s u : State} (h : QuietReference s) (halone : u.Undisturbed)
    (hbase : u.baseValid = true) (hperiph : u.periph = { s.periph with fifo := s.periph.fifo.tail }) :
    QuietReference u := by
  obtain ⟨-, -, hsource, hshort, herrst, hmissed, hovf⟩ := h
  refine ⟨halone, hbase, ?_, ?_, ?_, ?_, ?_⟩ <;> rw [hperiph]
  · exact hsource
  · rw [List.length_tail]; omega
  · exact herrst
  · exact hmissed
  · exact hovf

/-! ### Delivering entries -/

/-- What delivering the entries `es` leaves: the part of the burst in which exactly their events were handed over, the
premises of the next part, and the rest of the FIFO and of the allocations (R78, R239, R241). -/
structure Delivered (es rest : List Entry) (allocs : List Bool) (s t : State) : Prop where
  part   : ∃ handed, BurstPart s t handed [] [] ∧
    handed.map (fun sr => decodedEventOf s.params sr s.base) = es.map (eventOfEntry s.params s.base)
  quiet  : QuietReference t
  periph : t.periph = { s.periph with fifo := rest }
  allocs : t.allocs = allocs

theorem Delivered.refl {s : State} (h : QuietReference s) : Delivered [] s.periph.fifo s.allocs s s :=
  ⟨⟨[], .refl s, rfl⟩, h, rfl, rfl⟩

theorem Delivered.trans {es es' rest rest' : List Entry} {as as' : List Bool} {s u t : State}
    (h : Delivered es rest as s u) (k : Delivered es' rest' as' u t) : Delivered (es ++ es') rest' as' s t := by
  obtain ⟨⟨handed, hpart, hevents⟩, -, hperiph, -⟩ := h
  obtain ⟨⟨handed', kpart, kevents⟩, kquiet, kperiph, kallocs⟩ := k
  rw [hpart.params, hpart.base] at kevents
  exact ⟨⟨handed ++ handed', hpart.trans kpart, by rw [List.map_append, List.map_append, hevents, kevents]⟩, kquiet,
    by rw [kperiph, hperiph], kallocs⟩

/-- The budget that is left. -/
theorem Delivered.remaining {es rest : List Entry} {as : List Bool} {s t : State} (h : Delivered es rest as s t) :
    t.budgetRemaining.toNat + es.length = s.budgetRemaining.toNat := by
  obtain ⟨handed, hpart, hevents⟩ := h.part
  have hlength : handed.length = es.length := by simpa using congrArg List.length hevents
  rw [← hlength]
  exact hpart.remaining

/-- One iteration delivers the head entry when its allocation succeeds (R239). -/
theorem drainIteration_delivers {s : State} {e : Entry} {q : List Entry} {as : List Bool} (h : QuietReference s)
    (hleft : s.budgetRemaining ≠ 0) (hf : s.periph.fifo = e :: q) (ha : s.allocs = true :: as) :
    ∃ u, Delivered [e] q as s u ∧ ∀ again, drainIteration again s = again u := by
  obtain ⟨t, ht⟩ := h.read
  have hexam := examined_of_next ht.next ht.check
  have hocc := ht.usage_ne_zero h (by rw [hf]; nofun)
  have halloc : t.allocOk = true := by rw [State.allocOk, ht.allocs, ha]; rfl
  have hbase : t.base = s.base := congrArg BlockState.base hexam.block
  have hvalid : t.baseValid = true := (congrArg BlockState.baseValid hexam.block).trans h.baseValid
  have hev : decodeEvent t.afterAlloc = .ok (eventOfEntry s.params s.base e) := by
    rw [← ht.event e q hf, ← hexam.params, ← hbase]
    exact decodeEvent_of_valid (s := t.afterAlloc) (congrArg BlockState.srValid hexam.block) hvalid
  have hhand := handOver_handed (eventOfEntry s.params s.base e) t.afterAlloc
  have hperiph := hhand.periph.trans ht.periph
  have hallocs := hhand.allocs.trans (congrArg List.tail ht.allocs)
  refine ⟨_, ⟨⟨_, burstPart_handed hexam hleft hocc hev, ?_⟩, ?_, ?_, ?_⟩,
    fun again => drainIteration_handed again ht.next hocc ht.check halloc hev⟩
  · rw [List.map_singleton, ht.event e q hf, List.map_singleton]
  · exact h.of_tail ⟨hhand.agenda.trans ht.alone.1, hhand.lock.trans ht.alone.2⟩
      ((congrArg BlockState.baseValid hhand.block).trans hvalid) hperiph
  · rw [hf] at hperiph
    exact hperiph
  · rw [ha] at hallocs
    exact hallocs

/-- As long as budget and allocations last the burst delivers the first entries of the FIFO, each in one iteration, by
induction on these entries (R238, R241). -/
theorem drainLoop_delivers {es rest : List Entry} {as : List Bool} {s : State} (h : QuietReference s)
    (hf : s.periph.fifo = es ++ rest) (ha : s.allocs = List.replicate es.length true ++ as)
    (hb : es.length ≤ s.budgetRemaining.toNat) : ∃ u, Delivered es rest as s u ∧
      drainLoop s.budgetRemaining.toNat s = drainLoop u.budgetRemaining.toNat u := by
  induction es generalizing s with
  | nil =>
    cases hf
    cases ha
    exact ⟨s, .refl h, rfl⟩
  | cons e es ih =>
    have hleft : s.budgetRemaining ≠ 0 := fun h0 => by simp [h0] at hb
    obtain ⟨v, hv, hnext⟩ := drainIteration_delivers h hleft hf ha
    have hremaining := hv.remaining
    rw [List.length_cons] at hb
    rw [List.length_singleton] at hremaining
    obtain ⟨u, hu, hloop⟩ := ih hv.quiet (congrArg Peripheral.fifo hv.periph) hv.allocs (by omega)
    exact ⟨u, hv.trans hu, by rw [← hremaining, drainLoop_succ _ hleft, hnext, hloop]⟩

/-- The iteration that finds the FIFO empty ends the burst and leaves the FIFO and the allocations (R238, R291). -/
theorem drainIteration_of_empty {s : State} (h : QuietReference s) (hleft : s.budgetRemaining ≠ 0)
    (hf : s.periph.fifo = []) : ∃ t, (∀ again, drainIteration again s = .next t) ∧ BurstPart s t [] [] [t.snap] ∧
      t.periph = s.periph ∧ t.allocs = s.allocs := by
  obtain ⟨t, ht⟩ := h.read
  have hempty := ht.usage_eq_zero hf
  refine ⟨t, fun again => drainIteration_emptied again ht.next hempty, burstPart_emptied ht.next hempty hleft, ?_,
    ht.allocs⟩
  rw [ht.periph, hf, List.tail_nil, ← hf]

/-- The iteration whose allocation fails ends the burst and loses the head entry (R240, R285). -/
theorem drainIteration_drops {s : State} {as : List Bool} (h : QuietReference s) (hleft : s.budgetRemaining ≠ 0)
    (hf : s.periph.fifo ≠ []) (ha : s.allocs = false :: as) :
    ∃ t sr, (∀ again, drainIteration again s = .next t) ∧ BurstPart s t [] [sr] [] ∧
      t.periph = { s.periph with fifo := s.periph.fifo.tail } ∧ t.allocs = as := by
  obtain ⟨t, ht⟩ := h.read
  have hocc := ht.usage_ne_zero h hf
  have hallocs := ht.allocs.trans ha
  have hfail : t.allocOk = false := by rw [State.allocOk, hallocs]; rfl
  exact ⟨_, _, fun again => drainIteration_failed again ht.next hocc ht.check hfail,
    burstPart_dropped (examined_of_next ht.next ht.check) hleft hocc, ht.periph, congrArg List.tail hallocs⟩

/-! ### The whole DRAIN -/

@[simp] theorem delivered_append (l m : List OutEvent) : delivered (l ++ m) = delivered l ++ delivered m :=
  List.filterMap_append ..

/-- Leaving Log events out, an event is handed over by one `Deliver` (R239). -/
theorem delivered_handedOver (ev : DecodedEvent) : delivered (handedOver ev) = [ev] := by
  cases ev <;> rfl

theorem delivered_flatMap {α : Type} (f : α → List OutEvent) (l : List α) :
    delivered (l.flatMap f) = l.flatMap fun a => delivered (f a) := List.filterMap_flatMap ..

/-- A burst delivers the events of the snapshots it handed over, in order (R239, R263). -/
theorem BurstTrace.delivered_out {s t : State} {handed dropped emptied : List Snapshot}
    (h : BurstTrace s t handed dropped emptied) :
    delivered t.out = delivered s.out ++ handed.map fun sr => decodedEventOf s.params sr s.base := by
  rw [← delivered_withoutLogs, h.out]
  simp [delivered_flatMap, delivered_missedReport, delivered_handedOver, delivered_withoutLogs, List.map_eq_flatMap]

/-- A DRAIN whose burst delivers the entries `es` and then ends, in the words of R238 to R243. -/
theorem exec_drain_of_delivered {s u v : State} {b : Word} {es rest : List Entry} {as : List Bool}
    {dropped emptied : List Snapshot} (hm : s.mode = .draining) (hbusy : s.schedBusy = false)
    (hdelivered : Delivered es rest as (beginDrain b s) u) (hburst : drainLoop b.toNat (beginDrain b s) = .next v)
    (hend : BurstPart u v [] dropped emptied) :
    ∃ t, exec (.drain b) s = .next t ∧ t.drained.toNat = es.length + dropped.length ∧
      delivered t.out = delivered s.out ++ es.map (eventOfEntry s.params s.base) ∧
      t.raised.count .allocationFailure = s.raised.count .allocationFailure + dropped.length ∧
      t.mode = (if t.drained.toNat < b.toNat then .armed else .draining) ∧
      t.responses = s.responses ++ [responseWord 0 t.drained] ∧ t.periph = v.periph ∧ t.allocs = v.allocs := by
  have ht := exec_drain_of_burst hm hbusy hburst
  obtain ⟨hbudget, hresponses, -, hfewer, hfull, -⟩ := (drainResult s b hm hbusy).2 _ ht
  obtain ⟨handed, hfirst, hevents⟩ := hdelivered.part
  have hlength : handed.length = es.length := by simpa using congrArg List.length hevents
  have hpart := hfirst.trans hend
  rw [List.append_nil] at hpart
  have htrace := hpart.drain_trace
  refine ⟨_, ht, ?_, ?_, htrace.failures, ?_, hresponses, ?_, ?_⟩
  · rw [← hlength, ← hpart.drained_toNat, finishDrain_eq]
  · rw [htrace.delivered_out]
    exact congrArg _ hevents
  · split
    · next hlt => exact (hfewer hlt).1
    · next hge => exact (hfull (BitVec.eq_of_toNat_eq (by omega))).1
  · rw [finishDrain_eq]
  · rw [finishDrain_eq]

/-- Settles O52: the entries within the budget are delivered one by one (`drainLoop_delivers`); then the budget is used
up, or the next snapshot shows the FIFO empty (`drainIteration_of_empty`). -/
theorem drainDeliversTheQueuedFrames : Obligations.DrainDeliversTheQueuedFrames := by
  intro s b rest halone hm hbusy hbase hsource hshort herrst hmissed hovf hallocs
  have hlength : (s.periph.fifo.take b.toNat).length = min s.periph.fifo.length b.toNat := by
    rw [List.length_take, Nat.min_comm]
  obtain ⟨u, hu, hloop⟩ := drainLoop_delivers (s := beginDrain b s)
    ⟨halone, hbase, hsource, hshort, herrst, hmissed, hovf⟩ (List.take_append_drop b.toNat s.periph.fifo).symm
    (by rw [hlength]; exact hallocs) (hlength.trans_le (Nat.min_le_right ..))
  obtain ⟨v, emptied, hburst, hend, hperiph, hrest⟩ : ∃ v emptied, drainLoop u.budgetRemaining.toNat u = .next v ∧
      BurstPart u v [] [] emptied ∧ v.periph = u.periph ∧ v.allocs = u.allocs := by
    by_cases hleft : u.budgetRemaining = 0
    · exact ⟨u, [], by rw [hleft]; rfl, .refl u, rfl, rfl⟩
    · have hfew : s.periph.fifo.length ≤ b.toNat := by
        have hremaining : u.budgetRemaining.toNat + _ = b.toNat := hu.remaining
        rw [hlength] at hremaining
        bv_omega
      have hempty : u.periph.fifo = [] := by rw [hu.periph, List.drop_eq_nil_of_le hfew]
      obtain ⟨v, hlast, hpart, hperiph, hrest⟩ := drainIteration_of_empty hu.quiet hleft hempty
      exact ⟨v, _, drainLoop_of_last hleft hlast, hpart, hperiph, hrest⟩
  obtain ⟨t, ht, hdrained, hout, -, hmode, -, htperiph, htallocs⟩ :=
    exec_drain_of_delivered hm hbusy hu (hloop.trans hburst) hend
  rw [hlength] at hdrained
  refine ⟨t, ht, hdrained, hout, ?_, ?_, ?_⟩
  · rw [htperiph, hperiph, hu.periph]
    rfl
  · rw [hmode, hdrained]
    simp
  · rw [htallocs, hrest, hu.allocs]

/-- Settles O50: the first two clauses are an iteration whose allocation fails (`drainIteration_failed`), in the second
the first of a DRAIN; in the third it follows the entries delivered one by one (`drainLoop_delivers`,
`drainIteration_drops`). -/
theorem failedAllocationEndsTheBurst : Obligations.FailedAllocationEndsTheBurst := by
  refine ⟨fun again s s1 s2 h1 hocc h2 hfail => ?_, fun s s1 s2 b hm hbusy hb h1 hocc h2 hfail => ?_,
    fun s b k rest halone hm hbusy hbase hsource hshort herrst hmissed hovf hk hallocs => ?_⟩
  · rw [← (readFrame_spec h1).params] at hocc
    have hblock := (examined_of_next h1 h2).block
    exact ⟨_, drainIteration_failed again h1 hocc h2 hfail, congrArg (· + 1) (congrArg BlockState.drained hblock),
      congrArg (· - 1) (congrArg BlockState.budgetRemaining hblock), rfl, rfl, rfl⟩
  · have hparams : s1.params = s.params := (readFrame_spec h1).params
    have hdrained : s2.drained = 0 := congrArg BlockState.drained (examined_of_next h1 h2).block
    have hresponses : s2.responses = s.responses := (checkStatus_spec h2).responses.trans (readFrame_spec h1).responses
    rw [← hparams] at hocc
    refine ⟨_, exec_drain_of_burst hm hbusy
      (drainLoop_of_last hb fun again => drainIteration_failed again h1 hocc h2 hfail), ?_⟩
    rw [finishDrain_eq]
    refine ⟨congrArg (· + 1) hdrained, rfl, rfl, rfl, ?_⟩
    change s2.responses ++ [responseWord 0 (s2.drained + 1)] = _
    rw [hresponses, hdrained]
    rfl
  · obtain ⟨hqueued, hbudget⟩ := lt_min_iff.mp hk
    have hlength : (s.periph.fifo.take k).length = k := List.length_take_of_le hqueued.le
    obtain ⟨u, hu, hloop⟩ := drainLoop_delivers (s := beginDrain b s)
      ⟨halone, hbase, hsource, hshort, herrst, hmissed, hovf⟩ (List.take_append_drop k s.periph.fifo).symm
      (by rw [hlength]; exact hallocs) (hlength.trans_le hbudget.le)
    have hleft : u.budgetRemaining ≠ 0 := by
      have hremaining : u.budgetRemaining.toNat + _ = b.toNat := hu.remaining
      rw [hlength] at hremaining
      bv_omega
    have hsome : u.periph.fifo ≠ [] := by
      rw [hu.periph]
      exact List.drop_eq_nil_iff.not.mpr (Nat.not_le.mpr hqueued)
    obtain ⟨v, sr, hlast, hpart, hperiph, hrest⟩ := drainIteration_drops hu.quiet hleft hsome hu.allocs
    obtain ⟨t, ht, hdrained, hout, hfailures, hmode, hresponses, htperiph, htallocs⟩ :=
      exec_drain_of_delivered hm hbusy hu (hloop.trans (drainLoop_of_last hleft hlast)) hpart
    rw [hlength, List.length_singleton] at hdrained
    refine ⟨t, ht, hdrained, hout, ?_, htallocs.trans hrest, hfailures, by rw [hmode, hdrained], ?_⟩
    · rw [htperiph, hperiph, hu.periph, List.tail_drop]
      rfl
    · rw [hresponses, ← hdrained, BitVec.ofNat_toNat, BitVec.setWidth_eq]

end Sys2Proof.Machine
end

section
/-!
PROOFS. The lock holds a burst of DRAIN begins, counted over its trace (70_reset_and_hazards.md R332;
46_poll_scheduler.md R238, R241).
-/

namespace Sys2Proof.Machine

/-! ### Holds in a bus trace -/

@[simp] theorem holdCount_append (l m : List BusEvent) : holdCount (l ++ m) = holdCount l + holdCount m :=
  List.countP_append

@[simp] theorem holdCount_frameHold (sr : Snapshot) : holdCount (frameHold sr) = 1 := rfl

@[simp] theorem holdCount_pulseHold (lay : Layout) : holdCount (pulseHold lay) = 1 := rfl

/-- An examined snapshot takes its READ_FRAME and at most one reset pulse (R222, R221). -/
theorem holdCount_examinedHolds_le (lay : Layout) (sr : Snapshot) : holdCount (examinedHolds lay sr) ≤ 2 := by
  rw [examinedHolds, holdCount_append, holdCount_frameHold]
  split
  · rw [holdCount_pulseHold]
  · exact Nat.le_succ 1

/-- Pieces of at most `n` holds each make a trace of at most `n` holds per piece. -/
theorem holdCount_flatMap_le {α : Type} {f : α → List BusEvent} {n : Nat} (hf : ∀ a, holdCount (f a) ≤ n)
    (l : List α) : holdCount (l.flatMap f) ≤ n * l.length := by
  induction l with
  | nil => exact Nat.zero_le _
  | cons a l ih =>
    have ha := hf a
    rw [List.flatMap_cons, holdCount_append, List.length_cons, Nat.mul_succ]
    omega

/-! ### Holds of a burst -/

/-- A burst begins at most two holds per examined snapshot and one per snapshot of an empty FIFO (R238, R222). -/
theorem BurstTrace.holdCount_le {s t : State} {handed dropped emptied : List Snapshot}
    (h : BurstTrace s t handed dropped emptied) :
    holdCount t.bus ≤ holdCount s.bus + 2 * (handed.length + dropped.length) + emptied.length := by
  have hexamined := holdCount_flatMap_le (holdCount_examinedHolds_le s.params.layout) (handed ++ dropped)
  have hread := holdCount_flatMap_le (fun sr => (holdCount_frameHold sr).le) emptied
  rw [List.length_append] at hexamined
  rw [h.bus, holdCount_append, holdCount_append]
  omega

/-- The snapshots of a burst, the terminating one included, are at most the budget when an empty FIFO ends it below the
budget (R241, C13). -/
theorem BurstTrace.reads_le {s t : State} {handed dropped emptied : List Snapshot} {budget : Nat}
    (h : BurstTrace s t handed dropped emptied) (hdrained : handed.length + dropped.length ≤ budget)
    (hbelow : emptied ≠ [] → handed.length + dropped.length < budget) :
    handed.length + dropped.length + emptied.length ≤ budget := by
  cases emptied with
  | nil => exact hdrained
  | cons sr rest =>
    have hone := h.oneEnd
    have hlt := hbelow (List.cons_ne_nil sr rest)
    omega

/-- Settles O47: by `drainResult` a DRAIN that answers is a burst of at most the budget, and below it when an empty FIFO
ends it; so it reads at most the budget's number of snapshots (`BurstTrace.reads_le`), each for at most two holds
(`BurstTrace.holdCount_le`). -/
theorem drainHoldsAreBounded : Obligations.DrainHoldsAreBounded := by
  intro s t b hm hbusy ht
  obtain ⟨hbudget, -, -, -, -, ⟨handed, dropped, emptied, htrace, hcount, -, hbelow, -⟩, -⟩ :=
    (drainResult s b hm hbusy).2 t ht
  rw [hcount] at hbudget hbelow
  have hholds := htrace.holdCount_le
  have hreads := htrace.reads_le (Nat.le.intro hbudget) hbelow
  omega

end Sys2Proof.Machine
end
